-- ==== Sys2Proof/Word.lean ====
section
/-! DEFINITION. The word types of the png-codec block (spec 00_scope.md R5, R9: `XLEN` = 32, bit 0
least significant). -/

namespace Sys2Proof

/-- A 32-bit register, a command word, a value on the register port (R5, `XLEN`). -/
abbrev Word := BitVec 32

/-- One byte of the BYTE space, of a line buffer or of the alpha RAM (20_memory.md R60). -/
abbrev Byte := BitVec 8

/-- One cell of the PIX space: one channel of one pixel (20_memory.md R61). -/
abbrev Channel := BitVec 16

end Sys2Proof
end

