-- ==== Sys2Proof/Syntax.lean ====
section
/-! DEFINITION. The commands of the block, one constructor per row of spec/opcode_table.json
(30_encoding.md R93). A command's other operands are registers (10_state.md R58). -/

namespace Sys2Proof

/-- The 17 commands of R93. -/
inductive Instr where
  /-- `NOP`, form Z, 0x00 (R120) -/
  | nop
  /-- `CTL.RST`, form Z, 0x01 (R121) -/
  | ctlRst
  /-- `CTL.WCLR`, form Z, 0x02 (R122) -/
  | ctlWclr
  /-- `CRC.INIT`, form Z, 0x10 (R133) -/
  | crcInit
  /-- `CRC.BYTE imm8`, form I8, 0x11 (R134): `imm8` an unsigned byte, used as is -/
  | crcByte (imm8 : Byte)
  /-- `CRC.BUF`, form Z, 0x12 (R135) -/
  | crcBuf
  /-- `CRC.CHK`, form Z, 0x13 (R136) -/
  | crcChk
  /-- `CRC.CHKM`, form Z, 0x14 (R137) -/
  | crcChkm
  /-- `CRC.CHUNK`, form Z, 0x15 (R138) -/
  | crcChunk
  /-- `FLT.ROW`, form Z, 0x20 (R156) -/
  | fltRow
  /-- `A7.PASS p`, form P3, 0x30 (R174): `p` the pass number, 0..7 -/
  | a7Pass (p : Nat)
  /-- `A7.MAP`, form Z, 0x31 (R177) -/
  | a7Map
  /-- `A7.LEN`, form Z, 0x32 (R179) -/
  | a7Len
  /-- `PXU.ROW`, form Z, 0x40 (R205) -/
  | pxuRow
  /-- `PXP.ROW`, form Z, 0x50 (R223) -/
  | pxpRow
  /-- `PXP.IMG`, form Z, 0x51 (R226) -/
  | pxpImg
  /-- `DEC.IMG`, form Z, 0x60 (R241) -/
  | decImg
deriving DecidableEq, Repr

end Sys2Proof
end

