-- ==== Sys2Proof/WellFormed.lean ====
section
/-! DEFINITION. Which terms of `Instr` are commands: the operand ranges of 30_encoding.md R91. -/

namespace Sys2Proof

/-- The pass number of form P3 is 0..7 (R91). The byte of form I8 is in range by its type, and form Z
has no operand. -/
def Instr.wellFormed : Instr → Bool
  | .a7Pass p => decide (p ≤ 7)
  | .nop | .ctlRst | .ctlWclr => true
  | .crcInit | .crcByte _ | .crcBuf | .crcChk | .crcChkm | .crcChunk => true
  | .fltRow | .a7Map | .a7Len | .pxuRow | .pxpRow | .pxpImg | .decImg => true

end Sys2Proof
end

