-- ==== Sys2Proof/Decode.lean ====
section
/-! DEFINITION. The command decoder and encoder (30_encoding.md R90 to R94), total on any 32-bit word:
a word is a command of R93 or it is illegal, for a reason with a name. -/

namespace Sys2Proof

/-- Why a word is illegal (R94). The block reports both the same way, `ERR_ILLEGAL_CMD(word)`. -/
inductive DecodeError where
  /-- bits 31:24 are no opcode of R93 -/
  | unknownOpcode
  /-- the opcode is in R93 but a must-be-zero bit of its form is set (R92) -/
  | mustBeZero
deriving DecidableEq, Repr

/-- `opc`, bits 31:24 of the word (R90). -/
def opcField (w : Word) : Nat := w.toNat / 2 ^ 24

/-- `arg`, bits 23:0 of the word (R90). -/
def argField (w : Word) : Nat := w.toNat % 2 ^ 24

/-- Form Z: all 24 bits of `arg` must be zero (R91). -/
def formZ (i : Instr) (arg : Nat) : Except DecodeError Instr :=
  if arg = 0 then .ok i else .error .mustBeZero

/-- Form I8: bits 23:8 must be zero, bits 7:0 are `imm8` (R91). -/
def formI8 (arg : Nat) : Except DecodeError Instr :=
  if arg / 2 ^ 8 = 0 then .ok (.crcByte (BitVec.ofNat 8 arg)) else .error .mustBeZero

/-- Form P3: bits 23:3 must be zero, bits 2:0 are `p` (R91). -/
def formP3 (arg : Nat) : Except DecodeError Instr :=
  if arg / 2 ^ 3 = 0 then .ok (.a7Pass arg) else .error .mustBeZero

/-- The opcode map of R93; every other word is illegal (R94). -/
def decodeWord (w : Word) : Except DecodeError Instr :=
  match opcField w with
  | 0x00 => formZ .nop (argField w)
  | 0x01 => formZ .ctlRst (argField w)
  | 0x02 => formZ .ctlWclr (argField w)
  | 0x10 => formZ .crcInit (argField w)
  | 0x11 => formI8 (argField w)
  | 0x12 => formZ .crcBuf (argField w)
  | 0x13 => formZ .crcChk (argField w)
  | 0x14 => formZ .crcChkm (argField w)
  | 0x15 => formZ .crcChunk (argField w)
  | 0x20 => formZ .fltRow (argField w)
  | 0x30 => formP3 (argField w)
  | 0x31 => formZ .a7Map (argField w)
  | 0x32 => formZ .a7Len (argField w)
  | 0x40 => formZ .pxuRow (argField w)
  | 0x50 => formZ .pxpRow (argField w)
  | 0x51 => formZ .pxpImg (argField w)
  | 0x60 => formZ .decImg (argField w)
  | _ => .error .unknownOpcode

/-- The word of a command (R91, R93). -/
def encode : Instr → Word
  | .nop => 0x00000000
  | .ctlRst => 0x01000000
  | .ctlWclr => 0x02000000
  | .crcInit => 0x10000000
  | .crcByte imm8 => 0x11000000 ||| imm8.setWidth 32
  | .crcBuf => 0x12000000
  | .crcChk => 0x13000000
  | .crcChkm => 0x14000000
  | .crcChunk => 0x15000000
  | .fltRow => 0x20000000
  | .a7Pass p => 0x30000000 ||| BitVec.ofNat 32 p
  | .a7Map => 0x31000000
  | .a7Len => 0x32000000
  | .pxuRow => 0x40000000
  | .pxpRow => 0x50000000
  | .pxpImg => 0x51000000
  | .decImg => 0x60000000

/-- The rows of R93 as (mask, word): a word is the row's command when its bits under the mask are the
row's word. The masks are those of R92: all bits for form Z, all but 7:0 for I8, all but 2:0 for P3. -/
def commandTable : List (Word × Word) :=
  [(0xFFFFFFFF, 0x00000000), (0xFFFFFFFF, 0x01000000), (0xFFFFFFFF, 0x02000000),
   (0xFFFFFFFF, 0x10000000), (0xFFFFFF00, 0x11000000), (0xFFFFFFFF, 0x12000000),
   (0xFFFFFFFF, 0x13000000), (0xFFFFFFFF, 0x14000000), (0xFFFFFFFF, 0x15000000),
   (0xFFFFFFFF, 0x20000000), (0xFFFFFFF8, 0x30000000), (0xFFFFFFFF, 0x31000000),
   (0xFFFFFFFF, 0x32000000), (0xFFFFFFFF, 0x40000000), (0xFFFFFFFF, 0x50000000),
   (0xFFFFFFFF, 0x51000000), (0xFFFFFFFF, 0x60000000)]

/-- Some row of R93 matches the word. -/
def matchesTable (w : Word) : Bool := commandTable.any (fun r => w &&& r.1 == r.2)

/-- The command word whose bits, numbered as spec/opcode_table.json numbers them, are the low `nbits`
bits of `w`; the bits above are zero. A command is one 32-bit word (R90), so bit `k` of the table is
bit `k` of the word; there is no byte order (20_memory.md R69). -/
def tableWord (nbits w : Nat) : Word := BitVec.ofNat 32 (w % 2 ^ nbits)

/-- The command the decoder reads from a row's bits. No command is longer than 32 bits (R90). -/
def decodeTableWord (nbits w : Nat) : Option Instr :=
  if nbits ≤ 32 then
    match decodeWord (tableWord nbits w) with
    | .ok i => some i
    | .error _ => none
  else none

end Sys2Proof
end

