-- ==== Sys2Proof/Config.lean ====
section
/-! DEFINITION. What an implementation fixes (the OPEN parameters of 00_scope.md R5) and the free
values: contents the spec calls unspecified (93_implementation_defined.md U1 to U4). A free value is
an opaque constant without a body, so nothing can evaluate it and a statement holds whatever it is. -/

namespace Sys2Proof

/-- The OPEN parameters of R5. The spec's model takes them as an argument; here they are a field of
the machine's state that no step writes, so that a statement about every state is a statement about
every implementation (DESIGN CHOICE, log 1). -/
structure Params where
  /-- `BYTE_SIZE`: bytes in the BYTE memory -/
  byteSize : Nat
  /-- `PIX_SIZE`: 16-bit cells in the PIX memory -/
  pixSize : Nat
  /-- `MAX_ROW_BYTES`: bytes in each line buffer -/
  maxRowBytes : Nat
deriving DecidableEq, Repr

/-- The ranges R5 gives the OPEN parameters. -/
def Params.legal (p : Params) : Bool :=
  decide (1 ≤ p.byteSize ∧ p.byteSize < 2 ^ 32) &&
  decide (4 ≤ p.pixSize ∧ p.pixSize < 2 ^ 32) &&
  decide (1 ≤ p.maxRowBytes ∧ p.maxRowBytes < 2 ^ 32)

/-- The example setting of 95_test_vectors.md, "not a choice" of the spec's; the model's reset state
uses it (DESIGN CHOICE, log 1). -/
def Params.exampleSetting : Params :=
  { byteSize := 4096, pixSize := 4096, maxRowBytes := 256 }

/-- `PLTE_ENTRIES` of R5: the entries of the palette RAM and of the alpha RAM. -/
def Config.plteEntries : Nat := 256

/-- FREE VALUE. The byte that draw `d` gives BYTE address `a` (U1 and U3; log 2, log 5). -/
opaque Config.freeByte (d a : Nat) : Byte

/-- FREE VALUE. The value that draw `d` gives PIX cell `i` (U1 and U3; log 2, log 5). -/
opaque Config.freeCell (d i : Nat) : Channel

/-- FREE VALUE. The contents that draw `d` gives palette entry `i` (U2; log 3). -/
opaque Config.freePalette (d i : Nat) : BitVec 24

/-- FREE VALUE. The contents that draw `d` gives alpha entry `i` (U2; log 3). -/
opaque Config.freeAlpha (d i : Nat) : Byte

/-- FREE VALUE. The byte that draw `d` gives byte `i` of line buffer `LB[0]` (`sel = false`) or
`LB[1]` (`sel = true`) (U4; log 4). -/
opaque Config.freeLine (d : Nat) (sel : Bool) (i : Nat) : Byte

end Sys2Proof
end

