-- ==== Sys2Proof/Machine/State.lean ====
section
/-! DEFINITION. The state of the machine (10_state.md R20): the registers of R23, the palette and alpha
RAMs, the two line buffers, the BYTE and PIX memories; with them the OPEN parameters, the counters of
the free values, and the host's side of a run (70_reset_and_hazards.md R300, R301). Plain data. -/

namespace Sys2Proof.Machine

/-- A memory of `w`-bit cells: (address, contents) pairs, addresses strictly rising. An address that is
not listed has NO value of its own: nothing has written it since the hardware reset, and what a read
gives there is a free value (93_implementation_defined.md U1, U2, U4; log 2). -/
abbrev Memory (w : Nat) := List (Nat × BitVec w)

/-- What the host can do (30_encoding.md R95, 70_reset_and_hazards.md R300). -/
inductive HostAction where
  /-- `RegWrite(off, v)`; at offset 0x000 it issues the command word `v` (R90) -/
  | regWrite (off : Nat) (v : Word)
  /-- `RegRead(off)` -/
  | regRead (off : Nat)
  /-- `HostByteWrite(a, v)` -/
  | byteWrite (a : Nat) (v : Byte)
  /-- `HostByteRead(a)` -/
  | byteRead (a : Nat)
  /-- `HostPixWrite(i, v)` -/
  | pixWrite (i : Nat) (v : Channel)
  /-- `HostPixRead(i)` -/
  | pixRead (i : Nat)
  /-- the hardware reset event (70_reset_and_hazards.md R290) -/
  | hwReset
deriving DecidableEq, Repr

/-- The faults of the block (60_exceptions.md R251). Taking one is a step of the machine like any
other: it sets `STATUS.ERR`, `ERRCODE` and `ERRADDR` (R253). -/
inductive HwFault where
  | illegalCmd | cfg | range | bounds | seq | operand
  | truncated | crc | chunkLen
  | truncatedIdat | excessIdat | invalidFilter
  | paletteIndexOor | paletteMiss
deriving DecidableEq, Repr

/-- The registers and RAM entries of the register map (10_state.md R23). -/
inductive Reg where
  | cmd | status | errcode | erraddr | ctrl | width | height | format
  | srcAddr | srcLen | dstAddr | inEnd
  | crcAcc | crcResult | crcExpect | warnAddr | warnCnt | chunkLen | chunkType
  | trnsKey0 | trnsKey1 | trnsKey2 | plteCount | trnsCount
  | pass | passW | passH | row | rowAddr
  | a7Col | a7Row | mapX | mapY | mapIdx | expLen | pkY
  /-- `PLTE[i]`, `i` in 0..255 -/
  | plte (i : Byte)
  /-- `ALPHA[i]`, `i` in 0..255 -/
  | alpha (i : Byte)
deriving DecidableEq, Repr

/-- The flags of `STATUS` (10_state.md R24); bits 31:5 are not storage. -/
structure Status where
  /-- bit 0, `ERR` -/
  err : Bool
  /-- bit 1, `W_CRC` -/
  wCrc : Bool
  /-- bit 2, `CRC_OK` -/
  crcOk : Bool
  /-- bit 3, `PREV_VALID` -/
  prevValid : Bool
  /-- bit 4, `LSEL` -/
  lsel : Bool
deriving DecidableEq, Repr

/-- The option bits of `CTRL` (10_state.md R25); bits 31:4 are not storage. -/
structure Ctrl where
  /-- bit 0, `STRICT` -/
  strict : Bool
  /-- bit 1, `FORCE32` -/
  force32 : Bool
  /-- bit 2, `TRNS_EN` -/
  trnsEn : Bool
  /-- bit 3, `PK_FB` -/
  pkFb : Bool
deriving DecidableEq, Repr

/-- The fields of `FORMAT` (10_state.md R27); the bits between them are not storage. -/
structure Format where
  /-- bits 4:0, `BITDEPTH` -/
  bitDepth : BitVec 5
  /-- bits 10:8, `COLORTYPE` -/
  colorType : BitVec 3
  /-- bit 16, `INTERLACE`: 1 is Adam7 (30_encoding.md R101) -/
  interlace : Bool
deriving DecidableEq, Repr

/-- The registers of 10_state.md R23 that are storage, each as wide as R23 says. -/
structure Regs where
  status : Status
  errcode : BitVec 8
  erraddr : Word
  ctrl : Ctrl
  width : Word
  height : Word
  format : Format
  srcAddr : Word
  srcLen : Word
  dstAddr : Word
  inEnd : Word
  crcAcc : Word
  crcExpect : Word
  warnAddr : Word
  warnCnt : Word
  chunkLen : Word
  chunkType : Word
  trnsKey0 : BitVec 16
  trnsKey1 : BitVec 16
  trnsKey2 : BitVec 16
  plteCount : BitVec 9
  trnsCount : BitVec 9
  pass : BitVec 3
  passW : Word
  passH : Word
  row : Word
  rowAddr : Word
  a7Col : Word
  a7Row : Word
  mapX : Word
  mapY : Word
  mapIdx : Word
  expLen : Word
  pkY : Word
deriving DecidableEq, Repr

/-- The whole state (10_state.md R20), and the model's own fields. -/
structure State where
  /-- the OPEN parameters of 00_scope.md R5; no step writes them (log 1) -/
  params : Params
  /-- the registers of 10_state.md R23 -/
  regs : Regs
  /-- `PLTE[0..255]` (R41) -/
  plte : Memory 24
  /-- `ALPHA[0..255]` (R41) -/
  alpha : Memory 8
  /-- `LB[0]` (R42) -/
  lb0 : Memory 8
  /-- `LB[1]` (R42) -/
  lb1 : Memory 8
  /-- the BYTE space (20_memory.md R60) -/
  byteMem : List Host.Cell
  /-- the PIX space (20_memory.md R61) -/
  pixMem : Memory 16
  /-- MODEL'S OWN: the draw that never-written contents come from (log 2) -/
  launch : Nat
  /-- MODEL'S OWN: the number of the next draw of free values (log 5) -/
  draws : Nat
  /-- MODEL'S OWN: the host actions still to come, first one next (R301; log 6) -/
  script : List HostAction
  /-- MODEL'S OWN: what the host got back from its reads, latest first (log 7) -/
  readLog : List Word
deriving DecidableEq, Repr

/-- Why a step can stop the machine for good: never. Every fault of the block is a state the machine
goes on from (60_exceptions.md R253, R255), so this type has no member (log 18; safe: nothing stops). -/
inductive Fault where
deriving DecidableEq, Repr

/-- Why the model gives a step no meaning. -/
inductive Refusal where
  /-- a command without a meaning in the model; no command is left so (safe) -/
  | notModelled (mnemonic : String)
  /-- `RegWrite` or `RegRead` at an offset the port cannot carry: not a multiple of 4 or above 0xFFC.
  Raised by a host action only; "refuse: the model gives such an action no step" (U5; log 8; safe) -/
  | noSuchRegOffset (off : Nat)
  /-- `HostByteWrite` or `HostByteRead` at an address not below `BYTE_SIZE` (U5; log 8; safe) -/
  | noSuchByteAddress (a : Nat)
  /-- `HostPixWrite` or `HostPixRead` at an index not below `PIX_SIZE` (U5; log 8; safe) -/
  | noSuchPixIndex (i : Nat)
deriving DecidableEq, Repr

/-- Every register at the reset value of R23 and R43: all zero. -/
def Regs.reset : Regs where
  status := { err := false, wCrc := false, crcOk := false, prevValid := false, lsel := false }
  errcode := 0
  erraddr := 0
  ctrl := { strict := false, force32 := false, trnsEn := false, pkFb := false }
  width := 0
  height := 0
  format := { bitDepth := 0, colorType := 0, interlace := false }
  srcAddr := 0
  srcLen := 0
  dstAddr := 0
  inEnd := 0
  crcAcc := 0
  crcExpect := 0
  warnAddr := 0
  warnCnt := 0
  chunkLen := 0
  chunkType := 0
  trnsKey0 := 0
  trnsKey1 := 0
  trnsKey2 := 0
  plteCount := 0
  trnsCount := 0
  pass := 0
  passW := 0
  passH := 0
  row := 0
  rowAddr := 0
  a7Col := 0
  a7Row := 0
  mapX := 0
  mapY := 0
  mapIdx := 0
  expLen := 0
  pkY := 0

/-- The machine right after a hardware reset (R43, 70_reset_and_hazards.md R290 to R292): every register
0, every memory, RAM and buffer with nothing written (their contents are draw 0 of the free values),
nothing in the host's script. The parameters are the example setting of 95_test_vectors.md (log 1). -/
def State.reset : State where
  params := Params.exampleSetting
  regs := Regs.reset
  plte := []
  alpha := []
  lb0 := []
  lb1 := []
  byteMem := []
  pixMem := []
  launch := 0
  draws := 1
  script := []
  readLog := []

end Sys2Proof.Machine
end

