-- ==== Sys2Proof/Machine/Flags.lean ====
section
/-! DEFINITION. The three registers made of flags and fields, `STATUS`, `CTRL` and `FORMAT`
(10_state.md R24, R25, R27): their 32-bit views on the register port and the updates of single
flags. The block has no condition codes (R24). -/

namespace Sys2Proof.Machine

/-- `STATUS` as the port reads it: `ERR` bit 0, `W_CRC` 1, `CRC_OK` 2, `PREV_VALID` 3, `LSEL` 4, the
other bits 0 (R24). -/
def Status.toWord (f : Status) : Word :=
  (BitVec.ofBool f.lsel ++ BitVec.ofBool f.prevValid ++ BitVec.ofBool f.crcOk ++
    BitVec.ofBool f.wCrc ++ BitVec.ofBool f.err).setWidth 32

/-- `CTRL` as the port reads it: `STRICT` bit 0, `FORCE32` 1, `TRNS_EN` 2, `PK_FB` 3 (R25). -/
def Ctrl.toWord (c : Ctrl) : Word :=
  (BitVec.ofBool c.pkFb ++ BitVec.ofBool c.trnsEn ++ BitVec.ofBool c.force32 ++
    BitVec.ofBool c.strict).setWidth 32

/-- What a host write of `v` stores in `CTRL`: bits 3:0 (R25). -/
def Ctrl.ofWord (v : Word) : Ctrl where
  strict := v.getLsbD 0
  force32 := v.getLsbD 1
  trnsEn := v.getLsbD 2
  pkFb := v.getLsbD 3

/-- `FORMAT` as the port reads it: `BITDEPTH` 4:0, `COLORTYPE` 10:8, `INTERLACE` 16, 0 between (R27). -/
def Format.toWord (f : Format) : Word :=
  (BitVec.ofBool f.interlace ++ (0 : BitVec 5) ++ f.colorType ++ (0 : BitVec 3) ++
    f.bitDepth).setWidth 32

/-- What a host write of `v` stores in `FORMAT`; the reserved bits are ignored (R27). -/
def Format.ofWord (v : Word) : Format where
  bitDepth := v.extractLsb' 0 5
  colorType := v.extractLsb' 8 3
  interlace := v.getLsbD 16

/-- `STATUS.CRC_OK <- ok`. -/
def Regs.setCrcOk (r : Regs) (ok : Bool) : Regs :=
  { r with status := { r.status with crcOk := ok } }

/-- `STATUS.PREV_VALID <- valid`. -/
def Regs.setPrevValid (r : Regs) (valid : Bool) : Regs :=
  { r with status := { r.status with prevValid := valid } }

/-- `STATUS.LSEL <- sel`. -/
def Regs.setLsel (r : Regs) (sel : Bool) : Regs :=
  { r with status := { r.status with lsel := sel } }

end Sys2Proof.Machine
end

