-- ==== Sys2Proof/Machine/Ops.lean ====
section
/-! DEFINITION. The operations every command is written over: memories and free values (00_scope.md
R11, 20_memory.md R60 to R65), taking a fault and warning (60_exceptions.md R253, R262), the two resets
(70_reset_and_hazards.md R290). -/

namespace Sys2Proof.Machine

/-! ## Numbers -/

/-- `ceil(a / b)` for `b > 0` (R8). -/
def ceilDiv (a b : Nat) : Nat := (a + b - 1) / b

/-- `REG <- v` of a 32-bit register: `trunc_32(v)` (R10). -/
def word (v : Nat) : Word := BitVec.ofNat 32 v

/-! ## Memories -/

/-- What address `a` holds, `none` when nothing has written it. -/
def Memory.lookup {w : Nat} : Memory w → Nat → Option (BitVec w)
  | [], _ => none
  | (k, v) :: rest, a => if k = a then some v else Memory.lookup rest a

/-- The entries of `vs` at increasing addresses from `a`. -/
def Memory.run {w : Nat} (a : Nat) : List (BitVec w) → Memory w
  | [] => []
  | v :: vs => (a, v) :: Memory.run (a + 1) vs

/-- `m` with `vs` stored at `a, a + 1, ...`; every other address as before. -/
def Memory.writeRange {w : Nat} (m : Memory w) (a : Nat) (vs : List (BitVec w)) : Memory w :=
  m.filter (fun c => c.1 < a) ++ Memory.run a vs ++ m.filter (fun c => a + vs.length ≤ c.1)

/-- `m` with `v` stored at `a`. -/
def Memory.write {w : Nat} (m : Memory w) (a : Nat) (v : BitVec w) : Memory w :=
  Memory.writeRange m a [v]

/-- The canonical form: addresses strictly rising. An unlisted address has no value of its own, so no
entry can equal it (log 2). -/
abbrev Memory.wf {w : Nat} (m : Memory w) : Prop := m.Pairwise (fun c d => c.1 < d.1)

/-- The byte at BYTE address `a`, `B[a]` (R11); free if never written since hardware reset (U1). -/
def State.byteAt (s : State) (a : Nat) : Byte :=
  (Memory.lookup s.byteMem a).getD (Config.freeByte s.launch a)

/-- The cell at PIX index `i`, `P[i]` (R11); free if never written since hardware reset (U1). -/
def State.cellAt (s : State) (i : Nat) : Channel :=
  (Memory.lookup s.pixMem i).getD (Config.freeCell s.launch i)

/-- `PLTE[i]`; free if never written since hardware reset (U2). -/
def State.paletteAt (s : State) (i : Nat) : BitVec 24 :=
  (Memory.lookup s.plte i).getD (Config.freePalette s.launch i)

/-- `ALPHA[i]`; free if never written since hardware reset (U2). -/
def State.alphaAt (s : State) (i : Nat) : Byte :=
  (Memory.lookup s.alpha i).getD (Config.freeAlpha s.launch i)

/-- Line buffer `LB[0]` or `LB[1]` (R42). -/
def State.line (s : State) (sel : Bool) : Memory 8 := if sel then s.lb1 else s.lb0

/-- `LB[sel][i]`; free if never written since hardware reset (U4). -/
def State.lineAt (s : State) (sel : Bool) (i : Nat) : Byte :=
  (Memory.lookup (s.line sel) i).getD (Config.freeLine s.launch sel i)

/-- `LB[sel][0 .. n-1]`. -/
def State.lineBytes (s : State) (sel : Bool) (n : Nat) : List Byte :=
  (List.range n).map (fun i => s.lineAt sel i)

/-- `LB[sel][0 .. n-1] <- vs`, `n` the length of `vs`. -/
def State.storeLine (s : State) (sel : Bool) (vs : List Byte) : State :=
  if sel then { s with lb1 := Memory.writeRange s.lb1 0 vs }
  else { s with lb0 := Memory.writeRange s.lb0 0 vs }

/-- The bytes `B[a], ..., B[a + n - 1]`. -/
def State.bytesAt (s : State) (a n : Nat) : List Byte :=
  (List.range n).map (fun i => s.byteAt (a + i))

/-- `BE32(a)`: four bytes, most significant at the lowest address (R11, R68). -/
def State.be32 (s : State) (a : Nat) : Word :=
  s.byteAt a ++ s.byteAt (a + 1) ++ s.byteAt (a + 2) ++ s.byteAt (a + 3)

/-- `RLIM = min(IN_END, BYTE_SIZE)` (R64). -/
def State.rlim (s : State) : Nat := min s.regs.inEnd.toNat s.params.byteSize

/-- `vs` written to BYTE from address `a`. -/
def State.storeBytes (s : State) (a : Nat) (vs : List Byte) : State :=
  { s with byteMem := Memory.writeRange s.byteMem a vs }

/-- `vs` written to PIX from index `i`. -/
def State.storeCells (s : State) (i : Nat) (vs : List Channel) : State :=
  { s with pixMem := Memory.writeRange s.pixMem i vs }

/-! ## Draws of free values (93_implementation_defined.md U3) -/

/-- BYTE addresses `a .. a + n - 1` take the values of a fresh draw. -/
def State.drawBytes (s : State) (a n : Nat) : State :=
  { s with
    byteMem := Memory.writeRange s.byteMem a
      ((List.range n).map (fun k => Config.freeByte s.draws (a + k)))
    draws := s.draws + 1 }

/-- PIX cells `i .. i + n - 1` take the values of a fresh draw. -/
def State.drawCells (s : State) (i n : Nat) : State :=
  { s with
    pixMem := Memory.writeRange s.pixMem i
      ((List.range n).map (fun k => Config.freeCell s.draws (i + k)))
    draws := s.draws + 1 }

/-! ## Taking a fault, warning -/

/-- The code of a fault (R251). -/
def HwFault.code : HwFault → BitVec 8
  | .illegalCmd => 0x01
  | .cfg => 0x02
  | .range => 0x03
  | .bounds => 0x04
  | .seq => 0x05
  | .operand => 0x06
  | .truncated => 0x10
  | .crc => 0x11
  | .chunkLen => 0x12
  | .truncatedIdat => 0x20
  | .excessIdat => 0x21
  | .invalidFilter => 0x22
  | .paletteIndexOor => 0x30
  | .paletteMiss => 0x31

/-- `raise E(info)`: the whole of taking a fault (R253, 00_scope.md R12). Nothing is saved and control
goes nowhere; what was written before is kept. -/
def State.raise (s : State) (e : HwFault) (info : Nat) : State :=
  { s with regs := { s.regs with
      status := { s.regs.status with err := true }
      errcode := e.code
      erraddr := word info } }

/-- `warn_crc(off)` (R262): in strict mode a fault and no warning, else the sticky warning. -/
def State.warnCrc (s : State) (off : Nat) : State :=
  if s.regs.ctrl.strict then s.raise .crc off
  else { s with regs := { s.regs with
      status := { s.regs.status with wCrc := true }
      warnAddr := word off
      warnCnt := s.regs.warnCnt + 1 } }

/-- The way back from a fault (R256), soft reset: every register of R23 at its reset value; the RAMs,
line buffers and memories as they were (40_control.md R121). -/
def State.softReset (s : State) : State := { s with regs := Regs.reset }

/-- The hardware reset event (R290): every register at its reset value, every memory, RAM and line
buffer unspecified, that is: nothing written, never-written contents from a fresh draw (U1, U2, U4).
The parameters and the host's script and log are not the block's (log 10). -/
def State.hardReset (s : State) : State :=
  { s with
    regs := Regs.reset
    plte := [], alpha := [], lb0 := [], lb1 := [], byteMem := [], pixMem := []
    launch := s.draws
    draws := s.draws + 1 }

/-- The outcome of a command: every command ends in a next state, halted or not. -/
abbrev Result := Host.Outcome State Fault Refusal

end Sys2Proof.Machine
end

