-- ==== Sys2Proof/Machine/Operands.lean ====
section
/-! DEFINITION. The operands the format registers stand for (30_encoding.md R100 to R107, 20_memory.md
R61, R62, R65): legality, channels, bits per pixel, filter unit, row bytes, samples, pixel indices. -/

namespace Sys2Proof.Machine

/-- `channels(ct)`: the last column of R100. Meaningful for a legal colour type only. -/
def Format.channels (f : Format) : Nat :=
  match f.colorType.toNat with
  | 0 => 1
  | 2 => 3
  | 3 => 1
  | 4 => 2
  | 6 => 4
  | _ => 1

/-- The 15 legal (colour type, bit depth) pairs of R100. -/
def Format.legalPair (f : Format) : Bool :=
  match f.colorType.toNat with
  | 0 => [1, 2, 4, 8, 16].contains f.bitDepth.toNat
  | 2 => [8, 16].contains f.bitDepth.toNat
  | 3 => [1, 2, 4, 8].contains f.bitDepth.toNat
  | 4 => [8, 16].contains f.bitDepth.toNat
  | 6 => [8, 16].contains f.bitDepth.toNat
  | _ => false

/-- `cfg_legal` (R102). -/
def Regs.cfgLegal (r : Regs) : Bool :=
  decide (1 ≤ r.width.toNat) && decide (1 ≤ r.height.toNat) && r.format.legalPair &&
  decide (r.plteCount.toNat ≤ Config.plteEntries) && decide (r.trnsCount.toNat ≤ Config.plteEntries)

/-- `pack_legal` (45_pack.md R221). -/
def Regs.packLegal (r : Regs) : Bool :=
  r.cfgLegal && (decide (r.format.bitDepth.toNat = 8) || decide (r.format.bitDepth.toNat = 16))

/-- `bpp`, bits per pixel (R103). -/
def Format.bpp (f : Format) : Nat := f.channels * f.bitDepth.toNat

/-- `FU`, the filter unit in whole bytes (R104). -/
def Format.filterUnit (f : Format) : Nat := max 1 (ceilDiv f.bpp 8)

/-- `rowbytes(w)` (R104). -/
def Format.rowBytes (f : Format) (w : Nat) : Nat := ceilDiv (w * f.bpp) 8

/-- Byte `i` of a row. -/
def rowByte (row : List Byte) (i : Nat) : Byte := row.getD i 0

/-- `sample(row, k, j)`: sample `j` of pixel `k` (R106 for depths 8 and 16, R107 below 8), zero-extended
to 16 bits. -/
def Format.sample (f : Format) (row : List Byte) (k j : Nat) : Channel :=
  let d := f.bitDepth.toNat
  let n := k * f.channels + j
  if d = 16 then rowByte row (2 * n) ++ rowByte row (2 * n + 1)
  else if d = 8 then (rowByte row n).setWidth 16
  else BitVec.ofNat 16 (((rowByte row (k * d / 8)).toNat / 2 ^ (8 - d - k * d % 8)) % 2 ^ d)

/-- Four channel values of one pixel, each seen as 16 bits. -/
structure Pixel where
  r : Channel
  g : Channel
  b : Channel
  a : Channel
deriving DecidableEq, Repr

/-- A pixel as the four PIX cells R, G, B, A (20_memory.md R61). -/
def Pixel.cells (p : Pixel) : List Channel := [p.r, p.g, p.b, p.a]

/-- Each channel mapped alike. -/
def Pixel.map (f : Channel → Channel) (p : Pixel) : Pixel := { r := f p.r, g := f p.g, b := f p.b, a := f p.a }

/-- `pix_index(x, y, 0)` (20_memory.md R61). -/
def Regs.pixIndex (r : Regs) (x y : Nat) : Nat := 4 * (y * r.width.toNat + x)

/-- `4 * WIDTH * HEIGHT`, the cells of the image. -/
def Regs.imageCells (r : Regs) : Nat := 4 * r.width.toNat * r.height.toNat

/-- The image fits PIX (20_memory.md R65). -/
def State.imageFits (s : State) : Bool := decide (s.regs.imageCells ≤ s.params.pixSize)

/-- `OUT16` (44_unpack.md R192): the unpacker writes the RGBA16 form. -/
def Regs.out16 (r : Regs) : Bool := decide (r.format.bitDepth.toNat = 16) && !r.ctrl.force32

end Sys2Proof.Machine
end

