-- ==== Sys2Proof/Machine/Adam7.lean ====
section
/-! DEFINITION. The Adam7 unit (43_adam7.md): the pass table, dimensions, length and scatter map of R170
to R175, and the commands `A7.PASS`, `A7.MAP`, `A7.LEN`. -/

namespace Sys2Proof.Machine

/-- `xStart(p)` (R170). -/
def xStart (p : Nat) : Nat := [0, 0, 4, 0, 2, 0, 1, 0].getD p 0

/-- `yStart(p)` (R170). -/
def yStart (p : Nat) : Nat := [0, 0, 0, 4, 0, 2, 0, 1].getD p 0

/-- `xStride(p)` (R170). -/
def xStride (p : Nat) : Nat := [1, 8, 8, 4, 4, 2, 2, 1].getD p 1

/-- `yStride(p)` (R170). -/
def yStride (p : Nat) : Nat := [1, 8, 8, 8, 4, 4, 2, 2].getD p 1

/-- `pass_width(p, W)` (R171). -/
def passWidth (p w : Nat) : Nat :=
  if w ≤ xStart p then 0 else (w - xStart p + xStride p - 1) / xStride p

/-- `pass_height(p, H)` (R171). -/
def passHeight (p h : Nat) : Nat :=
  if h ≤ yStart p then 0 else (h - yStart p + yStride p - 1) / yStride p

/-- The column of the final grid where column `col` of pass `p` goes (R175). -/
def gridX (p col : Nat) : Nat := xStart p + col * xStride p

/-- The row of the final grid where row `row` of pass `p` goes (R175). -/
def gridY (p row : Nat) : Nat := yStart p + row * yStride p

/-- The pass list (R173, 46_decode_image.md R240). -/
def Format.passes (f : Format) : List Nat := if f.interlace then [1, 2, 3, 4, 5, 6, 7] else [0]

/-- The bytes pass `p` has in the inflated stream: none when it is empty (R172, R173). -/
def Regs.passBytes (r : Regs) (p : Nat) : Nat :=
  let w := passWidth p r.width.toNat
  let h := passHeight p r.height.toNat
  if 0 < w ∧ 0 < h then h * (1 + r.format.rowBytes w) else 0

/-- `expected_len` (R173). -/
def Regs.expectedLen (r : Regs) : Nat := (r.format.passes.map r.passBytes).sum

/-- The body of `A7.PASS p` after its check (R174). -/
def State.selectPass (s : State) (p : Nat) : State :=
  { s with regs := { s.regs.setPrevValid false with
    pass := BitVec.ofNat 3 p
    passW := word (passWidth p s.regs.width.toNat)
    passH := word (passHeight p s.regs.height.toNat)
    row := 0 } }

/-- `A7.PASS p` (R174). -/
def execA7Pass (p : Nat) (s : State) : Result :=
  if !s.regs.cfgLegal then .next (s.raise .cfg 0) else .next (s.selectPass p)

/-- `A7.MAP` (R177). -/
def execA7Map (s : State) : Result :=
  if !s.regs.cfgLegal then .next (s.raise .cfg 0) else
  if s.regs.passW.toNat ≤ s.regs.a7Col.toNat ∨ s.regs.passH.toNat ≤ s.regs.a7Row.toNat then
    .next (s.raise .operand 0) else
  let x := gridX s.regs.pass.toNat s.regs.a7Col.toNat
  let y := gridY s.regs.pass.toNat s.regs.a7Row.toNat
  let idx := s.regs.pixIndex x y
  if 2 ^ 32 ≤ idx + 3 then .next (s.raise .range 0) else
  .next { s with regs := { s.regs with mapX := word x, mapY := word y, mapIdx := word idx } }

/-- `A7.LEN` (R179). -/
def execA7Len (s : State) : Result :=
  if !s.regs.cfgLegal then .next (s.raise .cfg 0) else
  if 2 ^ 32 ≤ s.regs.expectedLen then .next (s.raise .range 0) else
  .next { s with regs := { s.regs with expLen := word s.regs.expectedLen } }

end Sys2Proof.Machine
end

