-- ==== Sys2Proof/Machine/Control.lean ====
section
/-! DEFINITION. The control commands `NOP`, `CTL.RST`, `CTL.WCLR` (40_control.md). -/

namespace Sys2Proof.Machine

/-- `NOP` (R120): nothing. -/
def execNop (s : State) : Result := .next s

/-- `CTL.RST` (R121): soft reset. -/
def execCtlRst (s : State) : Result := .next s.softReset

/-- `CTL.WCLR` (R122): `STATUS.W_CRC <- 0; WARN_ADDR <- 0; WARN_CNT <- 0`. -/
def execCtlWclr (s : State) : Result :=
  .next { s with regs := { s.regs with
    status := { s.regs.status with wCrc := false }, warnAddr := 0, warnCnt := 0 } }

end Sys2Proof.Machine
end

