-- ==== Sys2Proof/Machine/Crc.lean ====
section
/-! DEFINITION. The CRC-32 unit (41_crc.md): the function of R130 and R131 and the six commands. The
polynomial literal is the one 90_conflicts.md C1 settles on. -/

namespace Sys2Proof.Machine

/-- `CRC_POLY` (00_scope.md R5; 90_conflicts.md C1). -/
def crcPoly : Word := 0xEDB88320

/-- `CRC_INIT` (R5). -/
def crcInitial : Word := 0xFFFFFFFF

/-- `CRC_XOROUT` (R5). -/
def crcXorOut : Word := 0xFFFFFFFF

/-- One of the 8 shift steps of R130. -/
def crcShift (v : Word) : Word := if v.getLsbD 0 then (v >>> 1) ^^^ crcPoly else v >>> 1

/-- The shift step `n` times. -/
def crcShifts : Nat → Word → Word
  | 0, v => v
  | n + 1, v => crcShifts n (crcShift v)

/-- `crc_step(acc, b)` (R130): the byte enters at the low 8 bits, then 8 shift steps. -/
def crcStep (acc : Word) (b : Byte) : Word := crcShifts 8 (acc ^^^ b.setWidth 32)

/-- `crc_feed(acc, s)` (R131): bytes in increasing address order. -/
def crcFeed (acc : Word) : List Byte → Word
  | [] => acc
  | b :: bs => crcFeed (crcStep acc b) bs

/-- `CRC_RESULT`, the inverted view of `CRC_ACC` (10_state.md R36). -/
def Regs.crcResult (r : Regs) : Word := r.crcAcc ^^^ crcXorOut

/-- The last lines of the three checks: `CRC_OK` takes the comparison of the result with `CRC_EXPECT`,
and a mismatch warns at offset `off` (R136 to R138). -/
def State.crcCheck (s : State) (off : Nat) : State :=
  let ok := decide (s.regs.crcResult = s.regs.crcExpect)
  let t := { s with regs := s.regs.setCrcOk ok }
  if ok then t else t.warnCrc off

/-- `CRC.INIT` (R133). -/
def execCrcInit (s : State) : Result :=
  .next { s with regs := { s.regs.setCrcOk false with crcAcc := crcInitial } }

/-- `CRC.BYTE imm8` (R134). -/
def execCrcByte (imm8 : Byte) (s : State) : Result :=
  .next { s with regs := { s.regs with crcAcc := crcStep s.regs.crcAcc imm8 } }

/-- `CRC.BUF` (R135). -/
def execCrcBuf (s : State) : Result :=
  let a := s.regs.srcAddr.toNat
  let n := s.regs.srcLen.toNat
  if 1 ≤ n ∧ s.rlim < a + n then .next (s.raise .bounds a)
  else .next { s with regs := { s.regs with crcAcc := crcFeed s.regs.crcAcc (s.bytesAt a n) } }

/-- `CRC.CHK` (R136). -/
def execCrcChk (s : State) : Result := .next (s.crcCheck s.regs.srcAddr.toNat)

/-- `CRC.CHKM` (R137). -/
def execCrcChkm (s : State) : Result :=
  let a := s.regs.srcAddr.toNat
  if s.rlim < a + 4 then .next (s.raise .bounds a)
  else .next ({ s with regs := { s.regs with crcExpect := s.be32 a } }.crcCheck a)

/-- `CRC.CHUNK` (R138), over the chunk frame of 30_encoding.md R110. -/
def execCrcChunk (s : State) : Result :=
  let o := s.regs.srcAddr.toNat
  if s.rlim < o + 8 then .next (s.raise .truncated o) else
  let len := (s.be32 o).toNat
  if 0x7FFFFFFF < len then .next (s.raise .chunkLen o) else
  if s.rlim < o + 12 + len then .next (s.raise .truncated o) else
  .next ({ s with regs := { s.regs with
    chunkLen := s.be32 o
    chunkType := s.be32 (o + 4)
    crcAcc := crcFeed crcInitial (s.bytesAt (o + 4) (4 + len))
    crcExpect := s.be32 (o + 8 + len)
    srcAddr := word (o + 12 + len) } }.crcCheck o)

end Sys2Proof.Machine
end

