-- ==== Sys2Proof/Machine/Filter.lean ====
section
/-! DEFINITION. The filter reversal unit (42_filter.md): the function of R150 to R155 and `FLT.ROW`. -/

namespace Sys2Proof.Machine

/-- `paeth(a, b, c)` (R154), over exact integers. -/
def paeth (a b c : Byte) : Byte :=
  let p : Int := (a.toNat : Int) + b.toNat - c.toNat
  let pa := (p - a.toNat).natAbs
  let pb := (p - b.toNat).natAbs
  let pc := (p - c.toNat).natAbs
  if pa ≤ pb ∧ pa ≤ pc then a
  else if pb ≤ pc then b
  else c

/-- The predictor that filter type `ft` adds to `x[i]` (R153): the inner sum of Average is exact. Types
above 4 never reach it (R156). -/
def predictor (ft : Nat) (a b c : Byte) : Byte :=
  match ft with
  | 0 => 0
  | 1 => a
  | 2 => b
  | 3 => BitVec.ofNat 8 ((a.toNat + b.toNat) / 2)
  | _ => paeth a b c

/-- The rest of the reconstruction once `R[0 .. i-1]` is known: `done` is that prefix, latest byte first,
so `R[i - FU]` is its entry `FU - 1`, absent exactly when `i < FU` (R152). A missing previous row is the
empty list, which reads 0 everywhere. -/
def unfilterFrom (ft fu : Nat) (prev : List Byte) : List Byte → List Byte → List Byte
  | [], done => done.reverse
  | x :: xs, done =>
    let i := done.length
    let a := done.getD (fu - 1) 0
    let b := prev.getD i 0
    let c := if fu ≤ i then prev.getD (i - fu) 0 else 0
    unfilterFrom ft fu prev xs ((x + predictor ft a b c) :: done)

/-- `unfilter(ft, x, prev, FU)` (R155); `prev = none` is "no previous row". -/
def unfilter (ft : Nat) (x : List Byte) (prev : Option (List Byte)) (fu : Nat) : List Byte :=
  unfilterFrom ft fu (prev.getD []) x []

/-- `FLT.ROW` from its line `s = SRC_ADDR` on (R156); `.error` is the state after a `raise`. -/
def filterRow (s : State) : Except State State :=
  let n := s.regs.format.rowBytes s.regs.passW.toNat
  let a := s.regs.srcAddr.toNat
  if s.rlim < a + 1 + n then .error (s.raise .bounds a) else
  let ft := (s.byteAt a).toNat
  if 4 < ft then .error (s.raise .invalidFilter a) else
  let sel := s.regs.status.lsel
  let prev := if s.regs.status.prevValid then some (s.lineBytes sel n) else none
  let out := unfilter ft (s.bytesAt (a + 1) n) prev s.regs.format.filterUnit
  let t := s.storeLine (!sel) out
  .ok { t with regs := { (t.regs.setLsel (!sel)).setPrevValid true with
    rowAddr := word a
    row := word (s.regs.row.toNat + 1)
    srcAddr := word (a + 1 + n) } }

/-- `FLT.ROW` (R156). -/
def execFltRow (s : State) : Result :=
  if !s.regs.cfgLegal then .next (s.raise .cfg 0) else
  if s.regs.passW = 0 ∨ s.regs.passH.toNat ≤ s.regs.row.toNat then .next (s.raise .seq 0) else
  if s.params.maxRowBytes < s.regs.format.rowBytes s.regs.passW.toNat then .next (s.raise .range 0) else
  match filterRow s with
  | .ok t => .next t
  | .error t => .next t

end Sys2Proof.Machine
end

