-- ==== Sys2Proof/Machine/Unpack.lean ====
section
/-! DEFINITION. The pixel unpacker (44_unpack.md): the function of R190 to R204 and `PXU.ROW`. -/

namespace Sys2Proof.Machine

/-- `expand(v, d)` of a grey sample below 8 bits (R193). -/
def expandGrey (v : Channel) (d : Nat) : Channel := BitVec.ofNat 16 (v.toNat * 255 / (2 ^ d - 1))

/-- `AMAX`, the opaque alpha before any reduction (R192). -/
def Format.opaqueAlpha (f : Format) : Channel := if f.bitDepth.toNat = 16 then 65535 else 255

/-- Colour type 0 (R196): the raw sample is compared with all 16 bits of the key. -/
def unpackGrey (r : Regs) (row : List Byte) (k : Nat) : Pixel :=
  let d := r.format.bitDepth.toNat
  let v := r.format.sample row k 0
  let a := if r.ctrl.trnsEn ∧ v = r.trnsKey0 then 0 else r.format.opaqueAlpha
  let g := if d < 8 then expandGrey v d else v
  { r := g, g := g, b := g, a := a }

/-- Colour type 2 (R197): transparent only when all three samples equal their keys. -/
def unpackRgb (r : Regs) (row : List Byte) (k : Nat) : Pixel :=
  let cr := r.format.sample row k 0
  let cg := r.format.sample row k 1
  let cb := r.format.sample row k 2
  let a := if r.ctrl.trnsEn ∧ cr = r.trnsKey0 ∧ cg = r.trnsKey1 ∧ cb = r.trnsKey2 then 0
    else r.format.opaqueAlpha
  { r := cr, g := cg, b := cb, a := a }

/-- The alpha of palette entry `i`: `ALPHA[i]` below `TRNS_COUNT`, else 255 (R198; `alpha_of` of
45_pack.md R222). -/
def State.alphaOf (s : State) (i : Nat) : Byte :=
  if i < s.regs.trnsCount.toNat then s.alphaAt i else 255

/-- Colour type 3 (R198): `none` when the index is not below `PLTE_COUNT`. -/
def unpackIndexed (s : State) (row : List Byte) (k : Nat) : Option Pixel :=
  let i := (s.regs.format.sample row k 0).toNat
  if s.regs.plteCount.toNat ≤ i then none else
  let e := s.paletteAt i
  some { r := (e.extractLsb' 16 8).setWidth 16, g := (e.extractLsb' 8 8).setWidth 16,
         b := (e.extractLsb' 0 8).setWidth 16, a := (s.alphaOf i).setWidth 16 }

/-- Colour type 4 (R199). -/
def unpackGreyAlpha (r : Regs) (row : List Byte) (k : Nat) : Pixel :=
  let g := r.format.sample row k 0
  { r := g, g := g, b := g, a := r.format.sample row k 1 }

/-- Colour type 6 (R200). -/
def unpackRgba (r : Regs) (row : List Byte) (k : Nat) : Pixel where
  r := r.format.sample row k 0
  g := r.format.sample row k 1
  b := r.format.sample row k 2
  a := r.format.sample row k 3

/-- The pixel by colour type, before any reduction. Defined only when `cfg_legal` (R204), so the last arm
is colour type 6 (log 13). -/
def unpackByType (s : State) (row : List Byte) (k : Nat) : Option Pixel :=
  match s.regs.format.colorType.toNat with
  | 0 => some (unpackGrey s.regs row k)
  | 2 => some (unpackRgb s.regs row k)
  | 3 => unpackIndexed s row k
  | 4 => some (unpackGreyAlpha s.regs row k)
  | _ => some (unpackRgba s.regs row k)

/-- The `force32` reduction `x >> 8` of a 16-bit image (R203). -/
def Regs.reduce (r : Regs) (p : Pixel) : Pixel :=
  if r.format.bitDepth.toNat = 16 ∧ r.ctrl.force32 then p.map (· >>> 8) else p

/-- `unpack_pixel(row, k)` (R204); `none` is `ERR_PALETTE_INDEX_OOR`. -/
def unpackPixel (s : State) (row : List Byte) (k : Nat) : Option Pixel :=
  (unpackByType s row k).map s.regs.reduce

/-- The `n` pixels from number `k` on; `.error j` when pixel `j` is the first out of range. -/
def unpackFrom (s : State) (row : List Byte) (k : Nat) : Nat → Except Nat (List Pixel)
  | 0 => .ok []
  | n + 1 =>
    match unpackPixel s row k with
    | none => .error k
    | some px =>
      match unpackFrom s row (k + 1) n with
      | .error j => .error j
      | .ok pxs => .ok (px :: pxs)

/-- The PIX index of pixel `k` of the row `PXU.ROW` unpacks (R205, R175). -/
def Regs.rowPixIndex (r : Regs) (k : Nat) : Nat :=
  r.pixIndex (gridX r.pass.toNat k) (gridY r.pass.toNat (r.row.toNat - 1))

/-- The pixels from number `k` on written to PIX. -/
def State.storePixels (s : State) (k : Nat) : List Pixel → State
  | [] => s
  | px :: pxs => State.storePixels (s.storeCells (s.regs.rowPixIndex k) px.cells) (k + 1) pxs

/-- The cells of the row's `n` pixels from number `k` on, all from draw `d` (U3). -/
def State.drawRowFrom (s : State) (d k : Nat) : Nat → State
  | 0 => s
  | n + 1 =>
    let i := s.regs.rowPixIndex k
    State.drawRowFrom
      (s.storeCells i ((List.range 4).map (fun c => Config.freeCell d (i + c)))) d (k + 1) n

/-- The `4 * PASS_W` cells the row addresses take the values of a fresh draw (U3, R205). -/
def State.drawRow (s : State) : State :=
  { s.drawRowFrom s.draws 0 s.regs.passW.toNat with draws := s.draws + 1 }

/-- The BYTE address of the byte that holds the index of pixel `k` (R198, 60_exceptions.md R252). -/
def Regs.indexByteAddr (r : Regs) (k : Nat) : Nat :=
  r.rowAddr.toNat + 1 + k * r.format.bitDepth.toNat / 8

/-- `PXU.ROW` from its line `row = LB[LSEL]...` on (R205); `.error k` when pixel `k` is the first whose
index is out of range. -/
def unpackRow (s : State) : Except Nat State :=
  let n := s.regs.passW.toNat
  let row := s.lineBytes s.regs.status.lsel (s.regs.format.rowBytes n)
  match unpackFrom s row 0 n with
  | .error k => .error k
  | .ok pxs => .ok (s.storePixels 0 pxs)

/-- `PXU.ROW` (R205). -/
def execPxuRow (s : State) : Result :=
  if !s.regs.cfgLegal then .next (s.raise .cfg 0) else
  if !s.regs.status.prevValid then .next (s.raise .seq 0) else
  if !s.imageFits then .next (s.raise .bounds 0) else
  match unpackRow s with
  | .ok t => .next t
  | .error k => .next (s.drawRow.raise .paletteIndexOor (s.regs.indexByteAddr k))

end Sys2Proof.Machine
end

