-- ==== Sys2Proof/Machine/DecodeImage.lean ====
section
/-! DEFINITION. The composite command `DEC.IMG` (46_decode_image.md). -/

namespace Sys2Proof.Machine

/-- One row of the loop of R241: `FLT.ROW` from `s = SRC_ADDR` on, then `PXU.ROW` from
`row = LB[LSEL]...` on. `.error` is the halted state, PIX aside. -/
def decodeRow (s : State) : Except State State :=
  match filterRow s with
  | .error t => .error t
  | .ok t =>
    match unpackRow t with
    | .ok u => .ok u
    | .error k => .error (t.raise .paletteIndexOor (t.regs.indexByteAddr k))

/-- `n` rows of the current pass. -/
def decodeRows (s : State) : Nat → Except State State
  | 0 => .ok s
  | n + 1 =>
    match decodeRow s with
    | .error t => .error t
    | .ok t => decodeRows t n

/-- One pass: select it, then its rows, none when it is empty ("skipped entirely"). -/
def decodePass (s : State) (p : Nat) : Except State State :=
  let t := s.selectPass p
  if t.regs.passW = 0 ∨ t.regs.passH = 0 then .ok t else decodeRows t t.regs.passH.toNat

/-- The passes in order. -/
def decodePasses (s : State) : List Nat → Except State State
  | [] => .ok s
  | p :: ps =>
    match decodePass s p with
    | .error t => .error t
    | .ok t => decodePasses t ps

/-- Some pass that is not empty has rows longer than a line buffer (R241). -/
def State.someRowTooLong (s : State) : Bool :=
  s.regs.format.passes.any (fun p =>
    decide (0 < passWidth p s.regs.width.toNat) && decide (0 < passHeight p s.regs.height.toNat) &&
    decide (s.params.maxRowBytes < s.regs.format.rowBytes (passWidth p s.regs.width.toNat)))

/-- `DEC.IMG` (R241). After a fault in the loop every cell of the image is unspecified (U3). -/
def execDecImg (s : State) : Result :=
  if !s.regs.cfgLegal then .next (s.raise .cfg 0) else
  let len := s.regs.expectedLen
  if 2 ^ 32 ≤ len then .next (s.raise .range 0) else
  if s.someRowTooLong then .next (s.raise .range 0) else
  let t := { s with regs := { s.regs with expLen := word len } }
  let s0 := s.regs.srcAddr.toNat
  if s.regs.srcLen.toNat < len then .next (t.raise .truncatedIdat s0) else
  if len < s.regs.srcLen.toNat then .next (t.raise .excessIdat s0) else
  if s.rlim < s0 + len then .next (t.raise .bounds s0) else
  if !s.imageFits then .next (t.raise .bounds 0) else
  match decodePasses t s.regs.format.passes with
  | .ok u => .next u
  | .error u => .next (u.drawCells 0 u.regs.imageCells)

end Sys2Proof.Machine
end

