-- ==== Sys2Proof/Machine/Pack.lean ====
section
/-! DEFINITION. The pixel packer (45_pack.md): the function of R220 to R222 and the commands `PXP.ROW`,
`PXP.IMG`. -/

namespace Sys2Proof.Machine

/-- One sample as bytes: one byte at depth 8, two at depth 16, high byte first (R222). At depth 8 the
upper bits of the cell are ignored (20_memory.md R62). -/
def Format.sampleBytes (f : Format) (v : Channel) : List Byte :=
  if f.bitDepth.toNat = 16 then [v.extractLsb' 8 8, v.extractLsb' 0 8] else [v.extractLsb' 0 8]

/-- The lowest of the `n` palette entries from `i` on that is exactly (`rgb`, `a`) (R222). -/
def State.findEntry (s : State) (rgb : BitVec 24) (a : Byte) (i : Nat) : Nat → Option Nat
  | 0 => none
  | n + 1 =>
    if s.paletteAt i = rgb ∧ s.alphaOf i = a then some i else State.findEntry s rgb a (i + 1) n

/-- `pack_pixel(x, y)` as bytes (R222); `none` is `ERR_PALETTE_MISS`. Used only when `pack_legal`, so the
last arm is colour type 6 (log 13). -/
def packPixel (s : State) (x y : Nat) : Option (List Byte) :=
  let f := s.regs.format
  let i := s.regs.pixIndex x y
  let r := s.cellAt i
  let g := s.cellAt (i + 1)
  let b := s.cellAt (i + 2)
  let a := s.cellAt (i + 3)
  match f.colorType.toNat with
  | 0 => some (f.sampleBytes r)
  | 2 => some (f.sampleBytes r ++ f.sampleBytes g ++ f.sampleBytes b)
  | 3 =>
    (s.findEntry (r.extractLsb' 0 8 ++ g.extractLsb' 0 8 ++ b.extractLsb' 0 8) (a.extractLsb' 0 8)
      0 s.regs.plteCount.toNat).map (fun e => [BitVec.ofNat 8 e])
  | 4 => some (f.sampleBytes r ++ f.sampleBytes a)
  | _ => some (f.sampleBytes r ++ f.sampleBytes g ++ f.sampleBytes b ++ f.sampleBytes a)

/-- The bytes of `n` pixels of image row `y` from column `x` on; `.error j` when the pixel in column `j`
is the first with no palette entry. -/
def packFrom (s : State) (y x : Nat) : Nat → Except Nat (List Byte)
  | 0 => .ok []
  | n + 1 =>
    match packPixel s x y with
    | none => .error x
    | some bs =>
      match packFrom s y (x + 1) n with
      | .error j => .error j
      | .ok rest => .ok (bs ++ rest)

/-- `fb` as a number of bytes. -/
def Regs.filterBytes (r : Regs) : Nat := if r.ctrl.pkFb then 1 else 0

/-- `fb + n`, the bytes one packed row takes (R223). -/
def Regs.packedRowBytes (r : Regs) : Nat := r.filterBytes + r.format.rowBytes r.width.toNat

/-- `PXP.ROW` from its line `out = empty` on, for row `PK_Y` (R223); `.error i` when the pixel at PIX
index `i` is the first with no palette entry. The filter byte is 0, None. -/
def packRow (s : State) : Except Nat State :=
  let y := s.regs.pkY.toNat
  let t := s.regs.dstAddr.toNat
  match packFrom s y 0 s.regs.width.toNat with
  | .error x => .error (s.regs.pixIndex x y)
  | .ok out =>
    let u := s.storeBytes t (List.replicate s.regs.filterBytes 0 ++ out)
    .ok { u with regs := { u.regs with
      dstAddr := word (t + s.regs.packedRowBytes)
      pkY := word (y + 1) } }

/-- `n` rows, each packed by the body of `PXP.ROW`; `.error (t, i)` when the row that starts in state `t`
misses at PIX index `i`. -/
def packRows (s : State) : Nat → Except (State × Nat) State
  | 0 => .ok s
  | n + 1 =>
    match packRow s with
    | .error i => .error (s, i)
    | .ok t => packRows t n

/-- `PXP.ROW` (R223). After a miss the row's `fb + n` bytes are unspecified (U3). -/
def execPxpRow (s : State) : Result :=
  let t := s.regs.dstAddr.toNat
  if !s.regs.packLegal then .next (s.raise .cfg 0) else
  if s.regs.height.toNat ≤ s.regs.pkY.toNat then .next (s.raise .operand 0) else
  if !s.imageFits then .next (s.raise .bounds 0) else
  if s.params.byteSize < t + s.regs.packedRowBytes then .next (s.raise .bounds t) else
  match packRow s with
  | .ok u => .next u
  | .error i => .next ((s.drawBytes t s.regs.packedRowBytes).raise .paletteMiss i)

/-- `PXP.IMG` (R226). After a miss the bytes of the failing row and of the rows after it are unspecified
(U3). -/
def execPxpImg (s : State) : Result :=
  let t := s.regs.dstAddr.toNat
  let h := s.regs.height.toNat
  let total := h * s.regs.packedRowBytes
  if !s.regs.packLegal then .next (s.raise .cfg 0) else
  if !s.imageFits then .next (s.raise .bounds 0) else
  if s.params.byteSize < t + total then .next (s.raise .bounds t) else
  match packRows { s with regs := { s.regs with pkY := 0 } } h with
  | .ok u => .next u
  | .error (u, i) =>
    let d := u.regs.dstAddr.toNat
    .next ((u.drawBytes d (t + total - d)).raise .paletteMiss i)

end Sys2Proof.Machine
end

