-- ==== Sys2Proof/Machine/Dispatch.lean ====
section
/-! DEFINITION. One arm per command: what executing it does. -/

namespace Sys2Proof.Machine

/-- Execute one command of a block that is not halted (30_encoding.md R93). -/
def exec (i : Instr) (s : State) : Host.Outcome State Fault Refusal :=
  match i with
  | .nop => Sys2Proof.Machine.execNop s
  | .ctlRst => Sys2Proof.Machine.execCtlRst s
  | .ctlWclr => Sys2Proof.Machine.execCtlWclr s
  | .crcInit => Sys2Proof.Machine.execCrcInit s
  | .crcByte imm8 => Sys2Proof.Machine.execCrcByte imm8 s
  | .crcBuf => Sys2Proof.Machine.execCrcBuf s
  | .crcChk => Sys2Proof.Machine.execCrcChk s
  | .crcChkm => Sys2Proof.Machine.execCrcChkm s
  | .crcChunk => Sys2Proof.Machine.execCrcChunk s
  | .fltRow => Sys2Proof.Machine.execFltRow s
  | .a7Pass p => Sys2Proof.Machine.execA7Pass p s
  | .a7Map => Sys2Proof.Machine.execA7Map s
  | .a7Len => Sys2Proof.Machine.execA7Len s
  | .pxuRow => Sys2Proof.Machine.execPxuRow s
  | .pxpRow => Sys2Proof.Machine.execPxpRow s
  | .pxpImg => Sys2Proof.Machine.execPxpImg s
  | .decImg => Sys2Proof.Machine.execDecImg s

end Sys2Proof.Machine
end

