-- ==== Sys2Proof/Machine/Port.lean ====
section
/-! DEFINITION. The register port and the other host actions (10_state.md R23, R29; 30_encoding.md R95;
60_exceptions.md R255; 70_reset_and_hazards.md R300). -/

namespace Sys2Proof.Machine

/-- The registers from offset 0x000 to 0x08C, one every 4 bytes (R23). -/
def lowRegs : List Reg :=
  [.cmd, .status, .errcode, .erraddr, .ctrl, .width, .height, .format,
   .srcAddr, .srcLen, .dstAddr, .inEnd,
   .crcAcc, .crcResult, .crcExpect, .warnAddr, .warnCnt, .chunkLen, .chunkType,
   .trnsKey0, .trnsKey1, .trnsKey2, .plteCount, .trnsCount,
   .pass, .passW, .passH, .row, .rowAddr, .a7Col, .a7Row, .mapX, .mapY, .mapIdx, .expLen, .pkY]

/-- The register at port offset `off`, a multiple of 4; `none` where R23 maps nothing. -/
def regAt (off : Nat) : Option Reg :=
  if off < 0x400 then lowRegs[off / 4]?
  else if off < 0x800 then some (.plte (BitVec.ofNat 8 ((off - 0x400) / 4)))
  else if off < 0xC00 then some (.alpha (BitVec.ofNat 8 ((off - 0x800) / 4)))
  else none

/-- An offset the port can carry: a multiple of 4 in 0x000 .. 0xFFC (R95). -/
def portOffset (off : Nat) : Bool := decide (off % 4 = 0) && decide (off ≤ 0xFFC)

/-- The word a read of a register returns: the implemented bits, zero-extended; `CMD` reads 0 and
`CRC_RESULT` is computed (R23, R36, R95). -/
def State.readReg (s : State) : Reg → Word
  | .cmd => 0
  | .status => s.regs.status.toWord
  | .errcode => s.regs.errcode.setWidth 32
  | .erraddr => s.regs.erraddr
  | .ctrl => s.regs.ctrl.toWord
  | .width => s.regs.width
  | .height => s.regs.height
  | .format => s.regs.format.toWord
  | .srcAddr => s.regs.srcAddr
  | .srcLen => s.regs.srcLen
  | .dstAddr => s.regs.dstAddr
  | .inEnd => s.regs.inEnd
  | .crcAcc => s.regs.crcAcc
  | .crcResult => s.regs.crcResult
  | .crcExpect => s.regs.crcExpect
  | .warnAddr => s.regs.warnAddr
  | .warnCnt => s.regs.warnCnt
  | .chunkLen => s.regs.chunkLen
  | .chunkType => s.regs.chunkType
  | .trnsKey0 => s.regs.trnsKey0.setWidth 32
  | .trnsKey1 => s.regs.trnsKey1.setWidth 32
  | .trnsKey2 => s.regs.trnsKey2.setWidth 32
  | .plteCount => s.regs.plteCount.setWidth 32
  | .trnsCount => s.regs.trnsCount.setWidth 32
  | .pass => s.regs.pass.setWidth 32
  | .passW => s.regs.passW
  | .passH => s.regs.passH
  | .row => s.regs.row
  | .rowAddr => s.regs.rowAddr
  | .a7Col => s.regs.a7Col
  | .a7Row => s.regs.a7Row
  | .mapX => s.regs.mapX
  | .mapY => s.regs.mapY
  | .mapIdx => s.regs.mapIdx
  | .expLen => s.regs.expLen
  | .pkY => s.regs.pkY
  | .plte i => (s.paletteAt i.toNat).setWidth 32
  | .alpha i => (s.alphaAt i.toNat).setWidth 32

/-- `RegRead(off)`: an unmapped offset reads 0 (R23). -/
def State.regRead (s : State) (off : Nat) : Word :=
  match regAt off with
  | some r => s.readReg r
  | none => 0

/-- The side effect of writing a format register (R29). -/
def Regs.invalidatePass (r : Regs) : Regs :=
  { r.setPrevValid false with pass := 0, passW := 0, passH := 0, row := 0 }

/-- A host write to a register other than `CMD`: a RW register stores its implemented bits, an RO
register ignores the write (R23, R95). -/
def State.writeReg (s : State) (v : Word) : Reg → State
  | .ctrl => { s with regs := { s.regs with ctrl := Ctrl.ofWord v } }
  | .width => { s with regs := { s.regs.invalidatePass with width := v } }
  | .height => { s with regs := { s.regs.invalidatePass with height := v } }
  | .format => { s with regs := { s.regs.invalidatePass with format := Format.ofWord v } }
  | .srcAddr => { s with regs := { s.regs with srcAddr := v } }
  | .srcLen => { s with regs := { s.regs with srcLen := v } }
  | .dstAddr => { s with regs := { s.regs with dstAddr := v } }
  | .inEnd => { s with regs := { s.regs with inEnd := v } }
  | .crcExpect => { s with regs := { s.regs with crcExpect := v } }
  | .trnsKey0 => { s with regs := { s.regs with trnsKey0 := v.setWidth 16 } }
  | .trnsKey1 => { s with regs := { s.regs with trnsKey1 := v.setWidth 16 } }
  | .trnsKey2 => { s with regs := { s.regs with trnsKey2 := v.setWidth 16 } }
  | .plteCount => { s with regs := { s.regs with plteCount := v.setWidth 9 } }
  | .trnsCount => { s with regs := { s.regs with trnsCount := v.setWidth 9 } }
  | .a7Col => { s with regs := { s.regs with a7Col := v } }
  | .a7Row => { s with regs := { s.regs with a7Row := v } }
  | .pkY => { s with regs := { s.regs with pkY := v } }
  | .plte i => { s with plte := Memory.write s.plte i.toNat (v.setWidth 24) }
  | .alpha i => { s with alpha := Memory.write s.alpha i.toNat (v.setWidth 8) }
  | .cmd | .status | .errcode | .erraddr | .crcAcc | .crcResult | .warnAddr | .warnCnt
  | .chunkLen | .chunkType | .pass | .passW | .passH | .row | .rowAddr
  | .mapX | .mapY | .mapIdx | .expLen => s

/-- `RegWrite(off, v)` at an offset other than `CMD`'s: an unmapped offset ignores the write (R23). -/
def State.regWrite (s : State) (off : Nat) (v : Word) : State :=
  match regAt off with
  | some r => s.writeReg v r
  | none => s

/-- The exact word that a halted block still executes (R255). -/
def resetCommandWord : Word := 0x01000000

/-- A write of `w` to `CMD`: halted, it is discarded unless it is the exact word of `CTL.RST` (R255);
not halted, it is a command, or illegal (30_encoding.md R94). -/
def commandWrite (w : Word) (s : State) : Result :=
  if s.regs.status.err then
    if w = resetCommandWord then exec .ctlRst s else .next s
  else
    match decodeWord w with
    | .ok i => exec i s
    | .error _ => .next (s.raise .illegalCmd w.toNat)

/-- What a host read gives back joins the host's log (R95; log 7). A read changes nothing else
(20_memory.md R71). -/
def State.logRead (s : State) (v : Word) : State := { s with readLog := v :: s.readLog }

/-- One host action (R300). An access the spec gives no step is refused by name (U5; log 8). -/
def hostStep (act : HostAction) (s : State) : Result :=
  match act with
  | .regWrite off v =>
    if !portOffset off then .refused (.noSuchRegOffset off)
    else if off = 0 then commandWrite v s
    else .next (s.regWrite off v)
  | .regRead off =>
    if !portOffset off then .refused (.noSuchRegOffset off)
    else .next (s.logRead (s.regRead off))
  | .byteWrite a v =>
    if a < s.params.byteSize then .next (s.storeBytes a [v]) else .refused (.noSuchByteAddress a)
  | .byteRead a =>
    if a < s.params.byteSize then .next (s.logRead ((s.byteAt a).setWidth 32))
    else .refused (.noSuchByteAddress a)
  | .pixWrite i v =>
    if i < s.params.pixSize then .next (s.storeCells i [v]) else .refused (.noSuchPixIndex i)
  | .pixRead i =>
    if i < s.params.pixSize then .next (s.logRead ((s.cellAt i).setWidth 32))
    else .refused (.noSuchPixIndex i)
  | .hwReset => .next s.hardReset

/-- One step of a run (R301): the host's next action. When the host has none left the run is over and the
state stays as it is (log 6). -/
def runStep (s : State) : Result :=
  match s.script with
  | [] => .next s
  | act :: rest => hostStep act { s with script := rest }

/-- `s` with a command write of `w` as the host's next action (log 6). -/
def State.withCommand (s : State) (w : Word) : State :=
  { s with script := .regWrite 0 w :: s.script }

end Sys2Proof.Machine
end

