-- ==== Sys2Proof/Machine/Step.lean ====
section
/-! DEFINITION. The step function: one host action (70_reset_and_hazards.md R301). -/

namespace Sys2Proof.Machine

/-- One step of the machine. -/
def step (s : State) : Host.Outcome State Fault Refusal := runStep s

/-- `s` with the command of a table row as the host's next action: a `RegWrite` of the word to `CMD`, which
is how the block is given a command (30_encoding.md R90, R95; log 6). -/
def State.withFetchWord (s : State) (nbits w : Nat) : State := s.withCommand (tableWord nbits w)

end Sys2Proof.Machine
end

