-- ==== Sys2Proof/Safety.lean ====
section
/-! DEFINITION. The terms the statements use: when a run went wrong (70_reset_and_hazards.md R301), what a
step leaves unchanged, what taking a fault is (60_exceptions.md R253), what a CRC check does, the
invariant of the machine, and the spec's formulas where a statement compares the machine with them. -/

namespace Sys2Proof.Machine

/-- The block is halted; a run that ends so "went wrong" (R301). -/
def State.halted (s : State) : Bool := s.regs.status.err

/-! ## What a step leaves unchanged -/

/-- Every word of the register port reads as before, except at the offsets `offs`. The port covers all
registers of 10_state.md R23 and both RAMs. -/
def SamePort (offs : List Nat) (s t : State) : Prop :=
  ∀ off, portOffset off = true → off ∉ offs → t.regRead off = s.regRead off

/-- Every byte of BYTE reads as before. -/
def SameBytes (s t : State) : Prop := ∀ a, t.byteAt a = s.byteAt a

/-- Every cell of PIX reads as before. -/
def SameCells (s t : State) : Prop := ∀ i, t.cellAt i = s.cellAt i

/-- Every byte of both line buffers reads as before. -/
def SameLines (s t : State) : Prop := ∀ sel i, t.lineAt sel i = s.lineAt sel i

/-- The parameters, the host's script and log, and the launch draw are as before. -/
def SameRun (s t : State) : Prop :=
  t.params = s.params ∧ t.script = s.script ∧ t.readLog = s.readLog ∧ t.launch = s.launch

/-- Nothing changed but the port words at `offs`. -/
def OnlyPort (offs : List Nat) (s t : State) : Prop :=
  SamePort offs s t ∧ SameBytes s t ∧ SameCells s t ∧ SameLines s t ∧ SameRun s t

/-- `t` is `s` after taking a fault with code `code` and recorded value `info`, and nothing else (R253):
`STATUS.ERR` is set and no other flag changes, `ERRCODE` (0x008) and `ERRADDR` (0x00C) are written. -/
def FaultTaken (s t : State) (code info : Nat) : Prop :=
  t.regs.status = { s.regs.status with err := true } ∧
  t.regRead 0x008 = word code ∧ t.regRead 0x00C = word info ∧
  OnlyPort [0x004, 0x008, 0x00C] s t

/-- What the port reads, by offset, of the registers of R23 below the RAMs: each number is built from the
fields that the commands use, the flags and fields of `STATUS`, `CTRL` and `FORMAT` at the bit places of
R24, R25 and R27. `CMD` reads 0, and `CRC_RESULT` is the complement of `CRC_ACC` (R36). -/
def Regs.portFields (r : Regs) : List (Nat × Nat) :=
  [(0x000, 0),
   (0x004, r.status.err.toNat + 2 * r.status.wCrc.toNat + 4 * r.status.crcOk.toNat +
     8 * r.status.prevValid.toNat + 16 * r.status.lsel.toNat),
   (0x008, r.errcode.toNat), (0x00C, r.erraddr.toNat),
   (0x010, r.ctrl.strict.toNat + 2 * r.ctrl.force32.toNat + 4 * r.ctrl.trnsEn.toNat +
     8 * r.ctrl.pkFb.toNat),
   (0x014, r.width.toNat), (0x018, r.height.toNat),
   (0x01C, r.format.bitDepth.toNat + 2 ^ 8 * r.format.colorType.toNat +
     2 ^ 16 * r.format.interlace.toNat),
   (0x020, r.srcAddr.toNat), (0x024, r.srcLen.toNat), (0x028, r.dstAddr.toNat), (0x02C, r.inEnd.toNat),
   (0x030, r.crcAcc.toNat), (0x034, 0xFFFFFFFF - r.crcAcc.toNat), (0x038, r.crcExpect.toNat),
   (0x03C, r.warnAddr.toNat), (0x040, r.warnCnt.toNat),
   (0x044, r.chunkLen.toNat), (0x048, r.chunkType.toNat),
   (0x04C, r.trnsKey0.toNat), (0x050, r.trnsKey1.toNat), (0x054, r.trnsKey2.toNat),
   (0x058, r.plteCount.toNat), (0x05C, r.trnsCount.toNat),
   (0x060, r.pass.toNat), (0x064, r.passW.toNat), (0x068, r.passH.toNat), (0x06C, r.row.toNat),
   (0x070, r.rowAddr.toNat), (0x074, r.a7Col.toNat), (0x078, r.a7Row.toNat),
   (0x07C, r.mapX.toNat), (0x080, r.mapY.toNat), (0x084, r.mapIdx.toNat),
   (0x088, r.expLen.toNat), (0x08C, r.pkY.toNat)]

/-- The offsets of the read-only registers of R23. -/
def readOnlyOffsets : List Nat :=
  [0x004, 0x008, 0x00C, 0x030, 0x034, 0x03C, 0x040, 0x044, 0x048, 0x060, 0x064, 0x068, 0x06C, 0x070,
   0x07C, 0x080, 0x084, 0x088]

/-! ## The spec's formulas -/

/-- `BE32(a)` as a number (00_scope.md R11). -/
def State.be32Value (s : State) (a : Nat) : Nat :=
  (s.byteAt a).toNat * 2 ^ 24 + (s.byteAt (a + 1)).toNat * 2 ^ 16 + (s.byteAt (a + 2)).toNat * 2 ^ 8 +
    (s.byteAt (a + 3)).toNat

/-- The port words at the offsets `offs` read as before. -/
def SameAt (offs : List Nat) (s t : State) : Prop := ∀ off ∈ offs, t.regRead off = s.regRead off

/-- What a CRC check of `computed` against `stored` does to the flags, the fault registers (0x008, 0x00C)
and the warning registers (0x03C, 0x040), from `s` to `t`, `off` the reported offset (41_crc.md R136,
60_exceptions.md R262): equal, `CRC_OK`; else in lenient mode a warning; else in strict mode `ERR_CRC`. -/
def CheckVerdict (s t : State) (computed stored : Word) (off : Nat) : Prop :=
  (computed = stored →
    t.regs.status = { s.regs.status with crcOk := true } ∧ SameAt [0x008, 0x00C, 0x03C, 0x040] s t) ∧
  (computed ≠ stored → s.regs.ctrl.strict = false →
    t.regs.status = { s.regs.status with crcOk := false, wCrc := true } ∧
    t.regRead 0x03C = word off ∧ t.regRead 0x040 = s.regRead 0x040 + 1 ∧ SameAt [0x008, 0x00C] s t) ∧
  (computed ≠ stored → s.regs.ctrl.strict = true →
    t.regs.status = { s.regs.status with crcOk := false, err := true } ∧
    t.regRead 0x008 = 0x11 ∧ t.regRead 0x00C = word off ∧ SameAt [0x03C, 0x040] s t)

/-- The reconstructed byte of 42_filter.md R153 as a number: `x` the filtered byte, `a`, `b`, `c` its
neighbours, the sum reduced modulo 256. -/
def reconstructed (ft : Nat) (x a b c : Byte) : Nat :=
  match ft with
  | 0 => x.toNat
  | 1 => (x.toNat + a.toNat) % 256
  | 2 => (x.toNat + b.toNat) % 256
  | 3 => (x.toNat + (a.toNat + b.toNat) / 2) % 256
  | _ => (x.toNat + (paeth a b c).toNat) % 256

/-- `4 * (y * WIDTH + x) + c` for the pixel in column `k` of the row that `PXU.ROW` unpacks, row `ROW - 1`
of pass `PASS` (44_unpack.md R205, 43_adam7.md R175). -/
def Regs.rowCell (r : Regs) (k c : Nat) : Nat :=
  4 * ((yStart r.pass.toNat + (r.row.toNat - 1) * yStride r.pass.toNat) * r.width.toNat +
    (xStart r.pass.toNat + k * xStride r.pass.toNat)) + c

/-- The row that `PXU.ROW` unpacks (R205). -/
def State.currentRow (s : State) : List Byte :=
  s.lineBytes s.regs.status.lsel (s.regs.format.rowBytes s.regs.passW.toNat)

/-- Bytes per pixel of a format of depth 8 or 16. -/
def Format.pixelBytes (f : Format) : Nat := f.bpp / 8

/-- The pass table of R170 written as rows `(xStart, yStart, xStride, yStride)`, pass 0 first. -/
def passTable : List (Nat × Nat × Nat × Nat) :=
  [(0, 0, 1, 1), (0, 0, 8, 8), (4, 0, 8, 8), (0, 4, 4, 8), (2, 0, 4, 4), (0, 2, 2, 4), (1, 0, 2, 2),
   (0, 1, 1, 2)]

/-- The pass that owns a grid position, by row `y mod 8` and column `x mod 8` (43_adam7.md R178). -/
def ownerPattern : List (List Nat) :=
  [[1, 6, 4, 6, 2, 6, 4, 6],
   [7, 7, 7, 7, 7, 7, 7, 7],
   [5, 6, 5, 6, 5, 6, 5, 6],
   [7, 7, 7, 7, 7, 7, 7, 7],
   [3, 6, 4, 6, 3, 6, 4, 6],
   [7, 7, 7, 7, 7, 7, 7, 7],
   [5, 6, 5, 6, 5, 6, 5, 6],
   [7, 7, 7, 7, 7, 7, 7, 7]]

/-! ## A whole image in the inflated stream (30_encoding.md R109, 43_adam7.md R173) -/

/-- Pass `p` holds a pixel (43_adam7.md R172). -/
def Regs.passNonempty (r : Regs) (p : Nat) : Prop :=
  0 < passWidth p r.width.toNat ∧ 0 < passHeight p r.height.toNat

/-- The scanlines of pass `p` in the stream: none for an empty pass. -/
def Regs.passRows (r : Regs) (p : Nat) : Nat :=
  if 0 < passWidth p r.width.toNat ∧ 0 < passHeight p r.height.toNat then passHeight p r.height.toNat
  else 0

/-- The BYTE address of the filter byte of row `row` of pass `p`, for a stream that starts at `SRC_ADDR`:
the earlier passes' bytes lie before it without a gap (46_decode_image.md R240). -/
def Regs.scanlineAddr (r : Regs) (p row : Nat) : Nat :=
  r.srcAddr.toNat + ((r.format.passes.takeWhile (fun q => q != p)).map r.passBytes).sum +
    row * (1 + r.format.rowBytes (passWidth p r.width.toNat))

/-- The reconstructed bytes of row `row` of pass `p` of that stream: its filtered bytes, unfiltered with
the row above in the same pass, none for row 0 (42_filter.md R152, R155). -/
def State.streamRow (s : State) (p : Nat) : Nat → List Byte
  | 0 =>
    unfilter (s.byteAt (s.regs.scanlineAddr p 0)).toNat
      (s.bytesAt (s.regs.scanlineAddr p 0 + 1) (s.regs.format.rowBytes (passWidth p s.regs.width.toNat)))
      none s.regs.format.filterUnit
  | row + 1 =>
    unfilter (s.byteAt (s.regs.scanlineAddr p (row + 1))).toNat
      (s.bytesAt (s.regs.scanlineAddr p (row + 1) + 1)
        (s.regs.format.rowBytes (passWidth p s.regs.width.toNat)))
      (some (State.streamRow s p row)) s.regs.format.filterUnit

/-- The checks `DEC.IMG` makes before its loop all pass (46_decode_image.md R241). -/
structure State.DecodeChecksPass (s : State) : Prop where
  cfg : s.regs.cfgLegal = true
  length : s.regs.expectedLen < 2 ^ 32
  rowsFit : ∀ p ∈ s.regs.format.passes, s.regs.passNonempty p →
    s.regs.format.rowBytes (passWidth p s.regs.width.toNat) ≤ s.params.maxRowBytes
  exactLength : s.regs.srcLen.toNat = s.regs.expectedLen
  inView : s.regs.srcAddr.toNat + s.regs.expectedLen ≤ s.rlim
  imageFits : 4 * s.regs.width.toNat * s.regs.height.toNat ≤ s.params.pixSize

/-- Every scanline of the stream has a filter type of 0..4 (30_encoding.md R108). -/
def State.FilterBytesValid (s : State) : Prop :=
  ∀ p ∈ s.regs.format.passes, ∀ row < s.regs.passRows p,
    (s.byteAt (s.regs.scanlineAddr p row)).toNat ≤ 4

/-- Every index of every pixel of the stream is in the palette (44_unpack.md R198); true of every stream
when the colour type is not 3. -/
def State.IndicesValid (s : State) : Prop :=
  ∀ p ∈ s.regs.format.passes, ∀ row < s.regs.passRows p,
    ∀ col < passWidth p s.regs.width.toNat,
      s.regs.format.colorType.toNat = 3 →
        (s.regs.format.sample (s.streamRow p row) col 0).toNat < s.regs.plteCount.toNat

/-- Row `row` of pass `p` raises nothing in the loop of `DEC.IMG`: its filter type is 0..4
(42_filter.md R156) and, for colour type 3, the index of each of its pixels is in the palette
(44_unpack.md R198). -/
def State.ScanlineValid (s : State) (p row : Nat) : Prop :=
  (s.byteAt (s.regs.scanlineAddr p row)).toNat ≤ 4 ∧
  (s.regs.format.colorType.toNat = 3 → ∀ k < passWidth p s.regs.width.toNat,
    (s.regs.format.sample (s.streamRow p row) k 0).toNat < s.regs.plteCount.toNat)

/-- Every scanline that lies before row `row` of pass `p` in the stream raises nothing (46_decode_image.md
R240, R241). -/
def State.ValidBefore (s : State) (p row : Nat) : Prop :=
  ∀ q ∈ s.regs.format.passes, ∀ r < s.regs.passRows q, q < p ∨ (q = p ∧ r < row) → s.ScanlineValid q r

/-- The scanlines of the passes that lie before pass `p`. -/
def Regs.rowsBefore (r : Regs) (p : Nat) : Nat :=
  ((r.format.passes.takeWhile (fun q => q != p)).map r.passRows).sum

/-- `t` is `s` after `DEC.IMG` halted in its loop with `rows` rows of pass `p` reconstructed, `SRC_ADDR` at
`src`, code `code` and recorded value `info` (46_decode_image.md R241, 60_exceptions.md R253, R254). The
image cells are unspecified (93_implementation_defined.md U3); no command reads a line buffer without
`PREV_VALID`, and none reads the buffer `LB[1 - LSEL]` (10_state.md R42). -/
structure State.HaltedAt (s t : State) (p rows src code info : Nat) : Prop where
  status : t.regs.status = { s.regs.status with
    err := true
    prevValid := decide (0 < rows)
    lsel := s.regs.status.lsel ^^ decide ((s.regs.rowsBefore p + rows) % 2 = 1) }
  errcode : (t.regRead 0x008).toNat = code
  erraddr : (t.regRead 0x00C).toNat = info
  srcAddr : (t.regRead 0x020).toNat = src
  pass : (t.regRead 0x060).toNat = p
  passW : (t.regRead 0x064).toNat = passWidth p s.regs.width.toNat
  passH : (t.regRead 0x068).toNat = passHeight p s.regs.height.toNat
  row : (t.regRead 0x06C).toNat = rows
  expLen : (t.regRead 0x088).toNat = s.regs.expectedLen
  /-- the latest reconstructed row is of this pass -/
  rowAddr : 0 < rows → (t.regRead 0x070).toNat = s.regs.scanlineAddr p (rows - 1)
  /-- it is the last of the nearest earlier pass `q` that is not empty -/
  rowAddrEarlier : rows = 0 → ∀ q ∈ s.regs.format.passes, q < p → 0 < s.regs.passRows q →
    (∀ q' ∈ s.regs.format.passes, q < q' → q' < p → s.regs.passRows q' = 0) →
    (t.regRead 0x070).toNat = s.regs.scanlineAddr q (s.regs.passRows q - 1)
  /-- no row was reconstructed -/
  rowAddrKept : s.regs.rowsBefore p + rows = 0 → t.regRead 0x070 = s.regRead 0x070
  line : 0 < rows →
    t.lineBytes t.regs.status.lsel (s.regs.format.rowBytes (passWidth p s.regs.width.toNat)) =
      s.streamRow p (rows - 1)
  outside : ∀ i, 4 * s.regs.width.toNat * s.regs.height.toNat ≤ i → t.cellAt i = s.cellAt i
  otherRegs : SamePort [0x004, 0x008, 0x00C, 0x020, 0x060, 0x064, 0x068, 0x06C, 0x070, 0x088] s t
  bytes : SameBytes s t
  run : SameRun s t

/-- The host script that decodes the same image with the unit commands (46_decode_image.md R243). -/
def Regs.unitScript (r : Regs) : List Instr :=
  r.format.passes.flatMap (fun p =>
    .a7Pass p :: (List.replicate (r.passRows p) [Instr.fltRow, Instr.pxuRow]).flatten)

/-- `k` steps of the machine, stopping at the first fault or refusal. -/
def runSteps : Nat → State → Result
  | 0, s => .next s
  | k + 1, s =>
    match step s with
    | .next t => runSteps k t
    | .fault f => .fault f
    | .refused r => .refused r

/-- The bits of the word at port offset `off` that a host write stores (10_state.md R23, R25, R27): 0 for
a read-only, write-only or unmapped offset. -/
def writableBits (off : Nat) : Word :=
  if off = 0x010 then 0xF
  else if off = 0x01C then 0x1071F
  else if off ∈ [0x014, 0x018, 0x020, 0x024, 0x028, 0x02C, 0x038, 0x074, 0x078, 0x08C] then 0xFFFFFFFF
  else if off ∈ [0x04C, 0x050, 0x054] then 0xFFFF
  else if off ∈ [0x058, 0x05C] then 0x1FF
  else if 0x400 ≤ off ∧ off < 0x800 then 0xFFFFFF
  else if 0x800 ≤ off ∧ off < 0xC00 then 0xFF
  else 0

/-- The format registers' offsets (10_state.md R29). -/
def formatOffsets : List Nat := [0x014, 0x018, 0x01C]

/-- The port words that a write of a format register changes besides its own: `STATUS`, `PASS`, `PASS_W`,
`PASS_H`, `ROW` (R29). -/
def invalidatedOffsets : List Nat := [0x004, 0x060, 0x064, 0x068, 0x06C]

/-! ## The invariant -/

/-- The memories are canonical and every listed address exists (20_memory.md R60, R61; 10_state.md R41,
R42). -/
structure State.MemoryOk (s : State) : Prop where
  params : s.params.legal = true
  byteWf : Memory.wf s.byteMem
  byteIn : ∀ c ∈ s.byteMem, c.1 < s.params.byteSize
  pixWf : Memory.wf s.pixMem
  pixIn : ∀ c ∈ s.pixMem, c.1 < s.params.pixSize
  plteWf : Memory.wf s.plte
  plteIn : ∀ c ∈ s.plte, c.1 < Config.plteEntries
  alphaWf : Memory.wf s.alpha
  alphaIn : ∀ c ∈ s.alpha, c.1 < Config.plteEntries
  lineWf : ∀ sel, Memory.wf (s.line sel)
  lineIn : ∀ sel, ∀ c ∈ s.line sel, c.1 < s.params.maxRowBytes

/-- The codes of 60_exceptions.md R251 that a fault can leave in `ERRCODE`. -/
def faultCodes : List (BitVec 8) :=
  [0x01, 0x02, 0x03, 0x04, 0x05, 0x06, 0x10, 0x11, 0x12, 0x20, 0x21, 0x22, 0x30, 0x31]

/-- `ERRCODE` and `ERRADDR` record a fault exactly while the block is halted (10_state.md R26), and there
is no warning offset or count without `W_CRC` (60_exceptions.md R262). -/
structure Regs.FlagsOk (r : Regs) : Prop where
  halted : r.status.err = true → r.errcode ∈ faultCodes
  running : r.status.err = false → r.errcode = 0 ∧ r.erraddr = 0
  noWarning : r.status.wCrc = false → r.warnAddr = 0 ∧ r.warnCnt = 0

/-- No pass is selected (10_state.md R29, R43). -/
def Regs.NoPass (r : Regs) : Prop :=
  r.pass = 0 ∧ r.passW = 0 ∧ r.passH = 0 ∧ r.row = 0 ∧ r.status.prevValid = false

/-- A pass of the present format is selected: its dimensions are those of 43_adam7.md R171, at most
`PASS_H` rows are done (10_state.md R38), and there is a previous row exactly when one is done, which then
fits the line buffers (R42, 44_unpack.md R205). -/
structure State.PassSelected (s : State) : Prop where
  width : 1 ≤ s.regs.width.toNat
  height : 1 ≤ s.regs.height.toNat
  format : s.regs.format.legalPair = true
  passW : s.regs.passW.toNat = passWidth s.regs.pass.toNat s.regs.width.toNat
  passH : s.regs.passH.toNat = passHeight s.regs.pass.toNat s.regs.height.toNat
  row : s.regs.row.toNat ≤ s.regs.passH.toNat
  prevValid : s.regs.status.prevValid = true ↔ 1 ≤ s.regs.row.toNat
  rowDone : 1 ≤ s.regs.row.toNat → 1 ≤ s.regs.passW.toNat ∧
    s.regs.format.rowBytes s.regs.passW.toNat ≤ s.params.maxRowBytes

/-- The invariant of the machine. -/
structure State.Inv (s : State) : Prop where
  memory : s.MemoryOk
  flags : s.regs.FlagsOk
  pass : s.regs.NoPass ∨ s.PassSelected
  draws : s.launch < s.draws

end Sys2Proof.Machine
end

