-- ==== Sys2Proof/Certificates/Slice0/Obligations.lean ====
section
/-! DEFINITION. The statements for the provers. Every one is about every state, so about every value of
the OPEN parameters and of every memory; none rests on a value the model chose. -/

open Sys2Proof Sys2Proof.Machine

/-! ## Encoding (30_encoding.md R90 to R94) -/

/-- Decoding an encoded command gives it back, for every command and every operand R91 admits. -/
def Obligations.DecodeOfEncodeIsTheCommand : Prop :=
  ∀ i : Instr, i.wellFormed = true → decodeWord (encode i) = .ok i

/-- A word decodes exactly when a row of the opcode map matches it under the row's mask (R92, R94), to a
well-formed command whose word it is: no bit of an accepted word is ignored. -/
def Obligations.DecodeAcceptsExactlyTheOpcodeMap : Prop :=
  ∀ w : Word,
    ((∃ i, decodeWord w = .ok i) ↔ ∃ r ∈ commandTable, w &&& r.1 = r.2) ∧
    (∀ i, decodeWord w = .ok i → i.wellFormed = true ∧ encode i = w)

/-- Words written out from R93's table decode to the commands they stand for. -/
def Obligations.WrittenOutWordsDecode : Prop :=
  decodeWord 0x00000000 = .ok .nop ∧ decodeWord 0x01000000 = .ok .ctlRst ∧
  decodeWord 0x11000049 = .ok (.crcByte 0x49) ∧ decodeWord 0x15000000 = .ok .crcChunk ∧
  decodeWord 0x20000000 = .ok .fltRow ∧ decodeWord 0x30000006 = .ok (.a7Pass 6) ∧
  decodeWord 0x40000000 = .ok .pxuRow ∧ decodeWord 0x51000000 = .ok .pxpImg ∧
  decodeWord 0x60000000 = .ok .decImg ∧ decodeWord 0x30000008 = .error .mustBeZero ∧
  decodeWord 0x03000000 = .error .unknownOpcode

/-! ## The step and the halted state -/

/-- A step runs the decoded command: when the host's next action writes to `CMD` a word that decodes to
`i` and the block is not halted, the step is `exec i` on the state with that action taken off the script.
The last clause says that `withFetchWord` places exactly such an action. -/
def Obligations.StepRunsTheDecodedCommand : Prop :=
  (∀ (s : State) (w : Word) (i : Instr) (rest : List HostAction),
    s.script = .regWrite 0x000 w :: rest → s.halted = false → decodeWord w = .ok i →
      step s = exec i { s with script := rest }) ∧
  (∀ (s : State) (w : Word) (i : Instr), s.halted = false → decodeWord w = .ok i →
      step (s.withFetchWord 32 w.toNat) = exec i s)

/-- Writing a word that no row of the opcode map matches, while not halted, takes `ERR_ILLEGAL_CMD` with
the whole word in `ERRADDR` and changes nothing else (R94). -/
def Obligations.IllegalWordTakesIllegalCmd : Prop :=
  ∀ (s : State) (w : Word) (rest : List HostAction),
    s.script = .regWrite 0x000 w :: rest → s.halted = false →
    (∀ r ∈ commandTable, w &&& r.1 ≠ r.2) →
      ∃ t, step s = .next t ∧ FaultTaken { s with script := rest } t 0x01 w.toNat

/-- While halted, a `CMD` write of the exact word of `CTL.RST` executes it and every other word, legal or
not, is discarded with no state change (60_exceptions.md R255, its pseudocode). -/
def Obligations.HaltedBlockDiscardsCommands : Prop :=
  ∀ (s : State) (w : Word) (rest : List HostAction),
    s.script = .regWrite 0x000 w :: rest → s.halted = true →
      (w = 0x01000000 → step s = exec .ctlRst { s with script := rest }) ∧
      (w ≠ 0x01000000 → step s = .next { s with script := rest })

/-- From a halted state, a step keeps the halt and the first fault's code and value, unless its action is
`CTL.RST`'s word or a hardware reset, which clear all three (10_state.md R26, 60_exceptions.md R257). -/
def Obligations.FirstFaultIsKeptUntilReset : Prop :=
  ∀ s t : State, s.halted = true → step s = .next t →
    (t.halted = true ∧ t.regs.errcode = s.regs.errcode ∧ t.regs.erraddr = s.regs.erraddr) ∨
    (t.halted = false ∧ t.regs.errcode = 0 ∧ t.regs.erraddr = 0 ∧
      (s.script.head? = some (.regWrite 0x000 0x01000000) ∨ s.script.head? = some .hwReset))

/-- `raise` does exactly what R253 lists, with the codes of R251. -/
def Obligations.RaiseDoesExactlyTrapEntry : Prop :=
  ∀ (s : State) (info : Nat),
    FaultTaken s (s.raise .illegalCmd info) 0x01 info ∧ FaultTaken s (s.raise .cfg info) 0x02 info ∧
    FaultTaken s (s.raise .range info) 0x03 info ∧ FaultTaken s (s.raise .bounds info) 0x04 info ∧
    FaultTaken s (s.raise .seq info) 0x05 info ∧ FaultTaken s (s.raise .operand info) 0x06 info ∧
    FaultTaken s (s.raise .truncated info) 0x10 info ∧ FaultTaken s (s.raise .crc info) 0x11 info ∧
    FaultTaken s (s.raise .chunkLen info) 0x12 info ∧
    FaultTaken s (s.raise .truncatedIdat info) 0x20 info ∧
    FaultTaken s (s.raise .excessIdat info) 0x21 info ∧
    FaultTaken s (s.raise .invalidFilter info) 0x22 info ∧
    FaultTaken s (s.raise .paletteIndexOor info) 0x30 info ∧
    FaultTaken s (s.raise .paletteMiss info) 0x31 info

/-- Every command ends in a next state from every state: a fault of the block is a state, not a stop
(60_exceptions.md R250, 70_reset_and_hazards.md R301 "No run can hang"). -/
def Obligations.EveryCommandHasANextState : Prop :=
  ∀ (i : Instr) (s : State), ∃ t, exec i s = .next t

/-- Which commands can change which memory (20_memory.md R60, R61; 10_state.md R41, R42): only the packer
writes BYTE, only `PXU.ROW` and `DEC.IMG` write PIX, only `FLT.ROW` and `DEC.IMG` write a line buffer, and
no command writes the palette or alpha RAM, a parameter, or the host's script and log. -/
def Obligations.CommandsWriteOnlyTheirMemories : Prop :=
  ∀ (i : Instr) (s t : State), exec i s = .next t →
    (i ≠ .pxpRow → i ≠ .pxpImg → SameBytes s t) ∧
    (i ≠ .pxuRow → i ≠ .decImg → SameCells s t) ∧
    (i ≠ .fltRow → i ≠ .decImg → SameLines s t) ∧
    (∀ k, t.paletteAt k = s.paletteAt k ∧ t.alphaAt k = s.alphaAt k) ∧ SameRun s t

/-! ## The register port and the host's other actions -/

/-- In every state the port word at each offset of 10_state.md R23 is the field of the state that the
commands use, the flags and fields of `STATUS`, `CTRL` and `FORMAT` at the bits of R24, R25 and R27; the
words of `PLTE[i]` and `ALPHA[i]` are the RAM entries (R41); an unmapped offset reads 0. A host write to an
offset other than `CMD`, halted or not, replaces exactly the writable bits of R23 (none for a read-only or
unmapped offset); no other port word changes, except that a format register also invalidates the pass.
Memories and line buffers are unchanged. -/
def Obligations.RegisterWriteStoresTheWritableBits : Prop :=
  (∀ s : State,
    (∀ e ∈ s.regs.portFields, (s.regRead e.1).toNat = e.2) ∧
    (∀ i < 256, (s.regRead (0x400 + 4 * i)).toNat = (s.paletteAt i).toNat ∧
      (s.regRead (0x800 + 4 * i)).toNat = (s.alphaAt i).toNat) ∧
    (∀ off, portOffset off = true → (0x08C < off ∧ off < 0x400) ∨ 0xC00 ≤ off → s.regRead off = 0)) ∧
  (∀ (s : State) (off : Nat) (v : Word) (rest : List HostAction),
    s.script = .regWrite off v :: rest → portOffset off = true → off ≠ 0x000 →
      ∃ t, step s = .next t ∧
        t.regRead off = (s.regRead off &&& ~~~(writableBits off)) ||| (v &&& writableBits off) ∧
        SamePort (off :: (if off ∈ formatOffsets then invalidatedOffsets else [])) s t ∧
        SameBytes s t ∧ SameCells s t ∧ SameLines s t ∧ SameRun { s with script := rest } t)

/-- A write to `WIDTH`, `HEIGHT` or `FORMAT`, of any value, clears the pass registers and `PREV_VALID`
and no other flag; after it `FLT.ROW` and `PXU.ROW` raise `ERR_SEQ` when the format is legal (R29). -/
def Obligations.FormatWriteInvalidatesThePass : Prop :=
  ∀ (s : State) (off : Nat) (v : Word) (rest : List HostAction),
    s.script = .regWrite off v :: rest → off ∈ formatOffsets →
      ∃ t, step s = .next t ∧
        t.regRead 0x060 = 0 ∧ t.regRead 0x064 = 0 ∧ t.regRead 0x068 = 0 ∧ t.regRead 0x06C = 0 ∧
        t.regs.status = { s.regs.status with prevValid := false } ∧
        (t.regs.cfgLegal = true →
          (∃ u, exec .fltRow t = .next u ∧ FaultTaken t u 0x05 0) ∧
          (∃ u, exec .pxuRow t = .next u ∧ FaultTaken t u 0x05 0))

/-- Reads return the contents and change nothing but the host's own log (20_memory.md R71): a register by
the port, a byte, a cell, each zero-extended to the log's word. -/
def Obligations.ReadsHaveNoSideEffect : Prop :=
  ∀ (s : State) (rest : List HostAction),
    (∀ off, s.script = .regRead off :: rest → portOffset off = true →
      step s = .next { s with script := rest, readLog := s.regRead off :: s.readLog }) ∧
    (∀ a, s.script = .byteRead a :: rest → a < s.params.byteSize →
      step s = .next { s with script := rest, readLog := (s.byteAt a).setWidth 32 :: s.readLog }) ∧
    (∀ i, s.script = .pixRead i :: rest → i < s.params.pixSize →
      step s = .next { s with script := rest, readLog := (s.cellAt i).setWidth 32 :: s.readLog })

/-- `CRC_RESULT` is a view: in every state it reads `CRC_ACC xor 0xFFFFFFFF` (10_state.md R36). A host
write to it or to any other read-only register does nothing at all (R23, 30_encoding.md R95). -/
def Obligations.CrcResultIsAViewOfTheAccumulator : Prop :=
  (∀ s : State, s.regRead 0x034 = s.regRead 0x030 ^^^ 0xFFFFFFFF) ∧
  (∀ (s : State) (off : Nat) (v : Word) (rest : List HostAction),
    s.script = .regWrite off v :: rest → off ∈ readOnlyOffsets →
      step s = .next { s with script := rest })

/-- A host write to BYTE or PIX is what a read then gives, and nothing else changes (20_memory.md R73). -/
def Obligations.HostMemoryWriteChangesOneCell : Prop :=
  ∀ (s : State) (rest : List HostAction),
    (∀ a v, s.script = .byteWrite a v :: rest → a < s.params.byteSize →
      ∃ t, step s = .next t ∧ t.byteAt a = v ∧ (∀ b, b ≠ a → t.byteAt b = s.byteAt b) ∧
        SamePort [] s t ∧ SameCells s t ∧ SameLines s t ∧ SameRun { s with script := rest } t) ∧
    (∀ i v, s.script = .pixWrite i v :: rest → i < s.params.pixSize →
      ∃ t, step s = .next t ∧ t.cellAt i = v ∧ (∀ j, j ≠ i → t.cellAt j = s.cellAt j) ∧
        SamePort [] s t ∧ SameBytes s t ∧ SameLines s t ∧ SameRun { s with script := rest } t)

/-- The host accesses that the spec gives no step (93_implementation_defined.md U5) are refused by name. -/
def Obligations.OutOfRangeHostAccessIsRefused : Prop :=
  ∀ (s : State) (rest : List HostAction),
    (∀ a v, s.script = .byteWrite a v :: rest → s.params.byteSize ≤ a →
      step s = .refused (.noSuchByteAddress a)) ∧
    (∀ a, s.script = .byteRead a :: rest → s.params.byteSize ≤ a →
      step s = .refused (.noSuchByteAddress a)) ∧
    (∀ i v, s.script = .pixWrite i v :: rest → s.params.pixSize ≤ i →
      step s = .refused (.noSuchPixIndex i)) ∧
    (∀ i, s.script = .pixRead i :: rest → s.params.pixSize ≤ i →
      step s = .refused (.noSuchPixIndex i)) ∧
    (∀ off v, s.script = .regWrite off v :: rest → off % 4 ≠ 0 ∨ 0xFFC < off →
      step s = .refused (.noSuchRegOffset off)) ∧
    (∀ off, s.script = .regRead off :: rest → off % 4 ≠ 0 ∨ 0xFFC < off →
      step s = .refused (.noSuchRegOffset off))

/-! ## Reset and the control commands -/

/-- After a hardware reset, from any state, every port word below the RAMs reads 0 but `CRC_RESULT`, which
reads 0xFFFFFFFF (10_state.md R43). The same holds of the model's reset state. -/
def Obligations.HardwareResetClearsEveryRegister : Prop :=
  (∀ (s : State) (rest : List HostAction), s.script = .hwReset :: rest →
    ∃ t, step s = .next t ∧
      ∀ off, portOffset off = true → off < 0x400 →
        t.regRead off = if off = 0x034 then 0xFFFFFFFF else 0) ∧
  (∀ off, portOffset off = true → off < 0x400 →
    State.reset.regRead off = if off = 0x034 then 0xFFFFFFFF else 0)

/-- `NOP` (R120): its word is 0, executing it changes nothing, and so does writing its word while the block
is halted or not. -/
def Obligations.NopChangesNothing : Prop :=
  encode .nop = 0x00000000 ∧ (∀ s : State, exec .nop s = .next s) ∧
  (∀ (s : State) (rest : List HostAction), s.script = .regWrite 0x000 0x00000000 :: rest →
    step s = .next { s with script := rest })

/-- `CTL.RST` (R121): every register takes its reset value; the palette and alpha RAMs, the line buffers,
BYTE and PIX are as before. Its word has that effect halted or not; while halted no other word has any. -/
def Obligations.SoftResetClearsRegistersOnly : Prop :=
  encode .ctlRst = 0x01000000 ∧
  (∀ s : State, ∃ t, exec .ctlRst s = .next t ∧
    (∀ off, portOffset off = true → off < 0x400 →
      t.regRead off = if off = 0x034 then 0xFFFFFFFF else 0) ∧
    (∀ off, portOffset off = true → 0x400 ≤ off → t.regRead off = s.regRead off) ∧
    SameBytes s t ∧ SameCells s t ∧ SameLines s t ∧ SameRun s t) ∧
  (∀ (s : State) (rest : List HostAction), s.script = .regWrite 0x000 0x01000000 :: rest →
    step s = exec .ctlRst { s with script := rest }) ∧
  (∀ (s : State) (w : Word) (rest : List HostAction), s.script = .regWrite 0x000 w :: rest →
    s.halted = true → w ≠ 0x01000000 → step s = .next { s with script := rest })

/-- `CTL.WCLR` (R122): `W_CRC`, `WARN_ADDR`, `WARN_CNT` become 0, nothing else changes, `CRC_OK` among it;
while halted its word is discarded. -/
def Obligations.WarningClearClearsOnlyTheWarning : Prop :=
  encode .ctlWclr = 0x02000000 ∧
  (∀ s : State, ∃ t, exec .ctlWclr s = .next t ∧
    t.regs.status = { s.regs.status with wCrc := false } ∧
    t.regRead 0x03C = 0 ∧ t.regRead 0x040 = 0 ∧ OnlyPort [0x004, 0x03C, 0x040] s t) ∧
  (∀ (s : State) (rest : List HostAction), s.script = .regWrite 0x000 0x02000000 :: rest →
    s.halted = true → step s = .next { s with script := rest })

/-- `W_CRC` is sticky (60_exceptions.md R262): a step from a state with the flag set keeps it, unless its
action is the word of `CTL.WCLR` or `CTL.RST`, or a hardware reset; and `WARN_CNT` then never decreases
but by wrapping: it stays or grows by one. -/
def Obligations.WarningFlagIsSticky : Prop :=
  ∀ s t : State, s.regs.status.wCrc = true → step s = .next t →
    (t.regs.status.wCrc = true ∧
      (t.regs.warnCnt = s.regs.warnCnt ∨ t.regs.warnCnt = s.regs.warnCnt + 1)) ∨
    s.script.head? = some (.regWrite 0x000 0x02000000) ∨
    s.script.head? = some (.regWrite 0x000 0x01000000) ∨ s.script.head? = some .hwReset

/-! ## The CRC unit (41_crc.md) -/

/-- `crc_step` is the byte-at-a-time table form (R132, which the spec marks as general knowledge), so it is
one xor of a table entry that depends on the low byte only. -/
def Obligations.CrcStepIsTheTableForm : Prop :=
  ∀ (acc : Word) (b : Byte),
    crcStep acc b = crcStep 0 (acc.setWidth 8 ^^^ b) ^^^ (acc >>> 8)

/-- R131: feeding nothing leaves the accumulator, feeding `b` first is one step, the CRC of nothing is 0,
and feeding can be split at any point. -/
def Obligations.CrcFeedCanBeSplit : Prop :=
  (∀ acc : Word, crcFeed acc [] = acc) ∧
  (∀ (acc : Word) (b : Byte) (u : List Byte), crcFeed acc (b :: u) = crcFeed (crcStep acc b) u) ∧
  (crcFeed 0xFFFFFFFF [] ^^^ 0xFFFFFFFF = 0) ∧
  (∀ (acc : Word) (u v : List Byte), crcFeed acc (u ++ v) = crcFeed (crcFeed acc u) v)

/-- `CRC.INIT` (R133): the accumulator becomes 0xFFFFFFFF, so the result reads 0; `CRC_OK` is cleared and
no other flag; nothing else changes. -/
def Obligations.CrcInitStartsAComputation : Prop :=
  encode .crcInit = 0x10000000 ∧
  ∀ s : State, ∃ t, exec .crcInit s = .next t ∧
    t.regRead 0x030 = 0xFFFFFFFF ∧ t.regRead 0x034 = 0 ∧
    t.regs.status = { s.regs.status with crcOk := false } ∧ OnlyPort [0x004, 0x030, 0x034] s t

/-- `CRC.BYTE imm8` (R134): the accumulator takes one step with the immediate; nothing else changes, no
flag and not the initialisation; the examples of the rule hold. -/
def Obligations.CrcByteFeedsTheImmediate : Prop :=
  (∀ imm8 : Byte, encode (.crcByte imm8) = 0x11000000 ||| imm8.setWidth 32) ∧
  (∀ (imm8 : Byte) (s : State), ∃ t, exec (.crcByte imm8) s = .next t ∧
    t.regRead 0x030 = crcStep (s.regRead 0x030) imm8 ∧ OnlyPort [0x030, 0x034] s t) ∧
  crcStep 0 0x00 = 0 ∧ crcStep 0xFFFFFFFF 0x49 = 0x22FDE946 ∧
  crcStep 0xFFFFFFFF 0x00 = 0x2DFD1072 ∧ (0x2DFD1072 ^^^ 0xFFFFFFFF : Word) = 0xD202EF8D

/-- `CRC.BUF` (R135, 20_memory.md R64): when the range is empty or ends within `RLIM`, the accumulator is
fed the bytes at `SRC_ADDR` in increasing order, and nothing else changes; otherwise it takes
`ERR_BOUNDS(SRC_ADDR)` before any byte is fed. -/
def Obligations.CrcBufFeedsTheRange : Prop :=
  encode .crcBuf = 0x12000000 ∧ ∀ s : State,
    (s.regs.srcLen = 0 ∨
        s.regs.srcAddr.toNat + s.regs.srcLen.toNat ≤ min s.regs.inEnd.toNat s.params.byteSize →
      ∃ t, exec .crcBuf s = .next t ∧
        t.regRead 0x030 = crcFeed (s.regRead 0x030)
          ((List.range s.regs.srcLen.toNat).map (fun i => s.byteAt (s.regs.srcAddr.toNat + i))) ∧
        OnlyPort [0x030, 0x034] s t) ∧
    (1 ≤ s.regs.srcLen.toNat →
      min s.regs.inEnd.toNat s.params.byteSize < s.regs.srcAddr.toNat + s.regs.srcLen.toNat →
      ∃ t, exec .crcBuf s = .next t ∧ FaultTaken s t 0x04 s.regs.srcAddr.toNat)

/-- `CRC.CHK` (R136): the verdict on `CRC_RESULT` against `CRC_EXPECT`, reported at `SRC_ADDR`; the
accumulator, the pointers and all else are unchanged. -/
def Obligations.CrcChkComparesTheResult : Prop :=
  encode .crcChk = 0x13000000 ∧ ∀ s : State, ∃ t, exec .crcChk s = .next t ∧
    CheckVerdict s t (s.regRead 0x030 ^^^ 0xFFFFFFFF) (s.regRead 0x038) s.regs.srcAddr.toNat ∧
    OnlyPort [0x004, 0x008, 0x00C, 0x03C, 0x040] s t

/-- `CRC.CHKM` (R137) with the stored word within `RLIM`: `CRC_EXPECT` takes the big-endian word at
`SRC_ADDR` and the verdict is on it; `SRC_ADDR` does not move. Otherwise `ERR_BOUNDS(SRC_ADDR)` before
anything is written. -/
def Obligations.CrcChkmComparesWithMemory : Prop :=
  encode .crcChkm = 0x14000000 ∧ ∀ s : State,
    (s.regs.srcAddr.toNat + 4 ≤ min s.regs.inEnd.toNat s.params.byteSize →
      ∃ t, exec .crcChkm s = .next t ∧
        t.regRead 0x038 = word (s.be32Value s.regs.srcAddr.toNat) ∧
        CheckVerdict s t (s.regRead 0x030 ^^^ 0xFFFFFFFF)
          (word (s.be32Value s.regs.srcAddr.toNat)) s.regs.srcAddr.toNat ∧
        OnlyPort [0x004, 0x008, 0x00C, 0x038, 0x03C, 0x040] s t) ∧
    (min s.regs.inEnd.toNat s.params.byteSize < s.regs.srcAddr.toNat + 4 →
      ∃ t, exec .crcChkm s = .next t ∧ FaultTaken s t 0x04 s.regs.srcAddr.toNat)

/-- `CRC.CHUNK` (R138) on a chunk that lies within `RLIM` with a length of at most 0x7FFFFFFF: the length,
type, CRC of type and data, and stored CRC land in their registers, `SRC_ADDR` advances past the chunk,
and the verdict is reported at the chunk's own offset. -/
def Obligations.CrcChunkValidatesOneChunk : Prop :=
  ∀ (s : State) (o len : Nat), o = s.regs.srcAddr.toNat → len = s.be32Value o → len ≤ 0x7FFFFFFF →
    o + 12 + len ≤ min s.regs.inEnd.toNat s.params.byteSize →
    ∃ t, exec .crcChunk s = .next t ∧
      t.regRead 0x044 = word len ∧ t.regRead 0x048 = word (s.be32Value (o + 4)) ∧
      t.regRead 0x030 = crcFeed 0xFFFFFFFF ((List.range (4 + len)).map (fun i => s.byteAt (o + 4 + i))) ∧
      t.regRead 0x038 = word (s.be32Value (o + 8 + len)) ∧
      (t.regRead 0x020).toNat = o + 12 + len ∧
      CheckVerdict s t (t.regRead 0x030 ^^^ 0xFFFFFFFF) (word (s.be32Value (o + 8 + len))) o ∧
      OnlyPort [0x004, 0x008, 0x00C, 0x020, 0x030, 0x034, 0x038, 0x03C, 0x040, 0x044, 0x048] s t

/-- The faults of `CRC.CHUNK` before any register is written, in their order (R138, 60_exceptions.md
R258): a header past the end, then a length above 0x7FFFFFFF, then data or CRC past the end. -/
def Obligations.CrcChunkFaultsInOrder : Prop :=
  ∀ (s : State) (o : Nat), o = s.regs.srcAddr.toNat →
    (min s.regs.inEnd.toNat s.params.byteSize < o + 8 →
      ∃ t, exec .crcChunk s = .next t ∧ FaultTaken s t 0x10 o) ∧
    (o + 8 ≤ min s.regs.inEnd.toNat s.params.byteSize → 0x7FFFFFFF < s.be32Value o →
      ∃ t, exec .crcChunk s = .next t ∧ FaultTaken s t 0x12 o) ∧
    (o + 8 ≤ min s.regs.inEnd.toNat s.params.byteSize → s.be32Value o ≤ 0x7FFFFFFF →
      min s.regs.inEnd.toNat s.params.byteSize < o + 12 + s.be32Value o →
      ∃ t, exec .crcChunk s = .next t ∧ FaultTaken s t 0x10 o)

/-! ## Formats (30_encoding.md R100 to R107) -/

/-- R102: `cfg_legal` is exactly its five conditions, with the 15 pairs of R100; each of the eight commands
that use the format takes `ERR_CFG(0)` when it is false, and no other command ever takes it. -/
def Obligations.FormatCommandsCheckLegality : Prop :=
  (∀ r : Regs, r.cfgLegal = true ↔
    1 ≤ r.width.toNat ∧ 1 ≤ r.height.toNat ∧
    (r.format.colorType.toNat, r.format.bitDepth.toNat) ∈
      [(0, 1), (0, 2), (0, 4), (0, 8), (0, 16), (2, 8), (2, 16), (3, 1), (3, 2), (3, 4), (3, 8),
       (4, 8), (4, 16), (6, 8), (6, 16)] ∧
    r.plteCount.toNat ≤ 256 ∧ r.trnsCount.toNat ≤ 256) ∧
  (∀ (s : State) (i : Instr), s.regs.cfgLegal = false →
    (i ∈ [Instr.fltRow, .a7Map, .a7Len, .pxuRow, .pxpRow, .pxpImg, .decImg] ∨ ∃ p, i = .a7Pass p) →
    ∃ t, exec i s = .next t ∧ FaultTaken s t 0x02 0) ∧
  (∀ (s t : State) (i : Instr), exec i s = .next t →
    (i ∈ [Instr.nop, .ctlRst, .ctlWclr, .crcInit, .crcBuf, .crcChk, .crcChkm, .crcChunk] ∨
      ∃ b, i = .crcByte b) →
    t.regs.errcode = 0x02 → s.regs.errcode = 0x02)

/-- Samples below 8 bits (R107) are taken most significant bits first: bit `b` of the sample of pixel `k`
is bit `8 - d - (k*d mod 8) + b` of byte `k*d div 8`, and the sample has no bit above. At depth 8 the
sample is the byte, at depth 16 two bytes, big-endian (R106). -/
def Obligations.SamplesAreReadMsbFirst : Prop :=
  ∀ (f : Format) (row : List Byte) (k j : Nat),
    (f.bitDepth.toNat ∈ [1, 2, 4] → ∀ b < 16,
      (f.sample row k 0).getLsbD b =
        (decide (b < f.bitDepth.toNat) &&
          (rowByte row (k * f.bitDepth.toNat / 8)).getLsbD
            (8 - f.bitDepth.toNat - k * f.bitDepth.toNat % 8 + b))) ∧
    (f.bitDepth.toNat = 8 → (f.sample row k j).toNat = (rowByte row (k * f.channels + j)).toNat) ∧
    (f.bitDepth.toNat = 16 → (f.sample row k j).toNat =
      (rowByte row (2 * (k * f.channels + j))).toNat * 256 +
        (rowByte row (2 * (k * f.channels + j) + 1)).toNat)

/-- The filter unit and bits per pixel of each legal pair (R103, R104), and `rowbytes(w)` is the least
number of bytes that holds `w` pixels. -/
def Obligations.RowBytesHoldTheRow : Prop :=
  (∀ f : Format, f.legalPair = true →
    (f.colorType.toNat, f.bitDepth.toNat, f.bpp, f.filterUnit) ∈
      [(0, 1, 1, 1), (0, 2, 2, 1), (0, 4, 4, 1), (0, 8, 8, 1), (0, 16, 16, 2), (2, 8, 24, 3),
       (2, 16, 48, 6), (3, 1, 1, 1), (3, 2, 2, 1), (3, 4, 4, 1), (3, 8, 8, 1), (4, 8, 16, 2),
       (4, 16, 32, 4), (6, 8, 32, 4), (6, 16, 64, 8)]) ∧
  (∀ (f : Format) (w : Nat),
    w * f.bpp ≤ 8 * f.rowBytes w ∧ 8 * f.rowBytes w < w * f.bpp + 8)

/-! ## The filter unit (42_filter.md) -/

/-- R154: `paeth(a, b, c)` is the first of `a`, `b`, `c`, in that order, that is nearest to `a + b - c`,
over exact integers. -/
def Obligations.PaethPicksTheFirstNearest : Prop :=
  ∀ a b c : Byte, ∀ p : Int, p = (a.toNat : Int) + b.toNat - c.toNat →
    ((|p - a.toNat| ≤ |p - b.toNat| ∧ |p - a.toNat| ≤ |p - c.toNat|) → paeth a b c = a) ∧
    (¬(|p - a.toNat| ≤ |p - b.toNat| ∧ |p - a.toNat| ≤ |p - c.toNat|) →
      |p - b.toNat| ≤ |p - c.toNat| → paeth a b c = b) ∧
    (¬(|p - a.toNat| ≤ |p - b.toNat| ∧ |p - a.toNat| ≤ |p - c.toNat|) →
      |p - c.toNat| < |p - b.toNat| → paeth a b c = c) ∧
    (∀ q ∈ [a, b, c], |p - (paeth a b c).toNat| ≤ |p - q.toNat|)

/-- `FLT.ROW` (R156) when its checks pass: every byte of the new row in the other line buffer is the
reconstruction of R152 and R153 from its filtered byte and neighbours; the roles of the buffers swap, the
row is counted, `SRC_ADDR` advances past the scanline; the previous row's buffer, the bytes beyond the row
and all else are unchanged. -/
def Obligations.FltRowReconstructsTheScanline : Prop :=
  ∀ (s : State) (a n fu : Nat), a = s.regs.srcAddr.toNat →
    n = s.regs.format.rowBytes s.regs.passW.toNat → fu = s.regs.format.filterUnit →
    s.regs.cfgLegal = true → 1 ≤ s.regs.passW.toNat → s.regs.row.toNat < s.regs.passH.toNat →
    n ≤ s.params.maxRowBytes → a + 1 + n ≤ min s.regs.inEnd.toNat s.params.byteSize →
    (s.byteAt a).toNat ≤ 4 →
    ∃ t, exec .fltRow s = .next t ∧
      (∀ i < n, (t.lineAt (!s.regs.status.lsel) i).toNat =
        reconstructed (s.byteAt a).toNat (s.byteAt (a + 1 + i))
          (if fu ≤ i then t.lineAt (!s.regs.status.lsel) (i - fu) else 0)
          (if s.regs.status.prevValid = true then s.lineAt s.regs.status.lsel i else 0)
          (if fu ≤ i ∧ s.regs.status.prevValid = true then s.lineAt s.regs.status.lsel (i - fu) else 0)) ∧
      (∀ i, n ≤ i → t.lineAt (!s.regs.status.lsel) i = s.lineAt (!s.regs.status.lsel) i) ∧
      (∀ i, t.lineAt s.regs.status.lsel i = s.lineAt s.regs.status.lsel i) ∧
      t.regs.status = { s.regs.status with lsel := !s.regs.status.lsel, prevValid := true } ∧
      (t.regRead 0x070).toNat = a ∧ (t.regRead 0x06C).toNat = s.regs.row.toNat + 1 ∧
      (t.regRead 0x020).toNat = a + 1 + n ∧
      SamePort [0x004, 0x020, 0x06C, 0x070] s t ∧ SameBytes s t ∧ SameCells s t ∧ SameRun s t

/-- The faults of `FLT.ROW` after `ERR_CFG`, in their order, each before any write (R156, 60_exceptions.md
R258). -/
def Obligations.FltRowFaultsInOrder : Prop :=
  ∀ (s : State) (a n : Nat), a = s.regs.srcAddr.toNat →
    n = s.regs.format.rowBytes s.regs.passW.toNat → s.regs.cfgLegal = true →
    (s.regs.passW.toNat = 0 ∨ s.regs.passH.toNat ≤ s.regs.row.toNat →
      ∃ t, exec .fltRow s = .next t ∧ FaultTaken s t 0x05 0) ∧
    (1 ≤ s.regs.passW.toNat → s.regs.row.toNat < s.regs.passH.toNat →
      (s.params.maxRowBytes < n → ∃ t, exec .fltRow s = .next t ∧ FaultTaken s t 0x03 0) ∧
      (n ≤ s.params.maxRowBytes →
        (min s.regs.inEnd.toNat s.params.byteSize < a + 1 + n →
          ∃ t, exec .fltRow s = .next t ∧ FaultTaken s t 0x04 a) ∧
        (a + 1 + n ≤ min s.regs.inEnd.toNat s.params.byteSize → 4 < (s.byteAt a).toNat →
          ∃ t, exec .fltRow s = .next t ∧ FaultTaken s t 0x22 a)))

/-- For the first row of a pass (`PREV_VALID = 0`) the contents of both line buffers are irrelevant (R152,
R156): two states that differ only in them give the same row, the same registers and the same memories. -/
def Obligations.FirstRowIgnoresTheLineBuffers : Prop :=
  ∀ (s t u : State) (m0 m1 : Memory 8), s.regs.status.prevValid = false → exec .fltRow s = .next t →
    exec .fltRow { s with lb0 := m0, lb1 := m1 } = .next u →
    u.regs = t.regs ∧ SameBytes t u ∧ SameCells t u ∧ SameRun t u ∧
    (t.regs.status.prevValid = true → ∀ i < s.regs.format.rowBytes s.regs.passW.toNat,
      u.lineAt t.regs.status.lsel i = t.lineAt t.regs.status.lsel i)

/-! ## The Adam7 unit (43_adam7.md) -/

/-- R171 with R170's table: on every size the pass dimensions are the ceilings of the quoted formulas, pass
0 is the whole image, and passes 0 and 1 of a non-empty image are never empty. -/
def Obligations.PassDimensionsAreTheCeilings : Prop :=
  (∀ p < 8, passTable[p]? = some (xStart p, yStart p, xStride p, yStride p)) ∧
  (∀ p < 8, ∀ n : Nat,
    (passWidth p n : Int) = ⌈((n : ℚ) - xStart p) / xStride p⌉ ∧
    (passHeight p n : Int) = ⌈((n : ℚ) - yStart p) / yStride p⌉) ∧
  (∀ n : Nat, passWidth 0 n = n ∧ passHeight 0 n = n) ∧
  (∀ p < 2, ∀ n : Nat, 1 ≤ n → 1 ≤ passWidth p n ∧ 1 ≤ passHeight p n)

/-- R178 (an inference the spec marks as its own, from R170) with R175: every grid position is the image of
exactly one (pass, column, row) of passes 1 to 7, inside that pass's dimensions, and the pass is the one the
8 by 8 pattern shows; conversely every pass pixel lands inside the grid. -/
def Obligations.PassesPartitionTheGrid : Prop :=
  (∀ w h x y : Nat, x < w → y < h →
    ∃ p col row, (1 ≤ p ∧ p ≤ 7 ∧ col < passWidth p w ∧ row < passHeight p h ∧
      x = xStart p + col * xStride p ∧ y = yStart p + row * yStride p) ∧
      (ownerPattern.getD (y % 8) []).getD (x % 8) 0 = p ∧
      ∀ p' col' row', 1 ≤ p' → p' ≤ 7 → col' < passWidth p' w → row' < passHeight p' h →
        x = xStart p' + col' * xStride p' → y = yStart p' + row' * yStride p' →
        p' = p ∧ col' = col ∧ row' = row) ∧
  (∀ w h p col row : Nat, p < 8 → col < passWidth p w → row < passHeight p h →
    xStart p + col * xStride p < w ∧ yStart p + row * yStride p < h)

/-- `A7.PASS p` (R174) on a legal format: `PASS`, `PASS_W`, `PASS_H` take the pass and its dimensions, the
row count is 0, there is no previous row; nothing else changes, `INTERLACE` is not consulted. An empty pass
can be selected, and `FLT.ROW` then takes `ERR_SEQ`. On an illegal format it takes `ERR_CFG(0)` before any
write. -/
def Obligations.A7PassSelectsThePass : Prop :=
  ∀ (p : Nat) (s : State), p ≤ 7 →
    encode (.a7Pass p) = 0x30000000 ||| word p ∧
    (s.regs.cfgLegal = false → ∃ t, exec (.a7Pass p) s = .next t ∧ FaultTaken s t 0x02 0) ∧
    (s.regs.cfgLegal = true → ∃ t, exec (.a7Pass p) s = .next t ∧
      (t.regRead 0x060).toNat = p ∧ (t.regRead 0x064).toNat = passWidth p s.regs.width.toNat ∧
      (t.regRead 0x068).toNat = passHeight p s.regs.height.toNat ∧ t.regRead 0x06C = 0 ∧
      t.regs.status = { s.regs.status with prevValid := false } ∧
      OnlyPort [0x004, 0x060, 0x064, 0x068, 0x06C] s t ∧
      (passWidth p s.regs.width.toNat = 0 ∨ passHeight p s.regs.height.toNat = 0 →
        ∃ u, exec .fltRow t = .next u ∧ FaultTaken t u 0x05 0))

/-- `A7.MAP` (R177, R175): an illegal format takes `ERR_CFG`; operands outside the pass take `ERR_OPERAND`,
then an index that does not fit 32 bits takes `ERR_RANGE`; otherwise the results are the grid position and
the PIX index of its red cell, and nothing else changes. -/
def Obligations.A7MapGivesTheGridPosition : Prop :=
  encode .a7Map = 0x31000000 ∧ ∀ (s : State) (x y : Nat),
    x = xStart s.regs.pass.toNat + s.regs.a7Col.toNat * xStride s.regs.pass.toNat →
    y = yStart s.regs.pass.toNat + s.regs.a7Row.toNat * yStride s.regs.pass.toNat →
    (s.regs.cfgLegal = false → ∃ t, exec .a7Map s = .next t ∧ FaultTaken s t 0x02 0) ∧
    (s.regs.cfgLegal = true →
      (s.regs.passW.toNat ≤ s.regs.a7Col.toNat ∨ s.regs.passH.toNat ≤ s.regs.a7Row.toNat →
        ∃ t, exec .a7Map s = .next t ∧ FaultTaken s t 0x06 0) ∧
      (s.regs.a7Col.toNat < s.regs.passW.toNat → s.regs.a7Row.toNat < s.regs.passH.toNat →
        (2 ^ 32 ≤ 4 * (y * s.regs.width.toNat + x) + 3 →
          ∃ t, exec .a7Map s = .next t ∧ FaultTaken s t 0x03 0) ∧
        (4 * (y * s.regs.width.toNat + x) + 3 < 2 ^ 32 →
          ∃ t, exec .a7Map s = .next t ∧
            (t.regRead 0x07C).toNat = x ∧ (t.regRead 0x080).toNat = y ∧
            (t.regRead 0x084).toNat = 4 * (y * s.regs.width.toNat + x) ∧
            OnlyPort [0x07C, 0x080, 0x084] s t)))

/-- `A7.LEN` (R179, R173): an illegal format takes `ERR_CFG`; else `EXP_LEN` takes the sum over the pass list
of the bytes of the passes that are not empty, or `ERR_RANGE` when that does not fit 32 bits; nothing else
changes. -/
def Obligations.A7LenGivesTheStreamLength : Prop :=
  encode .a7Len = 0x32000000 ∧ ∀ (s : State) (len : Nat),
    len = ((if s.regs.format.interlace = true then [1, 2, 3, 4, 5, 6, 7] else [0]).map (fun p =>
      if passWidth p s.regs.width.toNat = 0 ∨ passHeight p s.regs.height.toNat = 0 then 0
      else passHeight p s.regs.height.toNat *
        (1 + (passWidth p s.regs.width.toNat * s.regs.format.bpp + 7) / 8))).sum →
    (s.regs.cfgLegal = false → ∃ t, exec .a7Len s = .next t ∧ FaultTaken s t 0x02 0) ∧
    (s.regs.cfgLegal = true →
      (len < 2 ^ 32 → ∃ t, exec .a7Len s = .next t ∧ (t.regRead 0x088).toNat = len ∧
        OnlyPort [0x088] s t) ∧
      (2 ^ 32 ≤ len → ∃ t, exec .a7Len s = .next t ∧ FaultTaken s t 0x03 0))

/-! ## The unpacker (44_unpack.md) -/

/-- R193: the expansion of a grey sample below 8 bits is exact, and is the sample's bits written side by
side until they fill 8. -/
def Obligations.GreyExpansionReplicatesBits : Prop :=
  ∀ v : Channel,
    (v.toNat < 2 → (expandGrey v 1).toNat = v.toNat * 255) ∧
    (v.toNat < 4 → (expandGrey v 2).toNat = v.toNat * 85 ∧
      expandGrey v 2 = (v <<< 6) ||| (v <<< 4) ||| (v <<< 2) ||| v) ∧
    (v.toNat < 16 → (expandGrey v 4).toNat = v.toNat * 17 ∧ expandGrey v 4 = (v <<< 4) ||| v)

/-- R196 to R203, colour type by colour type on a legal format: what `unpack_pixel` gives, by samples. The
keys are compared with the raw samples, before expansion and before the `force32` reduction; the key of
types 3, 4 and 6 is not read. -/
def Obligations.UnpackPixelByColourType : Prop :=
  ∀ (s : State) (row : List Byte) (k : Nat) (v : Nat → Channel) (amax : Channel)
    (out : Channel → Channel),
    s.regs.cfgLegal = true → (∀ j, v j = s.regs.format.sample row k j) →
    amax = (if s.regs.format.bitDepth.toNat = 16 then 65535 else 255) →
    (∀ x, out x =
      if s.regs.format.bitDepth.toNat = 16 ∧ s.regs.ctrl.force32 = true then x >>> 8 else x) →
    (s.regs.format.colorType.toNat = 0 → ∀ g,
      g = (if s.regs.format.bitDepth.toNat < 8 then expandGrey (v 0) s.regs.format.bitDepth.toNat
        else v 0) →
      unpackPixel s row k = some
        { r := out g, g := out g, b := out g
          a := if s.regs.ctrl.trnsEn = true ∧ v 0 = s.regs.trnsKey0 then 0 else out amax }) ∧
    (s.regs.format.colorType.toNat = 2 →
      unpackPixel s row k = some
        { r := out (v 0), g := out (v 1), b := out (v 2)
          a := if s.regs.ctrl.trnsEn = true ∧ v 0 = s.regs.trnsKey0 ∧ v 1 = s.regs.trnsKey1 ∧
            v 2 = s.regs.trnsKey2 then 0 else out amax }) ∧
    (s.regs.format.colorType.toNat = 3 →
      (s.regs.plteCount.toNat ≤ (v 0).toNat → unpackPixel s row k = none) ∧
      ((v 0).toNat < s.regs.plteCount.toNat →
        ∃ px, unpackPixel s row k = some px ∧
          (s.paletteAt (v 0).toNat).toNat = px.r.toNat * 65536 + px.g.toNat * 256 + px.b.toNat ∧
          px.r.toNat < 256 ∧ px.g.toNat < 256 ∧ px.b.toNat < 256 ∧
          px.a.toNat = if (v 0).toNat < s.regs.trnsCount.toNat then (s.alphaAt (v 0).toNat).toNat
            else 255)) ∧
    (s.regs.format.colorType.toNat = 4 →
      unpackPixel s row k = some { r := out (v 0), g := out (v 0), b := out (v 0), a := out (v 1) }) ∧
    (s.regs.format.colorType.toNat = 6 →
      unpackPixel s row k = some { r := out (v 0), g := out (v 1), b := out (v 2), a := out (v 3) })

/-- `PXU.ROW` (R205) when its checks pass and, for colour type 3, every index of the row is below
`PLTE_COUNT`: the four cells of each of the row's `PASS_W` pixels hold the pixel's channels; every other
cell and all else are unchanged, registers included. -/
def Obligations.PxuRowWritesTheRowsPixels : Prop :=
  ∀ s : State, s.regs.cfgLegal = true → s.regs.status.prevValid = true →
    4 * s.regs.width.toNat * s.regs.height.toNat ≤ s.params.pixSize →
    (s.regs.format.colorType.toNat = 3 → ∀ k < s.regs.passW.toNat,
      (s.regs.format.sample s.currentRow k 0).toNat < s.regs.plteCount.toNat) →
    ∃ t, exec .pxuRow s = .next t ∧
      (∀ k < s.regs.passW.toNat, ∃ px, unpackPixel s s.currentRow k = some px ∧
        t.cellAt (s.regs.rowCell k 0) = px.r ∧ t.cellAt (s.regs.rowCell k 1) = px.g ∧
        t.cellAt (s.regs.rowCell k 2) = px.b ∧ t.cellAt (s.regs.rowCell k 3) = px.a) ∧
      (∀ i, (∀ k < s.regs.passW.toNat, ∀ c < 4, i ≠ s.regs.rowCell k c) → t.cellAt i = s.cellAt i) ∧
      SamePort [] s t ∧ SameBytes s t ∧ SameLines s t ∧ SameRun s t

/-- The faults of `PXU.ROW` after `ERR_CFG`, in their order (R205, R198): no row, then an image that does
not fit PIX, both before any write; then, on a row whose first pixel with an index out of range is number
`k`, `ERR_PALETTE_INDEX_OOR` with the address of the byte that holds the index; the row's own cells are
unspecified afterwards (U3), every other cell and all else are unchanged. -/
def Obligations.PxuRowFaultsInOrder : Prop :=
  ∀ s : State, s.regs.cfgLegal = true →
    (s.regs.status.prevValid = false → ∃ t, exec .pxuRow s = .next t ∧ FaultTaken s t 0x05 0) ∧
    (s.regs.status.prevValid = true →
      (s.params.pixSize < 4 * s.regs.width.toNat * s.regs.height.toNat →
        ∃ t, exec .pxuRow s = .next t ∧ FaultTaken s t 0x04 0) ∧
      (4 * s.regs.width.toNat * s.regs.height.toNat ≤ s.params.pixSize →
        s.regs.format.colorType.toNat = 3 → ∀ k < s.regs.passW.toNat,
        s.regs.plteCount.toNat ≤ (s.regs.format.sample s.currentRow k 0).toNat →
        (∀ j < k, (s.regs.format.sample s.currentRow j 0).toNat < s.regs.plteCount.toNat) →
        ∃ t, exec .pxuRow s = .next t ∧
          t.regs.status = { s.regs.status with err := true } ∧ t.regRead 0x008 = 0x30 ∧
          t.regRead 0x00C = word (s.regs.rowAddr.toNat + 1 + k * s.regs.format.bitDepth.toNat / 8) ∧
          (∀ i, (∀ j < s.regs.passW.toNat, ∀ c < 4, i ≠ s.regs.rowCell j c) → t.cellAt i = s.cellAt i) ∧
          SamePort [0x004, 0x008, 0x00C] s t ∧ SameBytes s t ∧ SameLines s t ∧ SameRun s t))

/-! ## The packer (45_pack.md) -/

/-- R222: the bytes of one pixel by colour type at depths 8 and 16. For colour type 3 the byte is the
lowest entry below `PLTE_COUNT` with exactly the pixel's colour and alpha, and there is a miss exactly when
no entry has them. -/
def Obligations.PackPixelByColourType : Prop :=
  ∀ (s : State) (x y : Nat) (c : Nat → Channel) (bytes : Channel → List Byte),
    s.regs.packLegal = true → (∀ k, c k = s.cellAt (4 * (y * s.regs.width.toNat + x) + k)) →
    (∀ v, bytes v = if s.regs.format.bitDepth.toNat = 16
      then [BitVec.ofNat 8 (v.toNat / 256), BitVec.ofNat 8 v.toNat] else [BitVec.ofNat 8 v.toNat]) →
    (s.regs.format.colorType.toNat = 0 → packPixel s x y = some (bytes (c 0))) ∧
    (s.regs.format.colorType.toNat = 2 →
      packPixel s x y = some (bytes (c 0) ++ bytes (c 1) ++ bytes (c 2))) ∧
    (s.regs.format.colorType.toNat = 4 → packPixel s x y = some (bytes (c 0) ++ bytes (c 3))) ∧
    (s.regs.format.colorType.toNat = 6 →
      packPixel s x y = some (bytes (c 0) ++ bytes (c 1) ++ bytes (c 2) ++ bytes (c 3))) ∧
    (s.regs.format.colorType.toNat = 3 → ∀ hit : Nat → Prop,
      (∀ e, hit e ↔
        (s.paletteAt e).toNat =
          (c 0).toNat % 256 * 65536 + (c 1).toNat % 256 * 256 + (c 2).toNat % 256 ∧
        (if e < s.regs.trnsCount.toNat then s.alphaAt e else 255) = BitVec.ofNat 8 (c 3).toNat) →
      (∀ e < s.regs.plteCount.toNat, hit e → (∀ e' < e, ¬hit e') →
        packPixel s x y = some [BitVec.ofNat 8 e]) ∧
      ((∀ e < s.regs.plteCount.toNat, ¬hit e) → packPixel s x y = none))

/-- `PXP.ROW` (R223) when its checks pass and no pixel of row `PK_Y` misses: the bytes of the row's pixels
stand at `DST_ADDR` in column order, after one 0 byte when `PK_FB = 1`; both pointers advance; every other
byte and all else are unchanged. -/
def Obligations.PxpRowWritesThePackedRow : Prop :=
  ∀ (s : State) (t fb b w : Nat), s.params.legal = true → s.regs.packLegal = true →
    t = s.regs.dstAddr.toNat → fb = (if s.regs.ctrl.pkFb = true then 1 else 0) →
    b = s.regs.format.bpp / 8 → w = s.regs.width.toNat →
    s.regs.pkY.toNat < s.regs.height.toNat →
    4 * w * s.regs.height.toNat ≤ s.params.pixSize → t + fb + w * b ≤ s.params.byteSize →
    (∀ x < w, packPixel s x s.regs.pkY.toNat ≠ none) →
    ∃ u, exec .pxpRow s = .next u ∧
      (fb = 1 → u.byteAt t = 0) ∧
      (∀ x < w, ∃ bs, packPixel s x s.regs.pkY.toNat = some bs ∧ bs.length = b ∧
        ∀ j < b, bs[j]? = some (u.byteAt (t + fb + x * b + j))) ∧
      (∀ a, a < t ∨ t + fb + w * b ≤ a → u.byteAt a = s.byteAt a) ∧
      (u.regRead 0x028).toNat = t + fb + w * b ∧
      (u.regRead 0x08C).toNat = s.regs.pkY.toNat + 1 ∧
      SamePort [0x028, 0x08C] s u ∧ SameCells s u ∧ SameLines s u ∧ SameRun s u

/-- The faults of `PXP.ROW` in their order (R223): a depth below 8, `PK_Y` out of range, the image against
PIX, the row against BYTE, and a pixel with no palette entry, the lowest `x` first; only the last leaves
anything unspecified, the row's own bytes (U3). -/
def Obligations.PxpRowFaultsInOrder : Prop :=
  ∀ (s : State) (t n : Nat), t = s.regs.dstAddr.toNat →
    n = (if s.regs.ctrl.pkFb = true then 1 else 0) + s.regs.format.rowBytes s.regs.width.toNat →
    (s.regs.packLegal = false → ∃ u, exec .pxpRow s = .next u ∧ FaultTaken s u 0x02 0) ∧
    (s.regs.packLegal = true →
      (s.regs.height.toNat ≤ s.regs.pkY.toNat →
        ∃ u, exec .pxpRow s = .next u ∧ FaultTaken s u 0x06 0) ∧
      (s.regs.pkY.toNat < s.regs.height.toNat →
        (s.params.pixSize < 4 * s.regs.width.toNat * s.regs.height.toNat →
          ∃ u, exec .pxpRow s = .next u ∧ FaultTaken s u 0x04 0) ∧
        (4 * s.regs.width.toNat * s.regs.height.toNat ≤ s.params.pixSize →
          (s.params.byteSize < t + n → ∃ u, exec .pxpRow s = .next u ∧ FaultTaken s u 0x04 t) ∧
          (t + n ≤ s.params.byteSize → ∀ x < s.regs.width.toNat,
            packPixel s x s.regs.pkY.toNat = none →
            (∀ x' < x, packPixel s x' s.regs.pkY.toNat ≠ none) →
            ∃ u, exec .pxpRow s = .next u ∧
              u.regs.status = { s.regs.status with err := true } ∧ u.regRead 0x008 = 0x31 ∧
              u.regRead 0x00C = word (4 * (s.regs.pkY.toNat * s.regs.width.toNat + x)) ∧
              (∀ a, a < t ∨ t + n ≤ a → u.byteAt a = s.byteAt a) ∧
              SamePort [0x004, 0x008, 0x00C] s u ∧ SameCells s u ∧ SameLines s u ∧ SameRun s u))))

/-- `PXP.IMG` (R226) when its checks pass and no pixel of the image misses: the rows stand back to back
from `DST_ADDR`, top row first, each as `PXP.ROW` writes it; at the end `DST_ADDR` is past them and
`PK_Y = HEIGHT`; every other byte and all else are unchanged. -/
def Obligations.PxpImgWritesEveryRow : Prop :=
  ∀ (s : State) (t fb b w h : Nat), s.params.legal = true → s.regs.packLegal = true →
    t = s.regs.dstAddr.toNat → fb = (if s.regs.ctrl.pkFb = true then 1 else 0) →
    b = s.regs.format.bpp / 8 → w = s.regs.width.toNat → h = s.regs.height.toNat →
    4 * w * h ≤ s.params.pixSize → t + h * (fb + w * b) ≤ s.params.byteSize →
    (∀ y < h, ∀ x < w, packPixel s x y ≠ none) →
    ∃ u, exec .pxpImg s = .next u ∧
      (∀ y < h, (fb = 1 → u.byteAt (t + y * (fb + w * b)) = 0) ∧
        ∀ x < w, ∃ bs, packPixel s x y = some bs ∧ bs.length = b ∧
          ∀ j < b, bs[j]? = some (u.byteAt (t + y * (fb + w * b) + fb + x * b + j))) ∧
      (∀ a, a < t ∨ t + h * (fb + w * b) ≤ a → u.byteAt a = s.byteAt a) ∧
      (u.regRead 0x028).toNat = t + h * (fb + w * b) ∧ (u.regRead 0x08C).toNat = h ∧
      SamePort [0x028, 0x08C] s u ∧ SameCells s u ∧ SameLines s u ∧ SameRun s u

/-- The faults of `PXP.IMG` in their order (R226): a depth below 8, the image against PIX, the rows against
BYTE, and a pixel with no palette entry, the first in row-major order; then `PK_Y` is its row, `DST_ADDR`
is where that row would have started, the rows before it are written, and the bytes outside the output
range and all else are unchanged. -/
def Obligations.PxpImgFaultsInOrder : Prop :=
  ∀ (s : State) (t fb b w h : Nat), t = s.regs.dstAddr.toNat →
    fb = (if s.regs.ctrl.pkFb = true then 1 else 0) →
    b = s.regs.format.bpp / 8 → w = s.regs.width.toNat → h = s.regs.height.toNat →
    (s.regs.packLegal = false → ∃ u, exec .pxpImg s = .next u ∧ FaultTaken s u 0x02 0) ∧
    (s.regs.packLegal = true →
      (s.params.pixSize < 4 * w * h → ∃ u, exec .pxpImg s = .next u ∧ FaultTaken s u 0x04 0) ∧
      (4 * w * h ≤ s.params.pixSize →
        (s.params.byteSize < t + h * (fb + w * b) →
          ∃ u, exec .pxpImg s = .next u ∧ FaultTaken s u 0x04 t) ∧
        (t + h * (fb + w * b) ≤ s.params.byteSize → s.params.legal = true →
          ∀ y < h, ∀ x < w, packPixel s x y = none →
          (∀ y' < h, ∀ x' < w, y' < y ∨ (y' = y ∧ x' < x) → packPixel s x' y' ≠ none) →
          ∃ u, exec .pxpImg s = .next u ∧
            u.regs.status = { s.regs.status with err := true } ∧ u.regRead 0x008 = 0x31 ∧
            u.regRead 0x00C = word (4 * (y * w + x)) ∧
            (u.regRead 0x08C).toNat = y ∧ (u.regRead 0x028).toNat = t + y * (fb + w * b) ∧
            (∀ y' < y, (fb = 1 → u.byteAt (t + y' * (fb + w * b)) = 0) ∧
              ∀ x' < w, ∃ bs, packPixel s x' y' = some bs ∧
                ∀ j < b, bs[j]? = some (u.byteAt (t + y' * (fb + w * b) + fb + x' * b + j))) ∧
            (∀ a, a < t ∨ t + h * (fb + w * b) ≤ a → u.byteAt a = s.byteAt a) ∧
            SamePort [0x004, 0x008, 0x00C, 0x028, 0x08C] s u ∧ SameCells s u ∧ SameLines s u ∧
            SameRun s u)))

/-! ## DEC.IMG (46_decode_image.md) -/

/-- `DEC.IMG` (R241; R242, an inference the spec marks as its own, from R241) when its checks pass, every
filter byte is 0..4 and every index is in the palette: it completes without a fault; `SRC_ADDR` is past the
stream, `EXP_LEN` its length; the pass registers, `ROW`, `PREV_VALID` are those of the last pass, `LSEL` was
toggled once per scanline, `ROW_ADDR` is the last scanline's; cells past the image, BYTE and all else are
unchanged. -/
def Obligations.DecImgEndState : Prop :=
  ∀ (s : State) (last : Nat), s.DecodeChecksPass → s.FilterBytesValid → s.IndicesValid →
    last = (if s.regs.format.interlace = true then 7 else 0) →
    ∃ t, exec .decImg s = .next t ∧
      (t.regRead 0x020).toNat = s.regs.srcAddr.toNat + s.regs.expectedLen ∧
      (t.regRead 0x088).toNat = s.regs.expectedLen ∧
      (t.regRead 0x060).toNat = last ∧
      (t.regRead 0x064).toNat = passWidth last s.regs.width.toNat ∧
      (t.regRead 0x068).toNat = passHeight last s.regs.height.toNat ∧
      (t.regRead 0x06C).toNat = s.regs.passRows last ∧
      t.regs.status = { s.regs.status with
        prevValid := decide (0 < s.regs.passRows last)
        lsel := s.regs.status.lsel ^^
          decide ((s.regs.format.passes.map s.regs.passRows).sum % 2 = 1) } ∧
      (∀ p ∈ s.regs.format.passes, 0 < s.regs.passRows p →
        (∀ q ∈ s.regs.format.passes, p < q → s.regs.passRows q = 0) →
        (t.regRead 0x070).toNat = s.regs.scanlineAddr p (s.regs.passRows p - 1)) ∧
      (∀ i, 4 * s.regs.width.toNat * s.regs.height.toNat ≤ i → t.cellAt i = s.cellAt i) ∧
      SamePort [0x004, 0x020, 0x060, 0x064, 0x068, 0x06C, 0x070, 0x088] s t ∧
      SameBytes s t ∧ SameRun s t

/-- Every pixel of a completed `DEC.IMG` (R242, an inference the spec marks as its own, from R241): the four
cells of the grid position of column `col`, row `row` of pass `p` hold what `unpack_pixel` gives for that
pixel of the reconstructed row; by the partition of the grid these are all the cells of the image. -/
def Obligations.DecImgWritesEveryPixel : Prop :=
  ∀ s t : State, s.halted = false → exec .decImg s = .next t → t.halted = false →
    ∀ p ∈ s.regs.format.passes, ∀ row < s.regs.passRows p,
      ∀ col < passWidth p s.regs.width.toNat,
        ∃ px, unpackPixel s (s.streamRow p row) col = some px ∧
          ∀ c < 4, px.cells[c]? = some (t.cellAt (4 * ((yStart p + row * yStride p) *
            s.regs.width.toNat + (xStart p + col * xStride p)) + c))

/-- The faults of `DEC.IMG` before its loop, in their order (R241, 60_exceptions.md R258): only the last
four leave `EXP_LEN` written, and nothing else is. -/
def Obligations.DecImgFaultsBeforeTheLoop : Prop :=
  ∀ (s : State) (len s0 : Nat), s.regs.cfgLegal = true → len = s.regs.expectedLen →
    s0 = s.regs.srcAddr.toNat →
    (2 ^ 32 ≤ len ∨ (∃ p ∈ s.regs.format.passes, s.regs.passNonempty p ∧
        s.params.maxRowBytes < s.regs.format.rowBytes (passWidth p s.regs.width.toNat)) →
      ∃ t, exec .decImg s = .next t ∧ FaultTaken s t 0x03 0) ∧
    (len < 2 ^ 32 → (∀ p ∈ s.regs.format.passes, s.regs.passNonempty p →
        s.regs.format.rowBytes (passWidth p s.regs.width.toNat) ≤ s.params.maxRowBytes) →
      ∀ v : State, v = { s with regs := { s.regs with expLen := word len } } →
      (s.regs.srcLen.toNat < len → ∃ t, exec .decImg s = .next t ∧ FaultTaken v t 0x20 s0) ∧
      (len < s.regs.srcLen.toNat → ∃ t, exec .decImg s = .next t ∧ FaultTaken v t 0x21 s0) ∧
      (s.regs.srcLen.toNat = len →
        (min s.regs.inEnd.toNat s.params.byteSize < s0 + len →
          ∃ t, exec .decImg s = .next t ∧ FaultTaken v t 0x04 s0) ∧
        (s0 + len ≤ min s.regs.inEnd.toNat s.params.byteSize →
          s.params.pixSize < 4 * s.regs.width.toNat * s.regs.height.toNat →
          ∃ t, exec .decImg s = .next t ∧ FaultTaken v t 0x04 0)))

/-- A fault in the loop of `DEC.IMG` (R241, 60_exceptions.md R252, R254, R258). At the first scanline of
the stream that raises, row `row` of pass `p`: a filter type above 4 halts before the row is reconstructed,
`SRC_ADDR` and `ERRADDR` at the filter byte; else pixel `k`, the first of the row whose index is not in the
palette, halts after it, `SRC_ADDR` past the scanline, `ERRADDR` at the byte that holds the index. All else
is as the completed rows left it. And `DEC.IMG` halts in its loop only when there is such a scanline. -/
def Obligations.DecImgFaultInTheLoop : Prop :=
  (∀ (s : State) (p row a n : Nat), s.DecodeChecksPass → p ∈ s.regs.format.passes →
    row < s.regs.passRows p → s.ValidBefore p row → a = s.regs.scanlineAddr p row →
    n = s.regs.format.rowBytes (passWidth p s.regs.width.toNat) →
    (4 < (s.byteAt a).toNat →
      ∃ t, exec .decImg s = .next t ∧ s.HaltedAt t p row a 0x22 a) ∧
    ((s.byteAt a).toNat ≤ 4 → s.regs.format.colorType.toNat = 3 →
      ∀ k < passWidth p s.regs.width.toNat,
        s.regs.plteCount.toNat ≤ (s.regs.format.sample (s.streamRow p row) k 0).toNat →
        (∀ j < k, (s.regs.format.sample (s.streamRow p row) j 0).toNat < s.regs.plteCount.toNat) →
        ∃ t, exec .decImg s = .next t ∧
          s.HaltedAt t p (row + 1) (a + 1 + n) 0x30 (a + 1 + k * s.regs.format.bitDepth.toNat / 8))) ∧
  (∀ s t : State, s.DecodeChecksPass → s.halted = false → exec .decImg s = .next t → t.halted = true →
    ∃ p ∈ s.regs.format.passes, ∃ row < s.regs.passRows p,
      s.ValidBefore p row ∧ ¬s.ScanlineValid p row)

/-- R243: a successful `DEC.IMG` leaves exactly the state that the host script of unit commands leaves, from
the same state; the differences are that `DEC.IMG` writes `EXP_LEN` and succeeds only on a stream whose
`SRC_LEN` is the expected length (the spec marks R243 as its own inference from R241). -/
def Obligations.DecImgEqualsTheUnitCommands : Prop :=
  ∀ (s t : State) (rest : List HostAction), s.halted = false → exec .decImg s = .next t →
    t.halted = false →
    s.regs.srcLen.toNat = s.regs.expectedLen ∧ t.regs.expLen = word s.regs.expectedLen ∧
    runSteps s.regs.unitScript.length
        { s with script := s.regs.unitScript.map (fun i => HostAction.regWrite 0x000 (encode i)) ++ rest } =
      .next { t with script := rest, regs := { t.regs with expLen := s.regs.expLen } }

/-- R244 (an inference the spec marks as its own, from R178 and R204): two completed decodes, one not
interlaced and one Adam7, of the same size, format and settings, whose streams hold the same native samples
at every position of the grid, write the same PIX cells. -/
def Obligations.InterlacedDecodeEqualsPlainDecode : Prop :=
  ∀ s0 s1 t0 t1 : State, s0.halted = false → s1.halted = false → t0.halted = false → t1.halted = false →
    s0.regs.format.interlace = false →
    s1.regs.format = { s0.regs.format with interlace := true } →
    s1.regs.width = s0.regs.width → s1.regs.height = s0.regs.height → s1.regs.ctrl = s0.regs.ctrl →
    s1.regs.trnsKey0 = s0.regs.trnsKey0 → s1.regs.trnsKey1 = s0.regs.trnsKey1 →
    s1.regs.trnsKey2 = s0.regs.trnsKey2 → s1.regs.plteCount = s0.regs.plteCount →
    s1.regs.trnsCount = s0.regs.trnsCount →
    (∀ i, s1.paletteAt i = s0.paletteAt i ∧ s1.alphaAt i = s0.alphaAt i) →
    exec .decImg s0 = .next t0 → exec .decImg s1 = .next t1 →
    (∀ p, 1 ≤ p → p ≤ 7 → ∀ row < s1.regs.passRows p, ∀ col < passWidth p s1.regs.width.toNat,
      ∀ j < s0.regs.format.channels, s1.regs.format.sample (s1.streamRow p row) col j =
        s0.regs.format.sample (s0.streamRow 0 (yStart p + row * yStride p))
          (xStart p + col * xStride p) j) →
    ∀ i < 4 * s0.regs.width.toNat * s0.regs.height.toNat, t1.cellAt i = t0.cellAt i

/-- The round trip of colour type 6 (45_pack.md R222, 95_test_vectors.md invariant 4): an image packed by
`PXP.IMG` with filter bytes, then decoded by `DEC.IMG` from where it was packed, whatever PIX held in
between, gives the image back cell for cell. At depth 8 the image's cells hold 8-bit values, and `FORCE32`
has no effect; at depth 16 it is 0, since it reduces each channel (44_unpack.md R203). -/
def Obligations.RgbaPackThenDecodeIsTheImage : Prop :=
  ∀ (s u : State) (len : Nat) (between : Memory 16), s.params.legal = true → s.halted = false →
    s.regs.packLegal = true → s.regs.format.colorType.toNat = 6 → s.regs.format.interlace = false →
    s.regs.ctrl.pkFb = true →
    (s.regs.format.bitDepth.toNat = 16 → s.regs.ctrl.force32 = false) →
    4 * s.regs.width.toNat * s.regs.height.toNat ≤ s.params.pixSize →
    s.regs.format.rowBytes s.regs.width.toNat ≤ s.params.maxRowBytes →
    len = s.regs.height.toNat * (1 + s.regs.format.rowBytes s.regs.width.toNat) →
    s.regs.dstAddr.toNat + len ≤ s.params.byteSize →
    (s.regs.format.bitDepth.toNat = 8 → ∀ i < 4 * s.regs.width.toNat * s.regs.height.toNat,
      (s.cellAt i).toNat < 256) →
    exec .pxpImg s = .next u →
    ∃ t, exec .decImg { u with
        pixMem := between
        regs := { u.regs with
          srcAddr := s.regs.dstAddr
          srcLen := word len
          inEnd := word (s.regs.dstAddr.toNat + len) } } = .next t ∧
      t.halted = false ∧
      ∀ i < 4 * s.regs.width.toNat * s.regs.height.toNat, t.cellAt i = s.cellAt i

/-! ## The invariant -/

/-- Every step keeps the invariant: the memories stay canonical and inside their sizes, `ERRCODE` and
`ERRADDR` record a fault exactly while halted, there is no warning record without the flag, and the pass
registers are those of a pass of the present format or of none. -/
def Obligations.StepKeepsTheInvariant : Prop :=
  ∀ s t : State, s.Inv → step s = .next t → t.Inv

/-- The invariant holds after reset. -/
def Obligations.ResetHasTheInvariant : Prop := State.reset.Inv
end

