-- ==== Sys2Proof/Laws/State.lean ====
section
/-! SUPPORT. What each named update of the state does to each field: one lemma per field per update, so
that no later proof unfolds a record update. -/

namespace Sys2Proof.Machine

/-! ## Flag updates of the registers -/

@[simp] theorem Regs.setCrcOk_eq (r : Regs) (ok : Bool) :
    r.setCrcOk ok = { r with status := { r.status with crcOk := ok } } := rfl
@[simp] theorem Regs.setPrevValid_eq (r : Regs) (valid : Bool) :
    r.setPrevValid valid = { r with status := { r.status with prevValid := valid } } := rfl
@[simp] theorem Regs.setLsel_eq (r : Regs) (sel : Bool) :
    r.setLsel sel = { r with status := { r.status with lsel := sel } } := rfl
@[simp] theorem Regs.invalidatePass_eq (r : Regs) :
    r.invalidatePass =
      { r with status := { r.status with prevValid := false }, pass := 0, passW := 0, passH := 0, row := 0 } :=
  rfl

/-! ## Taking a fault -/

@[simp] theorem State.raise_params (s : State) (e : HwFault) (info : Nat) :
    (s.raise e info).params = s.params := rfl
@[simp] theorem State.raise_regs (s : State) (e : HwFault) (info : Nat) :
    (s.raise e info).regs = { s.regs with status := { s.regs.status with err := true }, errcode := e.code, erraddr := word info } := rfl
@[simp] theorem State.raise_plte (s : State) (e : HwFault) (info : Nat) :
    (s.raise e info).plte = s.plte := rfl
@[simp] theorem State.raise_alpha (s : State) (e : HwFault) (info : Nat) :
    (s.raise e info).alpha = s.alpha := rfl
@[simp] theorem State.raise_lb0 (s : State) (e : HwFault) (info : Nat) :
    (s.raise e info).lb0 = s.lb0 := rfl
@[simp] theorem State.raise_lb1 (s : State) (e : HwFault) (info : Nat) :
    (s.raise e info).lb1 = s.lb1 := rfl
@[simp] theorem State.raise_byteMem (s : State) (e : HwFault) (info : Nat) :
    (s.raise e info).byteMem = s.byteMem := rfl
@[simp] theorem State.raise_pixMem (s : State) (e : HwFault) (info : Nat) :
    (s.raise e info).pixMem = s.pixMem := rfl
@[simp] theorem State.raise_launch (s : State) (e : HwFault) (info : Nat) :
    (s.raise e info).launch = s.launch := rfl
@[simp] theorem State.raise_draws (s : State) (e : HwFault) (info : Nat) :
    (s.raise e info).draws = s.draws := rfl
@[simp] theorem State.raise_script (s : State) (e : HwFault) (info : Nat) :
    (s.raise e info).script = s.script := rfl
@[simp] theorem State.raise_readLog (s : State) (e : HwFault) (info : Nat) :
    (s.raise e info).readLog = s.readLog := rfl

/-! ## Soft reset -/

@[simp] theorem State.softReset_params (s : State) :
    s.softReset.params = s.params := rfl
@[simp] theorem State.softReset_regs (s : State) :
    s.softReset.regs = Regs.reset := rfl
@[simp] theorem State.softReset_plte (s : State) :
    s.softReset.plte = s.plte := rfl
@[simp] theorem State.softReset_alpha (s : State) :
    s.softReset.alpha = s.alpha := rfl
@[simp] theorem State.softReset_lb0 (s : State) :
    s.softReset.lb0 = s.lb0 := rfl
@[simp] theorem State.softReset_lb1 (s : State) :
    s.softReset.lb1 = s.lb1 := rfl
@[simp] theorem State.softReset_byteMem (s : State) :
    s.softReset.byteMem = s.byteMem := rfl
@[simp] theorem State.softReset_pixMem (s : State) :
    s.softReset.pixMem = s.pixMem := rfl
@[simp] theorem State.softReset_launch (s : State) :
    s.softReset.launch = s.launch := rfl
@[simp] theorem State.softReset_draws (s : State) :
    s.softReset.draws = s.draws := rfl
@[simp] theorem State.softReset_script (s : State) :
    s.softReset.script = s.script := rfl
@[simp] theorem State.softReset_readLog (s : State) :
    s.softReset.readLog = s.readLog := rfl

/-! ## Hardware reset -/

@[simp] theorem State.hardReset_params (s : State) :
    s.hardReset.params = s.params := rfl
@[simp] theorem State.hardReset_regs (s : State) :
    s.hardReset.regs = Regs.reset := rfl
@[simp] theorem State.hardReset_plte (s : State) :
    s.hardReset.plte = [] := rfl
@[simp] theorem State.hardReset_alpha (s : State) :
    s.hardReset.alpha = [] := rfl
@[simp] theorem State.hardReset_lb0 (s : State) :
    s.hardReset.lb0 = [] := rfl
@[simp] theorem State.hardReset_lb1 (s : State) :
    s.hardReset.lb1 = [] := rfl
@[simp] theorem State.hardReset_byteMem (s : State) :
    s.hardReset.byteMem = [] := rfl
@[simp] theorem State.hardReset_pixMem (s : State) :
    s.hardReset.pixMem = [] := rfl
@[simp] theorem State.hardReset_launch (s : State) :
    s.hardReset.launch = s.draws := rfl
@[simp] theorem State.hardReset_draws (s : State) :
    s.hardReset.draws = s.draws + 1 := rfl
@[simp] theorem State.hardReset_script (s : State) :
    s.hardReset.script = s.script := rfl
@[simp] theorem State.hardReset_readLog (s : State) :
    s.hardReset.readLog = s.readLog := rfl

/-! ## A store to BYTE -/

@[simp] theorem State.storeBytes_params (s : State) (a : Nat) (vs : List Byte) :
    (s.storeBytes a vs).params = s.params := rfl
@[simp] theorem State.storeBytes_regs (s : State) (a : Nat) (vs : List Byte) :
    (s.storeBytes a vs).regs = s.regs := rfl
@[simp] theorem State.storeBytes_plte (s : State) (a : Nat) (vs : List Byte) :
    (s.storeBytes a vs).plte = s.plte := rfl
@[simp] theorem State.storeBytes_alpha (s : State) (a : Nat) (vs : List Byte) :
    (s.storeBytes a vs).alpha = s.alpha := rfl
@[simp] theorem State.storeBytes_lb0 (s : State) (a : Nat) (vs : List Byte) :
    (s.storeBytes a vs).lb0 = s.lb0 := rfl
@[simp] theorem State.storeBytes_lb1 (s : State) (a : Nat) (vs : List Byte) :
    (s.storeBytes a vs).lb1 = s.lb1 := rfl
@[simp] theorem State.storeBytes_byteMem (s : State) (a : Nat) (vs : List Byte) :
    (s.storeBytes a vs).byteMem = Memory.writeRange s.byteMem a vs := rfl
@[simp] theorem State.storeBytes_pixMem (s : State) (a : Nat) (vs : List Byte) :
    (s.storeBytes a vs).pixMem = s.pixMem := rfl
@[simp] theorem State.storeBytes_launch (s : State) (a : Nat) (vs : List Byte) :
    (s.storeBytes a vs).launch = s.launch := rfl
@[simp] theorem State.storeBytes_draws (s : State) (a : Nat) (vs : List Byte) :
    (s.storeBytes a vs).draws = s.draws := rfl
@[simp] theorem State.storeBytes_script (s : State) (a : Nat) (vs : List Byte) :
    (s.storeBytes a vs).script = s.script := rfl
@[simp] theorem State.storeBytes_readLog (s : State) (a : Nat) (vs : List Byte) :
    (s.storeBytes a vs).readLog = s.readLog := rfl

/-! ## A store to PIX -/

@[simp] theorem State.storeCells_params (s : State) (i : Nat) (vs : List Channel) :
    (s.storeCells i vs).params = s.params := rfl
@[simp] theorem State.storeCells_regs (s : State) (i : Nat) (vs : List Channel) :
    (s.storeCells i vs).regs = s.regs := rfl
@[simp] theorem State.storeCells_plte (s : State) (i : Nat) (vs : List Channel) :
    (s.storeCells i vs).plte = s.plte := rfl
@[simp] theorem State.storeCells_alpha (s : State) (i : Nat) (vs : List Channel) :
    (s.storeCells i vs).alpha = s.alpha := rfl
@[simp] theorem State.storeCells_lb0 (s : State) (i : Nat) (vs : List Channel) :
    (s.storeCells i vs).lb0 = s.lb0 := rfl
@[simp] theorem State.storeCells_lb1 (s : State) (i : Nat) (vs : List Channel) :
    (s.storeCells i vs).lb1 = s.lb1 := rfl
@[simp] theorem State.storeCells_byteMem (s : State) (i : Nat) (vs : List Channel) :
    (s.storeCells i vs).byteMem = s.byteMem := rfl
@[simp] theorem State.storeCells_pixMem (s : State) (i : Nat) (vs : List Channel) :
    (s.storeCells i vs).pixMem = Memory.writeRange s.pixMem i vs := rfl
@[simp] theorem State.storeCells_launch (s : State) (i : Nat) (vs : List Channel) :
    (s.storeCells i vs).launch = s.launch := rfl
@[simp] theorem State.storeCells_draws (s : State) (i : Nat) (vs : List Channel) :
    (s.storeCells i vs).draws = s.draws := rfl
@[simp] theorem State.storeCells_script (s : State) (i : Nat) (vs : List Channel) :
    (s.storeCells i vs).script = s.script := rfl
@[simp] theorem State.storeCells_readLog (s : State) (i : Nat) (vs : List Channel) :
    (s.storeCells i vs).readLog = s.readLog := rfl

/-! ## A draw over BYTE -/

@[simp] theorem State.drawBytes_params (s : State) (a n : Nat) :
    (s.drawBytes a n).params = s.params := rfl
@[simp] theorem State.drawBytes_regs (s : State) (a n : Nat) :
    (s.drawBytes a n).regs = s.regs := rfl
@[simp] theorem State.drawBytes_plte (s : State) (a n : Nat) :
    (s.drawBytes a n).plte = s.plte := rfl
@[simp] theorem State.drawBytes_alpha (s : State) (a n : Nat) :
    (s.drawBytes a n).alpha = s.alpha := rfl
@[simp] theorem State.drawBytes_lb0 (s : State) (a n : Nat) :
    (s.drawBytes a n).lb0 = s.lb0 := rfl
@[simp] theorem State.drawBytes_lb1 (s : State) (a n : Nat) :
    (s.drawBytes a n).lb1 = s.lb1 := rfl
@[simp] theorem State.drawBytes_byteMem (s : State) (a n : Nat) :
    (s.drawBytes a n).byteMem = Memory.writeRange s.byteMem a ((List.range n).map (fun k => Config.freeByte s.draws (a + k))) := rfl
@[simp] theorem State.drawBytes_pixMem (s : State) (a n : Nat) :
    (s.drawBytes a n).pixMem = s.pixMem := rfl
@[simp] theorem State.drawBytes_launch (s : State) (a n : Nat) :
    (s.drawBytes a n).launch = s.launch := rfl
@[simp] theorem State.drawBytes_draws (s : State) (a n : Nat) :
    (s.drawBytes a n).draws = s.draws + 1 := rfl
@[simp] theorem State.drawBytes_script (s : State) (a n : Nat) :
    (s.drawBytes a n).script = s.script := rfl
@[simp] theorem State.drawBytes_readLog (s : State) (a n : Nat) :
    (s.drawBytes a n).readLog = s.readLog := rfl

/-! ## A draw over PIX -/

@[simp] theorem State.drawCells_params (s : State) (i n : Nat) :
    (s.drawCells i n).params = s.params := rfl
@[simp] theorem State.drawCells_regs (s : State) (i n : Nat) :
    (s.drawCells i n).regs = s.regs := rfl
@[simp] theorem State.drawCells_plte (s : State) (i n : Nat) :
    (s.drawCells i n).plte = s.plte := rfl
@[simp] theorem State.drawCells_alpha (s : State) (i n : Nat) :
    (s.drawCells i n).alpha = s.alpha := rfl
@[simp] theorem State.drawCells_lb0 (s : State) (i n : Nat) :
    (s.drawCells i n).lb0 = s.lb0 := rfl
@[simp] theorem State.drawCells_lb1 (s : State) (i n : Nat) :
    (s.drawCells i n).lb1 = s.lb1 := rfl
@[simp] theorem State.drawCells_byteMem (s : State) (i n : Nat) :
    (s.drawCells i n).byteMem = s.byteMem := rfl
@[simp] theorem State.drawCells_pixMem (s : State) (i n : Nat) :
    (s.drawCells i n).pixMem = Memory.writeRange s.pixMem i ((List.range n).map (fun k => Config.freeCell s.draws (i + k))) := rfl
@[simp] theorem State.drawCells_launch (s : State) (i n : Nat) :
    (s.drawCells i n).launch = s.launch := rfl
@[simp] theorem State.drawCells_draws (s : State) (i n : Nat) :
    (s.drawCells i n).draws = s.draws + 1 := rfl
@[simp] theorem State.drawCells_script (s : State) (i n : Nat) :
    (s.drawCells i n).script = s.script := rfl
@[simp] theorem State.drawCells_readLog (s : State) (i n : Nat) :
    (s.drawCells i n).readLog = s.readLog := rfl

/-! ## A host read -/

@[simp] theorem State.logRead_params (s : State) (v : Word) :
    (s.logRead v).params = s.params := rfl
@[simp] theorem State.logRead_regs (s : State) (v : Word) :
    (s.logRead v).regs = s.regs := rfl
@[simp] theorem State.logRead_plte (s : State) (v : Word) :
    (s.logRead v).plte = s.plte := rfl
@[simp] theorem State.logRead_alpha (s : State) (v : Word) :
    (s.logRead v).alpha = s.alpha := rfl
@[simp] theorem State.logRead_lb0 (s : State) (v : Word) :
    (s.logRead v).lb0 = s.lb0 := rfl
@[simp] theorem State.logRead_lb1 (s : State) (v : Word) :
    (s.logRead v).lb1 = s.lb1 := rfl
@[simp] theorem State.logRead_byteMem (s : State) (v : Word) :
    (s.logRead v).byteMem = s.byteMem := rfl
@[simp] theorem State.logRead_pixMem (s : State) (v : Word) :
    (s.logRead v).pixMem = s.pixMem := rfl
@[simp] theorem State.logRead_launch (s : State) (v : Word) :
    (s.logRead v).launch = s.launch := rfl
@[simp] theorem State.logRead_draws (s : State) (v : Word) :
    (s.logRead v).draws = s.draws := rfl
@[simp] theorem State.logRead_script (s : State) (v : Word) :
    (s.logRead v).script = s.script := rfl
@[simp] theorem State.logRead_readLog (s : State) (v : Word) :
    (s.logRead v).readLog = v :: s.readLog := rfl

/-! ## Selecting a pass -/

@[simp] theorem State.selectPass_params (s : State) (p : Nat) :
    (s.selectPass p).params = s.params := rfl
@[simp] theorem State.selectPass_regs (s : State) (p : Nat) :
    (s.selectPass p).regs = { s.regs.setPrevValid false with pass := BitVec.ofNat 3 p, passW := word (passWidth p s.regs.width.toNat), passH := word (passHeight p s.regs.height.toNat), row := 0 } := rfl
@[simp] theorem State.selectPass_plte (s : State) (p : Nat) :
    (s.selectPass p).plte = s.plte := rfl
@[simp] theorem State.selectPass_alpha (s : State) (p : Nat) :
    (s.selectPass p).alpha = s.alpha := rfl
@[simp] theorem State.selectPass_lb0 (s : State) (p : Nat) :
    (s.selectPass p).lb0 = s.lb0 := rfl
@[simp] theorem State.selectPass_lb1 (s : State) (p : Nat) :
    (s.selectPass p).lb1 = s.lb1 := rfl
@[simp] theorem State.selectPass_byteMem (s : State) (p : Nat) :
    (s.selectPass p).byteMem = s.byteMem := rfl
@[simp] theorem State.selectPass_pixMem (s : State) (p : Nat) :
    (s.selectPass p).pixMem = s.pixMem := rfl
@[simp] theorem State.selectPass_launch (s : State) (p : Nat) :
    (s.selectPass p).launch = s.launch := rfl
@[simp] theorem State.selectPass_draws (s : State) (p : Nat) :
    (s.selectPass p).draws = s.draws := rfl
@[simp] theorem State.selectPass_script (s : State) (p : Nat) :
    (s.selectPass p).script = s.script := rfl
@[simp] theorem State.selectPass_readLog (s : State) (p : Nat) :
    (s.selectPass p).readLog = s.readLog := rfl

/-! ## Placing a command -/

@[simp] theorem State.withCommand_params (s : State) (w : Word) :
    (s.withCommand w).params = s.params := rfl
@[simp] theorem State.withCommand_regs (s : State) (w : Word) :
    (s.withCommand w).regs = s.regs := rfl
@[simp] theorem State.withCommand_plte (s : State) (w : Word) :
    (s.withCommand w).plte = s.plte := rfl
@[simp] theorem State.withCommand_alpha (s : State) (w : Word) :
    (s.withCommand w).alpha = s.alpha := rfl
@[simp] theorem State.withCommand_lb0 (s : State) (w : Word) :
    (s.withCommand w).lb0 = s.lb0 := rfl
@[simp] theorem State.withCommand_lb1 (s : State) (w : Word) :
    (s.withCommand w).lb1 = s.lb1 := rfl
@[simp] theorem State.withCommand_byteMem (s : State) (w : Word) :
    (s.withCommand w).byteMem = s.byteMem := rfl
@[simp] theorem State.withCommand_pixMem (s : State) (w : Word) :
    (s.withCommand w).pixMem = s.pixMem := rfl
@[simp] theorem State.withCommand_launch (s : State) (w : Word) :
    (s.withCommand w).launch = s.launch := rfl
@[simp] theorem State.withCommand_draws (s : State) (w : Word) :
    (s.withCommand w).draws = s.draws := rfl
@[simp] theorem State.withCommand_script (s : State) (w : Word) :
    (s.withCommand w).script = .regWrite 0 w :: s.script := rfl
@[simp] theorem State.withCommand_readLog (s : State) (w : Word) :
    (s.withCommand w).readLog = s.readLog := rfl

/-! ## A store to a line buffer -/

@[simp] theorem State.storeLine_params (s : State) (sel : Bool) (vs : List Byte) :
    (s.storeLine sel vs).params = s.params := by cases sel <;> rfl
@[simp] theorem State.storeLine_regs (s : State) (sel : Bool) (vs : List Byte) :
    (s.storeLine sel vs).regs = s.regs := by cases sel <;> rfl
@[simp] theorem State.storeLine_plte (s : State) (sel : Bool) (vs : List Byte) :
    (s.storeLine sel vs).plte = s.plte := by cases sel <;> rfl
@[simp] theorem State.storeLine_alpha (s : State) (sel : Bool) (vs : List Byte) :
    (s.storeLine sel vs).alpha = s.alpha := by cases sel <;> rfl
@[simp] theorem State.storeLine_byteMem (s : State) (sel : Bool) (vs : List Byte) :
    (s.storeLine sel vs).byteMem = s.byteMem := by cases sel <;> rfl
@[simp] theorem State.storeLine_pixMem (s : State) (sel : Bool) (vs : List Byte) :
    (s.storeLine sel vs).pixMem = s.pixMem := by cases sel <;> rfl
@[simp] theorem State.storeLine_launch (s : State) (sel : Bool) (vs : List Byte) :
    (s.storeLine sel vs).launch = s.launch := by cases sel <;> rfl
@[simp] theorem State.storeLine_draws (s : State) (sel : Bool) (vs : List Byte) :
    (s.storeLine sel vs).draws = s.draws := by cases sel <;> rfl
@[simp] theorem State.storeLine_script (s : State) (sel : Bool) (vs : List Byte) :
    (s.storeLine sel vs).script = s.script := by cases sel <;> rfl
@[simp] theorem State.storeLine_readLog (s : State) (sel : Bool) (vs : List Byte) :
    (s.storeLine sel vs).readLog = s.readLog := by cases sel <;> rfl
@[simp] theorem State.storeLine_line (s : State) (sel sel' : Bool) (vs : List Byte) :
    (s.storeLine sel vs).line sel' =
      if sel' = sel then Memory.writeRange (s.line sel') 0 vs else s.line sel' := by
  cases sel <;> cases sel' <;> rfl

end Sys2Proof.Machine
end

