-- ==== Sys2Proof/Laws/Memory.lean ====
section
/-! SUPPORT. The laws of the memories: what a range store makes an address hold, and that it keeps the
canonical form; then what every state operation does to a read of BYTE, PIX, the RAMs and the lines. -/

namespace Sys2Proof.Machine

/-! ## Lookup -/

theorem Memory.lookup_append {w : Nat} (m n : Memory w) (a : Nat) :
    Memory.lookup (m ++ n) a = (Memory.lookup m a).or (Memory.lookup n a) := by
  induction m with
  | nil => rfl
  | cons c m ih =>
    obtain ⟨k, v⟩ := c
    simp only [List.cons_append, Memory.lookup]
    split <;> simp [ih]

theorem Memory.lookup_filter {w : Nat} (m : Memory w) (p : Nat → Bool) (a : Nat) :
    Memory.lookup (m.filter (fun c => p c.1)) a = if p a then Memory.lookup m a else none := by
  induction m with
  | nil => simp [Memory.lookup]
  | cons c m ih =>
    obtain ⟨k, v⟩ := c
    simp only [List.filter_cons, Memory.lookup]
    by_cases hk : k = a
    · subst hk
      cases hp : p k <;> simp [Memory.lookup, ih, hp]
    · cases hp : p k <;> simp [Memory.lookup, ih, hk]

theorem Memory.lookup_run {w : Nat} (vs : List (BitVec w)) (a x : Nat) :
    Memory.lookup (Memory.run a vs) x = if a ≤ x then vs[x - a]? else none := by
  induction vs generalizing a with
  | nil => simp [Memory.run, Memory.lookup]
  | cons v vs ih =>
    simp only [Memory.run, Memory.lookup, ih]
    rcases Nat.lt_trichotomy a x with h | h | h
    · have e : x - a = (x - (a + 1)) + 1 := by omega
      simp [Nat.ne_of_lt h, show a + 1 ≤ x by omega, show a ≤ x by omega, e]
    · simp [h]
    · simp [show a ≠ x by omega, show ¬a + 1 ≤ x by omega, show ¬a ≤ x by omega]

/-- A range store: the stored values at their addresses, every other address as before. -/
theorem Memory.lookup_writeRange {w : Nat} (m : Memory w) (a : Nat) (vs : List (BitVec w)) (x : Nat) :
    Memory.lookup (Memory.writeRange m a vs) x =
      if a ≤ x ∧ x < a + vs.length then vs[x - a]? else Memory.lookup m x := by
  have lo := Memory.lookup_filter m (fun k => decide (k < a)) x
  have hi := Memory.lookup_filter m (fun k => decide (a + vs.length ≤ k)) x
  simp only [Memory.writeRange, Memory.lookup_append, Memory.lookup_run, lo, hi, decide_eq_true_eq]
  by_cases h1 : x < a
  · simp [h1, show ¬a ≤ x by omega, show ¬a + vs.length ≤ x by omega]
  · by_cases h2 : x < a + vs.length
    · have hx : x - a < vs.length := by omega
      simp [h1, h2, show a ≤ x by omega, List.getElem?_eq_getElem hx]
    · have hx : vs[x - a]? = none := List.getElem?_eq_none (by omega)
      simp [h1, h2, show a ≤ x by omega, hx, show a + vs.length ≤ x by omega]

theorem Memory.lookup_write {w : Nat} (m : Memory w) (a : Nat) (v : BitVec w) (x : Nat) :
    Memory.lookup (Memory.write m a v) x = if x = a then some v else Memory.lookup m x := by
  simp only [Memory.write, Memory.lookup_writeRange, List.length_singleton]
  by_cases h : x = a
  · simp [h]
  · rw [if_neg (by omega), if_neg h]

/-! ## The canonical form -/

theorem Memory.mem_run {w : Nat} {vs : List (BitVec w)} {a : Nat} {c : Nat × BitVec w}
    (h : c ∈ Memory.run a vs) : a ≤ c.1 ∧ c.1 < a + vs.length := by
  induction vs generalizing a with
  | nil => cases h
  | cons v vs ih =>
    simp only [Memory.run, List.mem_cons] at h
    rcases h with rfl | h
    · simp
    · have := ih h
      simp only [List.length_cons]
      omega

theorem Memory.wf_run {w : Nat} (vs : List (BitVec w)) (a : Nat) : Memory.wf (Memory.run a vs) := by
  induction vs generalizing a with
  | nil => exact List.Pairwise.nil
  | cons v vs ih => exact List.Pairwise.cons (fun c hc => (Memory.mem_run hc).1) (ih (a + 1))

/-- A range store keeps the canonical form. -/
theorem Memory.wf_writeRange {w : Nat} {m : Memory w} (h : Memory.wf m) (a : Nat)
    (vs : List (BitVec w)) : Memory.wf (Memory.writeRange m a vs) := by
  refine List.pairwise_append.2 ⟨List.pairwise_append.2 ⟨h.filter _, Memory.wf_run vs a, ?_⟩, h.filter _, ?_⟩
  · intro c hc d hd
    have h1 : c.1 < a := by simpa using (List.mem_filter.1 hc).2
    exact lt_of_lt_of_le h1 (Memory.mem_run hd).1
  · intro c hc d hd
    have h2 : a + vs.length ≤ d.1 := by simpa using (List.mem_filter.1 hd).2
    rcases List.mem_append.1 hc with hc | hc
    · have h1 : c.1 < a := by simpa using (List.mem_filter.1 hc).2
      omega
    · exact lt_of_lt_of_le (Memory.mem_run hc).2 h2

theorem Memory.wf_write {w : Nat} {m : Memory w} (h : Memory.wf m) (a : Nat) (v : BitVec w) :
    Memory.wf (Memory.write m a v) := Memory.wf_writeRange h a [v]

/-- A store lists only addresses that were listed or that it stores to. -/
theorem Memory.mem_writeRange {w : Nat} {m : Memory w} {a : Nat} {vs : List (BitVec w)}
    {c : Nat × BitVec w} (h : c ∈ Memory.writeRange m a vs) :
    c ∈ m ∨ (a ≤ c.1 ∧ c.1 < a + vs.length) := by
  rcases List.mem_append.1 h with h | h
  · rcases List.mem_append.1 h with h | h
    · exact .inl (List.mem_filter.1 h).1
    · exact .inr (Memory.mem_run h)
  · exact .inl (List.mem_filter.1 h).1

/-! ## Reads after each operation -/

theorem State.byteAt_storeBytes (s : State) (a : Nat) (vs : List Byte) (x : Nat) :
    (s.storeBytes a vs).byteAt x =
      if h : a ≤ x ∧ x < a + vs.length then vs[x - a]'(by omega) else s.byteAt x := by
  simp only [State.byteAt, State.storeBytes_byteMem, State.storeBytes_launch, Memory.lookup_writeRange]
  split
  · rename_i h
    simp [List.getElem?_eq_getElem (show x - a < vs.length by omega)]
  · rfl

theorem State.cellAt_storeCells (s : State) (i : Nat) (vs : List Channel) (x : Nat) :
    (s.storeCells i vs).cellAt x =
      if h : i ≤ x ∧ x < i + vs.length then vs[x - i]'(by omega) else s.cellAt x := by
  simp only [State.cellAt, State.storeCells_pixMem, State.storeCells_launch, Memory.lookup_writeRange]
  split
  · rename_i h
    simp [List.getElem?_eq_getElem (show x - i < vs.length by omega)]
  · rfl

theorem State.lineAt_storeLine (s : State) (sel sel' : Bool) (vs : List Byte) (i : Nat) :
    (s.storeLine sel vs).lineAt sel' i =
      if h : sel' = sel ∧ i < vs.length then vs[i]'h.2 else s.lineAt sel' i := by
  simp only [State.lineAt, State.storeLine_line, State.storeLine_launch]
  by_cases h1 : sel' = sel
  · by_cases h2 : i < vs.length
    · simp [h1, h2, Memory.lookup_writeRange]
    · simp [h1, h2, Memory.lookup_writeRange]
  · simp [h1]

/-- A draw over BYTE leaves every address outside its range. -/
theorem State.byteAt_drawBytes (s : State) (a n x : Nat) (h : x < a ∨ a + n ≤ x) :
    (s.drawBytes a n).byteAt x = s.byteAt x := by
  have h' : ¬(a ≤ x ∧ x < a + n) := by omega
  simp [State.byteAt, Memory.lookup_writeRange, h']

/-- A draw over PIX leaves every cell outside its range. -/
theorem State.cellAt_drawCells (s : State) (i n x : Nat) (h : x < i ∨ i + n ≤ x) :
    (s.drawCells i n).cellAt x = s.cellAt x := by
  have h' : ¬(i ≤ x ∧ x < i + n) := by omega
  simp [State.cellAt, Memory.lookup_writeRange, h']

theorem State.length_bytesAt (s : State) (a n : Nat) : (s.bytesAt a n).length = n := by
  simp [State.bytesAt]

theorem State.getElem_bytesAt (s : State) (a n i : Nat) (h : i < (s.bytesAt a n).length) :
    (s.bytesAt a n)[i] = s.byteAt (a + i) := by
  simp [State.bytesAt]

theorem State.length_lineBytes (s : State) (sel : Bool) (n : Nat) : (s.lineBytes sel n).length = n := by
  simp [State.lineBytes]

theorem State.getElem_lineBytes (s : State) (sel : Bool) (n i : Nat)
    (h : i < (s.lineBytes sel n).length) : (s.lineBytes sel n)[i] = s.lineAt sel i := by
  simp [State.lineBytes]

/-- The big-endian word is the number R11 gives. -/
theorem State.be32_toNat (s : State) (a : Nat) : (s.be32 a).toNat = s.be32Value a := by
  have h0 := (s.byteAt a).isLt
  have h1 := (s.byteAt (a + 1)).isLt
  have h2 := (s.byteAt (a + 2)).isLt
  have h3 := (s.byteAt (a + 3)).isLt
  simp only [State.be32, State.be32Value, BitVec.toNat_append]
  rw [← Nat.shiftLeft_add_eq_or_of_lt (by omega), ← Nat.shiftLeft_add_eq_or_of_lt (by omega),
    ← Nat.shiftLeft_add_eq_or_of_lt (by omega)]
  simp only [Nat.shiftLeft_eq]
  omega

end Sys2Proof.Machine
end

