-- ==== Sys2Proof/Laws/Port.lean ====
section
/-! SUPPORT. The laws of the register port: what is at each offset, what a port word reads, and one rule
for "every other port word is unchanged". -/

namespace Sys2Proof.Machine

/-- The port offset of a register (10_state.md R23). -/
def Reg.offset : Reg → Nat
  | .cmd => 0x000 | .status => 0x004 | .errcode => 0x008 | .erraddr => 0x00C
  | .ctrl => 0x010 | .width => 0x014 | .height => 0x018 | .format => 0x01C
  | .srcAddr => 0x020 | .srcLen => 0x024 | .dstAddr => 0x028 | .inEnd => 0x02C
  | .crcAcc => 0x030 | .crcResult => 0x034 | .crcExpect => 0x038 | .warnAddr => 0x03C
  | .warnCnt => 0x040 | .chunkLen => 0x044 | .chunkType => 0x048
  | .trnsKey0 => 0x04C | .trnsKey1 => 0x050 | .trnsKey2 => 0x054
  | .plteCount => 0x058 | .trnsCount => 0x05C
  | .pass => 0x060 | .passW => 0x064 | .passH => 0x068 | .row => 0x06C | .rowAddr => 0x070
  | .a7Col => 0x074 | .a7Row => 0x078 | .mapX => 0x07C | .mapY => 0x080 | .mapIdx => 0x084
  | .expLen => 0x088 | .pkY => 0x08C
  | .plte i => 0x400 + 4 * i.toNat
  | .alpha i => 0x800 + 4 * i.toNat

theorem portOffset_iff (off : Nat) : portOffset off = true ↔ off % 4 = 0 ∧ off ≤ 0xFFC := by
  simp [portOffset]

theorem regAt_plte (i : Byte) : regAt (0x400 + 4 * i.toNat) = some (.plte i) := by
  have := i.isLt
  rw [regAt, if_neg (by omega), if_pos (by omega), show (0x400 + 4 * i.toNat - 0x400) / 4 = i.toNat by omega,
    BitVec.ofNat_toNat, BitVec.setWidth_eq]

theorem regAt_alpha (i : Byte) : regAt (0x800 + 4 * i.toNat) = some (.alpha i) := by
  have := i.isLt
  rw [regAt, if_neg (by omega), if_neg (by omega), if_pos (by omega),
    show (0x800 + 4 * i.toNat - 0x800) / 4 = i.toNat by omega, BitVec.ofNat_toNat, BitVec.setWidth_eq]

/-- Every register stands at its offset. -/
theorem regAt_offset (r : Reg) : regAt r.offset = some r := by
  cases r <;> first | rfl | exact regAt_plte _ | exact regAt_alpha _

/-- What stands at an offset the port can carry is a register with that offset. -/
theorem offset_of_regAt {off : Nat} {r : Reg} (hp : portOffset off = true) (h : regAt off = some r) :
    off = r.offset := by
  rw [portOffset_iff] at hp
  simp only [regAt] at h
  split at h
  · rename_i hlt
    obtain ⟨k, rfl⟩ : ∃ k, off = 4 * k := ⟨off / 4, by omega⟩
    rw [Nat.mul_div_cancel_left k (by omega)] at h
    have hk : k < 36 := by
      rcases Nat.lt_or_ge k 36 with hk | hk
      · exact hk
      · rw [List.getElem?_eq_none (by simpa [lowRegs] using hk)] at h
        cases h
    clear hp hlt
    interval_cases k <;> (simp only [lowRegs] at h; cases h; rfl)
  · split at h
    · cases h
      simp only [Reg.offset, BitVec.toNat_ofNat]
      omega
    · split at h
      · cases h
        simp only [Reg.offset, BitVec.toNat_ofNat]
        omega
      · cases h

/-- Every register's offset is one the port can carry. -/
theorem portOffset_offset (r : Reg) : portOffset r.offset = true := by
  rw [portOffset_iff]
  cases r
  case plte i => have := i.isLt; show (0x400 + 4 * i.toNat) % 4 = 0 ∧ 0x400 + 4 * i.toNat ≤ 0xFFC; omega
  case alpha i => have := i.isLt; show (0x800 + 4 * i.toNat) % 4 = 0 ∧ 0x800 + 4 * i.toNat ≤ 0xFFC; omega
  all_goals decide

theorem regRead_offset (s : State) (r : Reg) : s.regRead r.offset = s.readReg r := by
  simp [State.regRead, regAt_offset]

/-- To show that the port reads as before except at `offs`, it is enough to look at each register. -/
theorem samePort_of_readReg {offs : List Nat} {s t : State}
    (h : ∀ r : Reg, r.offset ∉ offs → t.readReg r = s.readReg r) : SamePort offs s t := by
  intro off hp hn
  simp only [State.regRead]
  cases hr : regAt off with
  | none => rfl
  | some r =>
    have e := offset_of_regAt hp hr
    exact h r (e ▸ hn)

theorem SamePort.refl (offs : List Nat) (s : State) : SamePort offs s s := fun _ _ _ => rfl

/-- A state with the registers and RAM reads of another reads alike on the whole port. -/
theorem samePort_of_regs {s t : State} (offs : List Nat) (hr : t.regs = s.regs)
    (hp : ∀ i, t.paletteAt i = s.paletteAt i) (ha : ∀ i, t.alphaAt i = s.alphaAt i) :
    SamePort offs s t := by
  apply samePort_of_readReg
  intro r _
  cases r <;> simp [State.readReg, hr, hp, ha]

/-- To show that nothing changed but the port words at `offs`, it is enough to look at each register when
the memories and line buffers are the same data. -/
theorem onlyPort_of_readReg {offs : List Nat} {s t : State}
    (h : ∀ r : Reg, r.offset ∉ offs → t.readReg r = s.readReg r) (hb : t.byteMem = s.byteMem)
    (hp : t.pixMem = s.pixMem) (h0 : t.lb0 = s.lb0) (h1 : t.lb1 = s.lb1) (hr : SameRun s t) :
    OnlyPort offs s t := by
  have hl := hr.2.2.2
  refine ⟨samePort_of_readReg h, fun a => ?_, fun a => ?_, fun sel a => ?_, hr⟩
  · simp [State.byteAt, hb, hl]
  · simp [State.cellAt, hp, hl]
  · simp [State.lineAt, State.line, h0, h1, hl]

/-! ## What single offsets read -/

@[simp] theorem regRead_status (s : State) : s.regRead 0x004 = s.regs.status.toWord := rfl
@[simp] theorem regRead_errcode (s : State) : s.regRead 0x008 = s.regs.errcode.setWidth 32 := rfl
@[simp] theorem regRead_erraddr (s : State) : s.regRead 0x00C = s.regs.erraddr := rfl
@[simp] theorem regRead_srcAddr (s : State) : s.regRead 0x020 = s.regs.srcAddr := rfl
@[simp] theorem regRead_dstAddr (s : State) : s.regRead 0x028 = s.regs.dstAddr := rfl
@[simp] theorem regRead_crcAcc (s : State) : s.regRead 0x030 = s.regs.crcAcc := rfl
@[simp] theorem regRead_crcResult (s : State) : s.regRead 0x034 = s.regs.crcResult := rfl
@[simp] theorem regRead_crcExpect (s : State) : s.regRead 0x038 = s.regs.crcExpect := rfl
@[simp] theorem regRead_warnAddr (s : State) : s.regRead 0x03C = s.regs.warnAddr := rfl
@[simp] theorem regRead_warnCnt (s : State) : s.regRead 0x040 = s.regs.warnCnt := rfl
@[simp] theorem regRead_chunkLen (s : State) : s.regRead 0x044 = s.regs.chunkLen := rfl
@[simp] theorem regRead_chunkType (s : State) : s.regRead 0x048 = s.regs.chunkType := rfl
@[simp] theorem regRead_pass (s : State) : s.regRead 0x060 = s.regs.pass.setWidth 32 := rfl
@[simp] theorem regRead_passW (s : State) : s.regRead 0x064 = s.regs.passW := rfl
@[simp] theorem regRead_passH (s : State) : s.regRead 0x068 = s.regs.passH := rfl
@[simp] theorem regRead_row (s : State) : s.regRead 0x06C = s.regs.row := rfl
@[simp] theorem regRead_rowAddr (s : State) : s.regRead 0x070 = s.regs.rowAddr := rfl
@[simp] theorem regRead_mapX (s : State) : s.regRead 0x07C = s.regs.mapX := rfl
@[simp] theorem regRead_mapY (s : State) : s.regRead 0x080 = s.regs.mapY := rfl
@[simp] theorem regRead_mapIdx (s : State) : s.regRead 0x084 = s.regs.mapIdx := rfl
@[simp] theorem regRead_expLen (s : State) : s.regRead 0x088 = s.regs.expLen := rfl
@[simp] theorem regRead_pkY (s : State) : s.regRead 0x08C = s.regs.pkY := rfl

/-! ## Whether the image fits PIX (20_memory.md R65) -/

theorem imageFits_iff (s : State) :
    s.imageFits = true ↔ 4 * s.regs.width.toNat * s.regs.height.toNat ≤ s.params.pixSize :=
  decide_eq_true_iff

theorem imageFits_eq_false_iff (s : State) :
    s.imageFits = false ↔ s.params.pixSize < 4 * s.regs.width.toNat * s.regs.height.toNat := by
  rw [← Bool.not_eq_true, imageFits_iff, Nat.not_le]

/-! ## Taking a fault -/

/-- `raise` is exactly the taking of a fault. -/
theorem faultTaken_raise (s : State) (e : HwFault) (info : Nat) :
    FaultTaken s (s.raise e info) e.code.toNat info := by
  refine ⟨rfl, by cases e <;> rfl, rfl, ?_, fun _ => rfl, fun _ => rfl, fun sel i => ?_, rfl, rfl, rfl, rfl⟩
  · apply samePort_of_readReg
    intro r hr
    cases r <;> first | rfl | exact absurd (by decide) hr
  · cases sel <;> rfl

end Sys2Proof.Machine
end

