-- ==== Sys2Proof/Laws/Adam7.lean ====
section
/-! SUPPORT. The laws of the Adam7 unit: which columns and rows a pass has, that its grid positions are
inside the image and are no other pass's, and what selecting a pass does. -/

namespace Sys2Proof.Machine

theorem xStride_pos (p : Nat) : 0 < xStride p := by
  match p with
  | 0 | 1 | 2 | 3 | 4 | 5 | 6 | 7 => decide
  | n + 8 => show 0 < (1 : Nat); decide

theorem yStride_pos (p : Nat) : 0 < yStride p := by
  match p with
  | 0 | 1 | 2 | 3 | 4 | 5 | 6 | 7 => decide
  | n + 8 => show 0 < (1 : Nat); decide

/-- A ceiling of a quotient counts the multiples below a bound. -/
theorem lt_ceil_iff {c n d : Nat} (hd : 0 < d) : c < (n + d - 1) / d ↔ c * d < n := by
  rw [← Nat.add_one_le_iff, Nat.le_div_iff_mul_le hd, Nat.add_mul, Nat.one_mul]
  omega

/-- The columns of a pass are those whose grid column is in the image. -/
theorem lt_passWidth_iff (p w col : Nat) : col < passWidth p w ↔ gridX p col < w := by
  unfold passWidth gridX
  split
  · omega
  · rw [lt_ceil_iff (xStride_pos p)]
    omega

/-- The rows of a pass are those whose grid row is in the image. -/
theorem lt_passHeight_iff (p h row : Nat) : row < passHeight p h ↔ gridY p row < h := by
  unfold passHeight gridY
  split
  · omega
  · rw [lt_ceil_iff (yStride_pos p)]
    omega

theorem passWidth_le (p w : Nat) : passWidth p w ≤ w := by
  by_contra hc
  have h := (lt_passWidth_iff p w w).1 (by omega)
  have := Nat.le_mul_of_pos_right w (xStride_pos p)
  unfold gridX at h
  omega

theorem passHeight_le (p h : Nat) : passHeight p h ≤ h := by
  by_contra hc
  have hg := (lt_passHeight_iff p h h).1 (by omega)
  have := Nat.le_mul_of_pos_right h (yStride_pos p)
  unfold gridY at hg
  omega

@[simp] theorem passWidth_zero (w : Nat) : passWidth 0 w = w := by
  unfold passWidth
  split
  · rename_i h
    have : w ≤ 0 := h
    omega
  · show (w - 0 + 1 - 1) / 1 = w
    omega

@[simp] theorem passHeight_zero (h : Nat) : passHeight 0 h = h := by
  unfold passHeight
  split
  · rename_i h'
    have : h ≤ 0 := h'
    omega
  · show (h - 0 + 1 - 1) / 1 = h
    omega

/-- The dimensions of a pass of a 32-bit image fit their registers. -/
theorem word_passWidth (p : Nat) (w : Word) : (word (passWidth p w.toNat)).toNat = passWidth p w.toNat := by
  have := passWidth_le p w.toNat
  have := w.isLt
  rw [word, BitVec.toNat_ofNat, Nat.mod_eq_of_lt (by omega)]

theorem word_passHeight (p : Nat) (h : Word) : (word (passHeight p h.toNat)).toNat = passHeight p h.toNat := by
  have := passHeight_le p h.toNat
  have := h.isLt
  rw [word, BitVec.toNat_ofNat, Nat.mod_eq_of_lt (by omega)]

/-- In one pass a grid column belongs to one column. -/
theorem gridX_inj {p c c' : Nat} (h : gridX p c = gridX p c') : c = c' := by
  unfold gridX at h
  exact Nat.eq_of_mul_eq_mul_right (xStride_pos p) (by omega)

theorem gridY_inj {p r r' : Nat} (h : gridY p r = gridY p r') : r = r' := by
  unfold gridY at h
  exact Nat.eq_of_mul_eq_mul_right (yStride_pos p) (by omega)

theorem gridX_strictMono {p c c' : Nat} (h : c < c') : gridX p c + 1 ≤ gridX p c' := by
  unfold gridX
  have := Nat.mul_le_mul_right (xStride p) (Nat.succ_le_of_lt h)
  have := xStride_pos p
  rw [Nat.succ_mul] at *
  omega

/-- Two passes of the interlaced list have no grid position in common (43_adam7.md R178). -/
theorem grid_pass_eq {p p' c c' r r' : Nat} (hp : 1 ≤ p ∧ p ≤ 7) (hp' : 1 ≤ p' ∧ p' ≤ 7)
    (hx : gridX p c = gridX p' c') (hy : gridY p r = gridY p' r') : p = p' := by
  obtain ⟨h1, h2⟩ := hp
  obtain ⟨h3, h4⟩ := hp'
  unfold gridX at hx
  unfold gridY at hy
  interval_cases p <;> interval_cases p' <;> first | rfl | (simp [xStart, yStart, xStride, yStride] at hx hy; omega)

/-- Two pixels of the passes of a format that share a grid position are the same pixel. -/
theorem grid_inj {f : Format} {p p' c c' r r' : Nat} (hp : p ∈ f.passes) (hp' : p' ∈ f.passes)
    (hx : gridX p c = gridX p' c') (hy : gridY p r = gridY p' r') : p = p' ∧ c = c' ∧ r = r' := by
  have he : p = p' := by
    unfold Format.passes at hp hp'
    split at hp
    · rename_i hi
      rw [if_pos hi] at hp'
      simp only [List.mem_cons, List.not_mem_nil, or_false] at hp hp'
      exact grid_pass_eq (by omega) (by omega) hx hy
    · rename_i hi
      rw [if_neg hi] at hp'
      simp only [List.mem_cons, List.not_mem_nil, or_false] at hp hp'
      omega
  subst he
  exact ⟨rfl, gridX_inj hx, gridY_inj hy⟩

/-- The passes of a format are numbers below 8. -/
theorem lt_of_mem_passes {f : Format} {p : Nat} (hp : p ∈ f.passes) : p < 8 := by
  unfold Format.passes at hp
  split at hp <;> simp only [List.mem_cons, List.not_mem_nil, or_false] at hp <;> omega

/-- The four cells of a position of the image are cells of the image. -/
theorem pixIndex_lt {r : Regs} {x y : Nat} (hx : x < r.width.toNat) (hy : y < r.height.toNat) :
    r.pixIndex x y + 4 ≤ r.imageCells := by
  unfold Regs.pixIndex Regs.imageCells
  have h1 : (y + 1) * r.width.toNat ≤ r.height.toNat * r.width.toNat := Nat.mul_le_mul_right _ hy
  rw [Nat.succ_mul] at h1
  rw [Nat.mul_assoc, Nat.mul_comm r.width.toNat]
  omega

/-- Positions of the image with a common cell are the same position. -/
theorem pixIndex_inj {r : Regs} {x y x' y' c c' : Nat} (hx : x < r.width.toNat) (hx' : x' < r.width.toNat)
    (hc : c < 4) (hc' : c' < 4) (h : r.pixIndex x y + c = r.pixIndex x' y' + c') :
    x = x' ∧ y = y' ∧ c = c' := by
  unfold Regs.pixIndex at h
  have e : y * r.width.toNat + x = y' * r.width.toNat + x' := by omega
  have hy : y = y' := by
    have h1 : (y * r.width.toNat + x) / r.width.toNat = y := by
      rw [Nat.mul_comm, Nat.mul_add_div (by omega), Nat.div_eq_of_lt hx, Nat.add_zero]
    have h2 : (y' * r.width.toNat + x') / r.width.toNat = y' := by
      rw [Nat.mul_comm, Nat.mul_add_div (by omega), Nat.div_eq_of_lt hx', Nat.add_zero]
    rw [← h1, ← h2, e]
  subst hy
  omega

end Sys2Proof.Machine
end

