-- ==== Sys2Proof/Laws/Crc.lean ====
section
/-! SUPPORT. The laws of the CRC unit: feeding, the shift step as a linear map, and what the check that
ends three commands does. -/

namespace Sys2Proof.Machine

theorem crcFeed_append (acc : Word) (u v : List Byte) :
    crcFeed acc (u ++ v) = crcFeed (crcFeed acc u) v := by
  induction u generalizing acc with
  | nil => rfl
  | cons b u ih => exact ih (crcStep acc b)

/-- The shift step is linear over xor. -/
theorem crcShift_xor (u v : Word) : crcShift (u ^^^ v) = crcShift u ^^^ crcShift v := by
  simp only [crcShift, BitVec.getLsbD_xor, BitVec.ushiftRight_xor_distrib]
  cases u.getLsbD 0 <;> cases v.getLsbD 0 <;> simp [BitVec.xor_assoc]
  exact BitVec.xor_comm _ _

theorem crcShifts_xor (n : Nat) (u v : Word) : crcShifts n (u ^^^ v) = crcShifts n u ^^^ crcShifts n v := by
  induction n generalizing u v with
  | zero => rfl
  | succ n ih => simp only [crcShifts, crcShift_xor, ih]

/-- A value whose low `n` bits are zero is only shifted by `n` steps. -/
theorem crcShifts_of_low_zero (n : Nat) (v : Word) (h : ∀ i < n, v.getLsbD i = false) :
    crcShifts n v = v >>> n := by
  induction n generalizing v with
  | zero => simp [crcShifts]
  | succ n ih =>
    have h0 : crcShift v = v >>> 1 := by
      rw [crcShift, h 0 (by omega)]
      rfl
    rw [crcShifts, h0, ih]
    · rw [← BitVec.shiftRight_add, Nat.add_comm]
    · intro i hi
      rw [BitVec.getLsbD_ushiftRight]
      exact h _ (by omega)

/-- The check leaves memories, lines and all registers but the flags, fault and warning registers. -/
theorem crcCheck_eq (s : State) (off : Nat) :
    s.crcCheck off =
      if s.regs.crcResult = s.regs.crcExpect then { s with regs := s.regs.setCrcOk true }
      else { s with regs := s.regs.setCrcOk false }.warnCrc off := by
  by_cases h : s.regs.crcResult = s.regs.crcExpect <;> simp [State.crcCheck, h]

theorem checkVerdict_crcCheck (s : State) (off : Nat) :
    CheckVerdict s (s.crcCheck off) s.regs.crcResult s.regs.crcExpect off := by
  rw [crcCheck_eq]
  refine ⟨fun h => ?_, fun h hs => ?_, fun h hs => ?_⟩
  · simp [h, SameAt]
  · simp [h, SameAt, State.warnCrc, hs]
  · simp [h, SameAt, State.warnCrc, hs, HwFault.code]

/-- A verdict seen from an earlier state with the same flags, options, fault and warning registers. -/
theorem checkVerdict_of_same {s t u : State} {a b : Word} {off : Nat}
    (hs : t.regs.status = s.regs.status) (hc : t.regs.ctrl = s.regs.ctrl)
    (h : SameAt [0x008, 0x00C, 0x03C, 0x040] s t) (hv : CheckVerdict t u a b off) :
    CheckVerdict s u a b off := by
  obtain ⟨h1, h2, h3⟩ := hv
  rw [hs] at h1 h2 h3
  rw [hc] at h2 h3
  have e := fun o ho => h o ho
  refine ⟨fun hab => ⟨(h1 hab).1, fun o ho => ((h1 hab).2 o ho).trans (e o ho)⟩, fun hab hst => ?_,
    fun hab hst => ?_⟩
  · obtain ⟨g1, g2, g3, g4⟩ := h2 hab hst
    refine ⟨g1, g2, by rw [g3, e 0x040 (by simp)], fun o ho => (g4 o ho).trans (e o ?_)⟩
    simp only [List.mem_cons, List.not_mem_nil, or_false] at ho ⊢
    omega
  · obtain ⟨g1, g2, g3, g4⟩ := h3 hab hst
    refine ⟨g1, g2, g3, fun o ho => (g4 o ho).trans (e o ?_)⟩
    simp only [List.mem_cons, List.not_mem_nil, or_false] at ho ⊢
    omega

theorem onlyPort_crcCheck (s : State) (off : Nat) :
    OnlyPort [0x004, 0x008, 0x00C, 0x03C, 0x040] s (s.crcCheck off) := by
  have key : ∀ t : State, (t = { s with regs := s.regs.setCrcOk true } ∨
      t = { s with regs := s.regs.setCrcOk false }.warnCrc off) →
      OnlyPort [0x004, 0x008, 0x00C, 0x03C, 0x040] s t := by
    rintro t (rfl | rfl)
    · refine ⟨samePort_of_readReg fun r hr => ?_, fun _ => rfl, fun _ => rfl, fun sel _ => by cases sel <;> rfl,
        rfl, rfl, rfl, rfl⟩
      cases r <;> first | rfl | exact absurd (by decide) hr
    · cases hs : s.regs.ctrl.strict
      all_goals
        refine ⟨samePort_of_readReg fun r hr => ?_, fun a => ?_, fun i => ?_, fun sel i => ?_, ?_, ?_, ?_, ?_⟩
        · simp only [State.warnCrc, Regs.setCrcOk_eq, hs]
          cases r <;> first | rfl | exact absurd (by decide) hr
        all_goals
          simp only [State.warnCrc, Regs.setCrcOk_eq, hs]
          rfl
  apply key
  rw [crcCheck_eq]
  split <;> simp

end Sys2Proof.Machine
end

