-- ==== Sys2Proof/Laws/Filter.lean ====
section
/-! SUPPORT. The laws of the filter unit: the reconstruction byte by byte, and what one row of
`FLT.ROW` does. -/

namespace Sys2Proof.Machine

theorem length_unfilterFrom (ft fu : Nat) (prev xs done : List Byte) :
    (unfilterFrom ft fu prev xs done).length = done.length + xs.length := by
  induction xs generalizing done with
  | nil => simp [unfilterFrom]
  | cons x xs ih =>
    simp only [unfilterFrom, ih, List.length_cons]
    omega

/-- The bytes already reconstructed stay. -/
theorem unfilterFrom_prefix (ft fu : Nat) (prev xs done : List Byte) (i : Nat) (h : i < done.length) :
    (unfilterFrom ft fu prev xs done)[i]? = done.reverse[i]? := by
  induction xs generalizing done with
  | nil => rfl
  | cons x xs ih =>
    simp only [unfilterFrom]
    rw [ih _ (by simp only [List.length_cons]; omega), List.reverse_cons,
      List.getElem?_append_left (by simpa using h)]

/-- Each new byte is its filtered byte plus the predictor of its neighbours (42_filter.md R152, R153). -/
theorem unfilterFrom_getElem (ft fu : Nat) (hfu : 1 ≤ fu) (prev xs done : List Byte) (i : Nat)
    (h : i < xs.length) (j : Nat) (hj : j = done.length + i) :
    (unfilterFrom ft fu prev xs done).getD j 0 =
      xs.getD i 0 + predictor ft
        (if fu ≤ j then (unfilterFrom ft fu prev xs done).getD (j - fu) 0 else 0) (prev.getD j 0)
        (if fu ≤ j then prev.getD (j - fu) 0 else 0) := by
  induction xs generalizing done i with
  | nil => simp at h
  | cons x xs ih =>
    cases i with
    | succ i =>
      have := ih ((x + predictor ft (done.getD (fu - 1) 0) (prev.getD done.length 0)
        (if fu ≤ done.length then prev.getD (done.length - fu) 0 else 0)) :: done) i
        (by simpa using h) (by simp only [List.length_cons]; omega)
      simpa only [unfilterFrom, List.getD_cons_succ] using this
    | zero =>
      obtain rfl : j = done.length := by omega
      have hpre := fun (r : Byte) k (hk : k < done.length + 1) =>
        unfilterFrom_prefix ft fu prev xs (r :: done) k (by simpa using hk)
      have hnew : ∀ r : Byte, (unfilterFrom ft fu prev xs (r :: done)).getD done.length 0 = r := by
        intro r
        rw [List.getD_eq_getElem?_getD, hpre r _ (by omega), List.reverse_cons,
          List.getElem?_append_right (by simp)]
        simp
      have hold : ∀ r : Byte, (if fu ≤ done.length then
          (unfilterFrom ft fu prev xs (r :: done)).getD (done.length - fu) 0 else 0) =
          done.getD (fu - 1) 0 := by
        intro r
        split
        · rename_i hle
          rw [List.getD_eq_getElem?_getD, hpre r _ (by omega), List.reverse_cons,
            List.getElem?_append_left (by simp; omega), List.getElem?_reverse (by omega),
            List.getD_eq_getElem?_getD, show done.length - 1 - (done.length - fu) = fu - 1 by omega]
        · rw [List.getD_eq_getElem?_getD, List.getElem?_eq_none (by omega)]
          rfl
      simp only [unfilterFrom, List.getD_cons_zero]
      rw [hnew, hold]

theorem length_unfilter (ft : Nat) (x : List Byte) (prev : Option (List Byte)) (fu : Nat) :
    (unfilter ft x prev fu).length = x.length := by
  simp [unfilter, length_unfilterFrom]

/-- The reconstruction of R152 and R153, byte `i` of `unfilter`. -/
theorem unfilter_getD (ft fu : Nat) (hfu : 1 ≤ fu) (x : List Byte) (prev : Option (List Byte)) (i : Nat)
    (h : i < x.length) :
    (unfilter ft x prev fu).getD i 0 =
      x.getD i 0 + predictor ft (if fu ≤ i then (unfilter ft x prev fu).getD (i - fu) 0 else 0)
        ((prev.getD []).getD i 0) (if fu ≤ i then (prev.getD []).getD (i - fu) 0 else 0) :=
  unfilterFrom_getElem ft fu hfu (prev.getD []) x [] i h i (by simp)

theorem one_le_filterUnit (f : Format) : 1 ≤ f.filterUnit := Nat.le_max_left _ _

/-- The predictor's sum is the reduction modulo 256 of R153. -/
theorem reconstructed_eq (ft : Nat) (x a b c : Byte) :
    (x + predictor ft a b c).toNat = reconstructed ft x a b c := by
  have hx := x.isLt
  have ha := a.isLt
  have hb := b.isLt
  match ft with
  | 0 => simp [predictor, reconstructed]
  | 1 => simp [predictor, reconstructed, BitVec.toNat_add]
  | 2 => simp [predictor, reconstructed, BitVec.toNat_add]
  | 3 =>
    simp only [predictor, reconstructed, BitVec.toNat_add, BitVec.toNat_ofNat]
    omega
  | n + 4 => simp [predictor, reconstructed, BitVec.toNat_add]

/-- With filter type 0 the row is its filtered bytes. -/
theorem unfilter_none (fu : Nat) (x : List Byte) (prev : Option (List Byte)) :
    unfilter 0 x prev fu = x := by
  have key : ∀ (xs done : List Byte) (p : List Byte),
      unfilterFrom 0 fu p xs done = done.reverse ++ xs := by
    intro xs
    induction xs with
    | nil => simp [unfilterFrom]
    | cons y ys ih =>
      intro done p
      rw [unfilterFrom]
      simp [ih, predictor]
  simp [unfilter, key]

/-! ## One row -/

/-- The row `FLT.ROW` reconstructs. -/
def State.newRow (s : State) : List Byte :=
  unfilter (s.byteAt s.regs.srcAddr.toNat).toNat
    (s.bytesAt (s.regs.srcAddr.toNat + 1) (s.regs.format.rowBytes s.regs.passW.toNat))
    (if s.regs.status.prevValid then
      some (s.lineBytes s.regs.status.lsel (s.regs.format.rowBytes s.regs.passW.toNat)) else none)
    s.regs.format.filterUnit

theorem length_newRow (s : State) : s.newRow.length = s.regs.format.rowBytes s.regs.passW.toNat := by
  simp [State.newRow, length_unfilter, State.length_bytesAt]

/-- The state after the body of `FLT.ROW`. -/
def State.afterFilter (s : State) : State :=
  { s.storeLine (!s.regs.status.lsel) s.newRow with regs := { s.regs with
    status := { s.regs.status with lsel := !s.regs.status.lsel, prevValid := true }
    rowAddr := s.regs.srcAddr
    row := word (s.regs.row.toNat + 1)
    srcAddr := word (s.regs.srcAddr.toNat + 1 + s.regs.format.rowBytes s.regs.passW.toNat) } }

/-- The body of `FLT.ROW`: out of bounds, a bad filter type, or the new row. -/
theorem filterRow_eq (s : State) :
    filterRow s =
      if s.rlim < s.regs.srcAddr.toNat + 1 + s.regs.format.rowBytes s.regs.passW.toNat then
        .error (s.raise .bounds s.regs.srcAddr.toNat)
      else if 4 < (s.byteAt s.regs.srcAddr.toNat).toNat then
        .error (s.raise .invalidFilter s.regs.srcAddr.toNat)
      else .ok s.afterFilter := by
  have hw : word s.regs.srcAddr.toNat = s.regs.srcAddr := by simp [word]
  unfold filterRow State.afterFilter State.newRow
  simp only [State.storeLine_regs, Regs.setLsel_eq, Regs.setPrevValid_eq, hw]

/-- Everything about the state after the body of `FLT.ROW` but the two line buffers. -/
theorem afterFilter_eq (s : State) :
    s.afterFilter = { s with
      regs := { s.regs with
        status := { s.regs.status with lsel := !s.regs.status.lsel, prevValid := true }
        rowAddr := s.regs.srcAddr
        row := word (s.regs.row.toNat + 1)
        srcAddr := word (s.regs.srcAddr.toNat + 1 + s.regs.format.rowBytes s.regs.passW.toNat) }
      lb0 := s.afterFilter.lb0
      lb1 := s.afterFilter.lb1 } := by
  unfold State.afterFilter State.storeLine
  split <;> rfl

@[simp] theorem afterFilter_regs (s : State) : s.afterFilter.regs = { s.regs with
    status := { s.regs.status with lsel := !s.regs.status.lsel, prevValid := true }
    rowAddr := s.regs.srcAddr
    row := word (s.regs.row.toNat + 1)
    srcAddr := word (s.regs.srcAddr.toNat + 1 + s.regs.format.rowBytes s.regs.passW.toNat) } := rfl

theorem line_afterFilter (s : State) (sel : Bool) :
    s.afterFilter.line sel =
      if sel = !s.regs.status.lsel then Memory.writeRange (s.line sel) 0 s.newRow else s.line sel :=
  State.storeLine_line s (!s.regs.status.lsel) sel s.newRow

theorem lineAt_afterFilter_new (s : State) (i : Nat)
    (h : i < s.regs.format.rowBytes s.regs.passW.toNat) :
    s.afterFilter.lineAt (!s.regs.status.lsel) i = s.newRow.getD i 0 := by
  have hl : i < s.newRow.length := by rw [length_newRow]; exact h
  have e := State.lineAt_storeLine s (!s.regs.status.lsel) (!s.regs.status.lsel) s.newRow i
  rw [dif_pos ⟨rfl, hl⟩] at e
  rw [List.getD_eq_getElem _ _ hl, ← e]
  rfl

theorem lineAt_afterFilter_old (s : State) (sel : Bool) (i : Nat)
    (h : sel = s.regs.status.lsel ∨ s.regs.format.rowBytes s.regs.passW.toNat ≤ i) :
    s.afterFilter.lineAt sel i = s.lineAt sel i := by
  have e := State.lineAt_storeLine s (!s.regs.status.lsel) sel s.newRow i
  rw [dif_neg] at e
  · rw [← e]
    rfl
  · rw [length_newRow]
    rintro ⟨rfl, h2⟩
    rcases h with h | h
    · simp at h
    · omega

/-- The row just reconstructed is the one `PXU.ROW` unpacks. -/
theorem lineBytes_afterFilter (s : State) :
    s.afterFilter.lineBytes (!s.regs.status.lsel) (s.regs.format.rowBytes s.regs.passW.toNat) =
      s.newRow := by
  apply List.ext_getElem
  · rw [State.length_lineBytes, length_newRow]
  · intro i h1 h2
    rw [State.length_lineBytes] at h1
    rw [State.getElem_lineBytes, lineAt_afterFilter_new s i h1, List.getD_eq_getElem _ _ h2]

end Sys2Proof.Machine
end

