-- ==== Sys2Proof/Laws/Unpack.lean ====
section
/-! SUPPORT. The laws of the unpacker: the pixels of a row, which cells writing them changes, and what
the whole of `PXU.ROW` does after its checks. -/

namespace Sys2Proof.Machine

/-! ## The pixels of a row -/

/-- `unpackFrom` succeeds with the pixels one by one. -/
theorem unpackFrom_ok {s : State} {row : List Byte} {n k : Nat} {pxs : List Pixel}
    (h : unpackFrom s row k n = .ok pxs) :
    pxs.length = n ∧ ∀ j (hj : j < pxs.length), unpackPixel s row (k + j) = some pxs[j] := by
  induction n generalizing k pxs with
  | zero =>
    cases h
    exact ⟨rfl, fun j hj => absurd hj (Nat.not_lt_zero j)⟩
  | succ n ih =>
    simp only [unpackFrom] at h
    split at h
    · cases h
    · rename_i px hpx
      split at h
      · cases h
      · rename_i rest hrest
        cases h
        obtain ⟨h1, h2⟩ := ih hrest
        refine ⟨by simp [h1], fun j hj => ?_⟩
        cases j with
        | zero => exact hpx
        | succ j =>
          have := h2 j (by simpa using hj)
          rw [show k + 1 + j = k + (j + 1) by omega] at this
          simpa using this

/-- `unpackFrom` fails at the first pixel that has no value. -/
theorem unpackFrom_error {s : State} {row : List Byte} {n k j : Nat}
    (h : unpackFrom s row k n = .error j) :
    k ≤ j ∧ j < k + n ∧ unpackPixel s row j = none ∧
      ∀ i, k ≤ i → i < j → ∃ px, unpackPixel s row i = some px := by
  induction n generalizing k with
  | zero => cases h
  | succ n ih =>
    simp only [unpackFrom] at h
    split at h
    · rename_i hpx
      cases h
      exact ⟨Nat.le_refl _, by omega, hpx, fun i h1 h2 => by omega⟩
    · rename_i px hpx
      split at h
      · rename_i j' hrest
        cases h
        obtain ⟨h1, h2, h3, h4⟩ := ih hrest
        refine ⟨by omega, by omega, h3, fun i h5 h6 => ?_⟩
        rcases Nat.eq_or_lt_of_le h5 with rfl | h7
        · exact ⟨px, hpx⟩
        · exact h4 i h7 h6
      · cases h

/-- A row whose pixels all have a value is unpacked. -/
theorem unpackFrom_of_forall {s : State} {row : List Byte} {n k : Nat}
    (h : ∀ j < n, unpackPixel s row (k + j) ≠ none) : ∃ pxs, unpackFrom s row k n = .ok pxs := by
  cases e : unpackFrom s row k n with
  | ok pxs => exact ⟨pxs, rfl⟩
  | error j =>
    obtain ⟨h1, h2, h3, -⟩ := unpackFrom_error e
    exact absurd h3 (by simpa [show k + (j - k) = j by omega] using h (j - k) (by omega))

/-- A row is unpacked up to its first pixel without a value. -/
theorem unpackFrom_of_first {s : State} {row : List Byte} {n k j : Nat} (hj : k ≤ j ∧ j < k + n)
    (hn : unpackPixel s row j = none) (hb : ∀ i, k ≤ i → i < j → unpackPixel s row i ≠ none) :
    unpackFrom s row k n = .error j := by
  cases e : unpackFrom s row k n with
  | ok pxs =>
    obtain ⟨h1, h2⟩ := unpackFrom_ok e
    have := h2 (j - k) (by omega)
    rw [show k + (j - k) = j by omega, hn] at this
    cases this
  | error j' =>
    obtain ⟨h1, h2, h3, h4⟩ := unpackFrom_error e
    rcases Nat.lt_trichotomy j j' with h | h | h
    · obtain ⟨px, hpx⟩ := h4 j hj.1 h
      rw [hn] at hpx
      cases hpx
    · rw [h]
    · exact absurd h3 (hb j' h1 h)

/-- Only colour type 3 has pixels without a value: those with an index not below `PLTE_COUNT`. -/
theorem unpackPixel_eq_none_iff (s : State) (row : List Byte) (k : Nat) :
    unpackPixel s row k = none ↔ s.regs.format.colorType.toNat = 3 ∧
      s.regs.plteCount.toNat ≤ (s.regs.format.sample row k 0).toNat := by
  unfold unpackPixel unpackByType
  rw [Option.map_eq_none_iff]
  split <;> simp_all [unpackIndexed]

/-- A pixel has a value exactly when its index, if it has one, is in the palette. -/
theorem exists_unpackPixel_iff (s : State) (row : List Byte) (k : Nat) :
    (∃ px, unpackPixel s row k = some px) ↔ (s.regs.format.colorType.toNat = 3 →
      (s.regs.format.sample row k 0).toNat < s.regs.plteCount.toNat) := by
  rw [← Option.isSome_iff_exists, ← not_iff_not, Option.not_isSome_iff_eq_none, unpackPixel_eq_none_iff]
  simp only [Classical.not_imp, Nat.not_lt]

/-- A pixel depends on the registers and the two RAMs only, and of the registers on the format, the
options, the keys and the counts. -/
theorem unpackPixel_congr {s t : State} (row : List Byte) (k : Nat) (hf : t.regs.format = s.regs.format)
    (hc : t.regs.ctrl = s.regs.ctrl) (h0 : t.regs.trnsKey0 = s.regs.trnsKey0)
    (h1 : t.regs.trnsKey1 = s.regs.trnsKey1) (h2 : t.regs.trnsKey2 = s.regs.trnsKey2)
    (hp : t.regs.plteCount = s.regs.plteCount) (ht : t.regs.trnsCount = s.regs.trnsCount)
    (hpal : ∀ i, t.paletteAt i = s.paletteAt i) (hal : ∀ i, t.alphaAt i = s.alphaAt i) :
    unpackPixel t row k = unpackPixel s row k := by
  have e1 : t.regs.reduce = s.regs.reduce := by
    funext px
    simp only [Regs.reduce, hf, hc]
  unfold unpackPixel
  rw [e1]
  congr 1
  unfold unpackByType
  rw [hf]
  split
  · simp only [unpackGrey, hf, hc, h0]
  · simp only [unpackRgb, hf, hc, h0, h1, h2]
  · simp only [unpackIndexed, State.alphaOf, hf, hp, ht, hpal, hal]
  · simp only [unpackGreyAlpha, hf]
  · simp only [unpackRgba, hf]

/-! ## Writing the pixels of a row -/

@[simp] theorem Pixel.length_cells (px : Pixel) : px.cells.length = 4 := rfl

theorem rowPixIndex_eq (r : Regs) (k : Nat) : r.rowPixIndex k = r.rowCell k 0 := rfl

theorem rowPixIndex_add (r : Regs) (k c : Nat) : r.rowPixIndex k + c = r.rowCell k c := rfl

/-- The pixels of one row lie apart. -/
theorem rowPixIndex_strictMono (r : Regs) {k k' : Nat} (h : k < k') :
    r.rowPixIndex k + 4 ≤ r.rowPixIndex k' := by
  have := gridX_strictMono (p := r.pass.toNat) h
  unfold Regs.rowPixIndex Regs.pixIndex
  omega

/-- Writing pixels changes PIX only. -/
theorem storePixels_eq (s : State) (k : Nat) (pxs : List Pixel) :
    s.storePixels k pxs = { s with pixMem := (s.storePixels k pxs).pixMem } := by
  induction pxs generalizing s k with
  | nil => rfl
  | cons px pxs ih =>
    rw [State.storePixels, ih]
    rfl

/-- Drawing the cells of a row changes PIX only. -/
theorem drawRowFrom_eq (s : State) (d k n : Nat) :
    s.drawRowFrom d k n = { s with pixMem := (s.drawRowFrom d k n).pixMem } := by
  induction n generalizing s k with
  | zero => rfl
  | succ n ih =>
    rw [State.drawRowFrom, ih]
    rfl

@[simp] theorem storePixels_regs (s : State) (k : Nat) (pxs : List Pixel) :
    (s.storePixels k pxs).regs = s.regs := by rw [storePixels_eq]

@[simp] theorem drawRowFrom_regs (s : State) (d k n : Nat) : (s.drawRowFrom d k n).regs = s.regs := by
  rw [drawRowFrom_eq]

/-- A cell outside the written pixels stays. -/
theorem cellAt_storePixels_of_ne (s : State) (pxs : List Pixel) (k x : Nat)
    (h : ∀ j < pxs.length, ∀ c < 4, x ≠ s.regs.rowPixIndex (k + j) + c) :
    (s.storePixels k pxs).cellAt x = s.cellAt x := by
  induction pxs generalizing s k with
  | nil => rfl
  | cons px pxs ih =>
    rw [State.storePixels, ih]
    · rw [State.cellAt_storeCells, dif_neg]
      rintro ⟨h1, h2⟩
      exact h 0 (by simp) (x - s.regs.rowPixIndex k) (by simp at h2; omega) (by simp; omega)
    · intro j hj c hc
      have := h (j + 1) (by simpa using hj) c hc
      rw [show k + (j + 1) = k + 1 + j by omega] at this
      exact this

/-- The cells of the written pixels hold them. -/
theorem cellAt_storePixels (s : State) (pxs : List Pixel) (k j c : Nat) (hj : j < pxs.length)
    (hc : c < 4) : (pxs[j].cells)[c]? = some ((s.storePixels k pxs).cellAt (s.regs.rowPixIndex (k + j) + c)) := by
  induction pxs generalizing s k j with
  | nil => exact absurd hj (Nat.not_lt_zero j)
  | cons px pxs ih =>
    cases j with
    | succ j =>
      have := ih (s.storeCells (s.regs.rowPixIndex k) px.cells) (k + 1) j (by simpa using hj)
      rw [show k + 1 + j = k + (j + 1) by omega] at this
      exact this
    | zero =>
      rw [State.storePixels, cellAt_storePixels_of_ne]
      · rw [State.cellAt_storeCells, dif_pos ⟨by simp, by simpa using hc⟩]
        simp
      · intro j hj c' hc' he
        have := rowPixIndex_strictMono s.regs (show k + 0 < k + 1 + j by omega)
        simp only [State.storeCells_regs] at he
        omega

/-- A cell outside the row stays when the row is drawn. -/
theorem cellAt_drawRowFrom_of_ne (s : State) (d k n x : Nat)
    (h : ∀ j < n, ∀ c < 4, x ≠ s.regs.rowPixIndex (k + j) + c) :
    (s.drawRowFrom d k n).cellAt x = s.cellAt x := by
  induction n generalizing s k with
  | zero => rfl
  | succ n ih =>
    rw [State.drawRowFrom, ih]
    · rw [State.cellAt_storeCells, dif_neg]
      rintro ⟨h1, h2⟩
      exact h 0 (by omega) (x - s.regs.rowPixIndex k) (by simp at h2; omega) (by simp; omega)
    · intro j hj c hc
      have := h (j + 1) (by omega) c hc
      rw [show k + (j + 1) = k + 1 + j by omega] at this
      exact this

/-- Writing pixels keeps the canonical form of PIX. -/
theorem wf_storePixels {s : State} (h : Memory.wf s.pixMem) (k : Nat) (pxs : List Pixel) :
    Memory.wf (s.storePixels k pxs).pixMem := by
  induction pxs generalizing s k with
  | nil => exact h
  | cons px pxs ih => exact ih (Memory.wf_writeRange h _ _) (k + 1)

theorem wf_drawRowFrom {s : State} (h : Memory.wf s.pixMem) (d k n : Nat) :
    Memory.wf (s.drawRowFrom d k n).pixMem := by
  induction n generalizing s k with
  | zero => exact h
  | succ n ih => exact ih (Memory.wf_writeRange h _ _) (k + 1)

/-- Writing pixels lists only cells of those pixels. -/
theorem mem_storePixels {s : State} {k : Nat} {pxs : List Pixel} {e : Nat × Channel}
    (h : e ∈ (s.storePixels k pxs).pixMem) :
    e ∈ s.pixMem ∨ ∃ j < pxs.length, s.regs.rowPixIndex (k + j) ≤ e.1 ∧
      e.1 < s.regs.rowPixIndex (k + j) + 4 := by
  induction pxs generalizing s k with
  | nil => exact .inl h
  | cons px pxs ih =>
    rcases ih h with h1 | ⟨j, hj, h2⟩
    · rcases Memory.mem_writeRange h1 with h3 | h3
      · exact .inl h3
      · exact .inr ⟨0, by simp, h3⟩
    · refine .inr ⟨j + 1, by simpa using hj, ?_⟩
      rw [show k + (j + 1) = k + 1 + j by omega]
      exact h2

theorem mem_drawRowFrom {s : State} {d k n : Nat} {e : Nat × Channel}
    (h : e ∈ (s.drawRowFrom d k n).pixMem) :
    e ∈ s.pixMem ∨ ∃ j < n, s.regs.rowPixIndex (k + j) ≤ e.1 ∧ e.1 < s.regs.rowPixIndex (k + j) + 4 := by
  induction n generalizing s k with
  | zero => exact .inl h
  | succ n ih =>
    rcases ih h with h1 | ⟨j, hj, h2⟩
    · rcases Memory.mem_writeRange h1 with h3 | h3
      · exact .inl h3
      · refine .inr ⟨0, by omega, h3.1, ?_⟩
        simpa using h3.2
    · refine .inr ⟨j + 1, by omega, ?_⟩
      rw [show k + (j + 1) = k + 1 + j by omega]
      exact h2

/-! ## The body of `PXU.ROW` -/

/-- What `PXU.ROW` does after its checks, when every index is in the palette. -/
theorem unpackRow_ok {s t : State} (h : unpackRow s = .ok t) :
    ∃ pxs, t = s.storePixels 0 pxs ∧ pxs.length = s.regs.passW.toNat ∧
      ∀ j (hj : j < pxs.length), unpackPixel s s.currentRow j = some pxs[j] := by
  simp only [unpackRow] at h
  split at h
  · cases h
  · rename_i pxs hpx
    cases h
    obtain ⟨h1, h2⟩ := unpackFrom_ok hpx
    exact ⟨pxs, rfl, h1, by simpa [State.currentRow] using h2⟩

/-- It fails at the first pixel whose index is out of range, which only colour type 3 has. -/
theorem unpackRow_error {s : State} {k : Nat} (h : unpackRow s = .error k) :
    k < s.regs.passW.toNat ∧ s.regs.format.colorType.toNat = 3 ∧
      s.regs.plteCount.toNat ≤ (s.regs.format.sample s.currentRow k 0).toNat ∧
      ∀ j < k, (s.regs.format.sample s.currentRow j 0).toNat < s.regs.plteCount.toNat := by
  simp only [unpackRow] at h
  split at h
  · rename_i j hj
    cases h
    obtain ⟨-, h2, h3, h4⟩ := unpackFrom_error hj
    obtain ⟨h5, h6⟩ := (unpackPixel_eq_none_iff _ _ _).1 h3
    exact ⟨by omega, h5, h6, fun i hi => (exists_unpackPixel_iff _ _ _).1 (h4 i (Nat.zero_le i) hi) h5⟩
  · cases h

theorem unpackRow_of_forall {s : State}
    (h : ∀ k < s.regs.passW.toNat, unpackPixel s s.currentRow k ≠ none) : ∃ t, unpackRow s = .ok t := by
  obtain ⟨pxs, hp⟩ := unpackFrom_of_forall (s := s) (row := s.currentRow) (k := 0)
    (n := s.regs.passW.toNat) (by simpa using h)
  unfold State.currentRow at hp
  exact ⟨s.storePixels 0 pxs, by simp only [unpackRow, hp]⟩

theorem unpackRow_of_first {s : State} {k : Nat} (hk : k < s.regs.passW.toNat)
    (hn : unpackPixel s s.currentRow k = none) (hb : ∀ i < k, unpackPixel s s.currentRow i ≠ none) :
    unpackRow s = .error k := by
  have := unpackFrom_of_first (s := s) (row := s.currentRow) (k := 0) (n := s.regs.passW.toNat) (j := k)
    ⟨by omega, by omega⟩ hn (fun i _ hi => hb i hi)
  unfold State.currentRow at this
  simp only [unpackRow, this]

end Sys2Proof.Machine
end

