-- ==== Sys2Proof/Laws/DecodeImage.lean ====
section
/-! SUPPORT. The laws of `DEC.IMG`: what its loop has done after any number of rows and passes, and what a
fault in it is. -/

namespace Sys2Proof.Machine

/-! ## The stream -/

/-- The bytes of one scanline of pass `p`. -/
def Regs.scanBytes (r : Regs) (p : Nat) : Nat := 1 + r.format.rowBytes (passWidth p r.width.toNat)

/-- Where row `row` of pass `p` starts when the passes `done` lie before it. -/
def Regs.streamAddr (r : Regs) (done : List Nat) (p row : Nat) : Nat :=
  r.srcAddr.toNat + (done.map r.passBytes).sum + row * r.scanBytes p

theorem passBytes_eq (r : Regs) (p : Nat) : r.passBytes p = r.passRows p * r.scanBytes p := by
  unfold Regs.passBytes Regs.passRows Regs.scanBytes
  dsimp only
  split
  · rfl
  · rw [Nat.zero_mul]

theorem passRows_le (r : Regs) (p : Nat) : r.passRows p ≤ passHeight p r.height.toNat := by
  unfold Regs.passRows
  split <;> omega

/-- A pass with a row is not empty. -/
theorem passNonempty_of_lt {r : Regs} {p row : Nat} (h : row < r.passRows p) :
    r.passNonempty p ∧ row < passHeight p r.height.toNat := by
  unfold Regs.passRows at h
  split at h
  · exact ⟨‹_›, h⟩
  · exact absurd h (Nat.not_lt_zero row)

theorem passes_pairwise (f : Format) : f.passes.Pairwise (· < ·) := by
  unfold Format.passes
  split <;> decide

/-- The passes that the list has before pass `p` are the passes of the list below `p`. -/
theorem mem_done_iff {f : Format} {done rest : List Nat} {p q : Nat} (h : f.passes = done ++ p :: rest)
    (hq : q ∈ f.passes) : q ∈ done ↔ q < p := by
  obtain ⟨-, h2, h3⟩ := List.pairwise_append.1 (h ▸ passes_pairwise f)
  refine ⟨fun hd => h3 q hd p List.mem_cons_self, fun hlt => ?_⟩
  rcases List.mem_append.1 (h ▸ hq) with hd | hd
  · exact hd
  · rcases List.mem_cons.1 hd with rfl | hd
    · exact absurd hlt (Nat.lt_irrefl q)
    · exact absurd ((List.pairwise_cons.1 h2).1 q hd) (Nat.lt_asymm hlt)

/-- The passes of the list before pass `p`. -/
theorem takeWhile_passes {f : Format} {done rest : List Nat} {p : Nat} (h : f.passes = done ++ p :: rest) :
    f.passes.takeWhile (fun q => q != p) = done := by
  have hlt : ∀ q ∈ done, q < p := fun q hq =>
    (mem_done_iff h (h ▸ List.mem_append_left _ hq)).1 hq
  rw [h, List.takeWhile_append_of_pos (fun q hq => by have := hlt q hq; simp; omega)]
  simp

/-- The bytes before pass `p` are those of the passes that the list has before it. -/
theorem scanlineAddr_eq {r : Regs} {done rest : List Nat} {p : Nat} (row : Nat)
    (h : r.format.passes = done ++ p :: rest) : r.scanlineAddr p row = r.streamAddr done p row := by
  unfold Regs.scanlineAddr Regs.streamAddr Regs.scanBytes
  rw [takeWhile_passes h]

theorem expectedLen_eq {r : Regs} {done rest : List Nat} {p : Nat}
    (h : r.format.passes = done ++ p :: rest) :
    r.expectedLen = (done.map r.passBytes).sum + r.passRows p * r.scanBytes p +
      (rest.map r.passBytes).sum := by
  unfold Regs.expectedLen
  rw [h, List.map_append, List.sum_append, List.map_cons, List.sum_cons, passBytes_eq]
  omega

/-- The scanlines before pass `p` are those of the passes that the list has before it. -/
theorem rowsBefore_eq {r : Regs} {done rest : List Nat} {p : Nat}
    (h : r.format.passes = done ++ p :: rest) : r.rowsBefore p = (done.map r.passRows).sum := by
  unfold Regs.rowsBefore
  rw [takeWhile_passes h]

/-- Every scanline ends inside the stream. -/
theorem streamAddr_le {r : Regs} {done rest : List Nat} {p row : Nat}
    (h : r.format.passes = done ++ p :: rest) (hr : row ≤ r.passRows p) :
    r.streamAddr done p row ≤ r.srcAddr.toNat + r.expectedLen := by
  have := Nat.mul_le_mul_right (r.scanBytes p) hr
  rw [expectedLen_eq h]
  unfold Regs.streamAddr
  omega

theorem streamAddr_succ (r : Regs) (done : List Nat) (p row : Nat) :
    r.streamAddr done p (row + 1) =
      r.streamAddr done p row + 1 + r.format.rowBytes (passWidth p r.width.toNat) := by
  unfold Regs.streamAddr Regs.scanBytes
  rw [Nat.succ_mul]
  omega

/-- The reconstructed row, with the previous one where there is one. -/
theorem streamRow_eq (s : State) (p row : Nat) :
    s.streamRow p row = unfilter (s.byteAt (s.regs.scanlineAddr p row)).toNat
      (s.bytesAt (s.regs.scanlineAddr p row + 1)
        (s.regs.format.rowBytes (passWidth p s.regs.width.toNat)))
      (if 0 < row then some (s.streamRow p (row - 1)) else none) s.regs.format.filterUnit := by
  cases row <;> rfl

/-! ## What the loop has done -/

/-- Column `col`, row `row` of pass `p` of the image that `s` decodes stands in the PIX of `t`. -/
def State.PixelDone (s : State) (p row col : Nat) (t : State) : Prop :=
  ∃ px, unpackPixel s (s.streamRow p row) col = some px ∧
    ∀ c < 4, px.cells[c]? = some (t.cellAt (s.regs.pixIndex (gridX p col) (gridY p row) + c))

/-- `ROW_ADDR` is the address of the last scanline of the passes `done`, as before when they have none. -/
structure State.LastScanline (s : State) (done : List Nat) (t : State) : Prop where
  last : ∀ p ∈ done, 0 < s.regs.passRows p → (∀ q ∈ done, p < q → s.regs.passRows q = 0) →
    t.regs.rowAddr = word (s.regs.scanlineAddr p (s.regs.passRows p - 1))
  kept : (∀ p ∈ done, s.regs.passRows p = 0) → t.regs.rowAddr = s.regs.rowAddr

/-- `t` is reached from `s` in the loop of `DEC.IMG`, the passes `done` done, `row` rows of pass `p`
reconstructed. -/
structure State.RowAt (s : State) (done : List Nat) (p row : Nat) (t : State) : Prop where
  frame : t = { s with
    regs := { s.regs with
      status := { s.regs.status with
        prevValid := decide (0 < row)
        lsel := s.regs.status.lsel ^^
          decide (((done.map s.regs.passRows).sum + row) % 2 = 1) }
      pass := BitVec.ofNat 3 p
      passW := word (passWidth p s.regs.width.toNat)
      passH := word (passHeight p s.regs.height.toNat)
      row := word row
      rowAddr := t.regs.rowAddr
      srcAddr := word (s.regs.streamAddr done p row) }
    lb0 := t.lb0
    lb1 := t.lb1
    pixMem := t.pixMem }
  line : 0 < row → t.currentRow = s.streamRow p (row - 1)
  rowAddr : 0 < row → t.regs.rowAddr = word (s.regs.streamAddr done p (row - 1))
  carried : row = 0 → s.LastScanline done t
  outside : ∀ i, s.regs.imageCells ≤ i → t.cellAt i = s.cellAt i
  memory : s.MemoryOk → t.MemoryOk

/-- `t` is reached from `s` in the loop of `DEC.IMG`, exactly the passes `done` done. -/
structure State.PassesAt (s : State) (done : List Nat) (t : State) : Prop where
  frame : t = { s with
    regs := { s.regs with
      status := { s.regs.status with
        prevValid := t.regs.status.prevValid
        lsel := s.regs.status.lsel ^^ decide ((done.map s.regs.passRows).sum % 2 = 1) }
      pass := t.regs.pass
      passW := t.regs.passW
      passH := t.regs.passH
      row := t.regs.row
      rowAddr := t.regs.rowAddr
      srcAddr := word (s.regs.srcAddr.toNat + (done.map s.regs.passBytes).sum) }
    lb0 := t.lb0
    lb1 := t.lb1
    pixMem := t.pixMem }
  carried : s.LastScanline done t
  outside : ∀ i, s.regs.imageCells ≤ i → t.cellAt i = s.cellAt i
  memory : s.MemoryOk → t.MemoryOk

/-- The pixels of `row` rows of pass `p` and of the passes `done` stand in the PIX of `t`. -/
def State.PixelsAt (s : State) (done : List Nat) (p row : Nat) (t : State) : Prop :=
  ∀ q ∈ s.regs.format.passes, ∀ r < s.regs.passRows q, ∀ col < passWidth q s.regs.width.toNat,
    q ∈ done ∨ (q = p ∧ r < row) → s.PixelDone q r col t

/-- Row `row` of pass `p` has a filter type above 4, and `t` is the loop of `DEC.IMG` halted at it. -/
structure State.FilterFault (s : State) (done : List Nat) (p row : Nat) (v t : State) : Prop where
  rowAt : s.RowAt done p row v
  filter : 4 < (s.byteAt (s.regs.streamAddr done p row)).toNat
  raised : t = v.raise .invalidFilter (s.regs.streamAddr done p row)

/-- Pixel `k` is the first of row `row` of pass `p` with an index out of range, and `t` is the loop of
`DEC.IMG` halted at it, PIX aside. -/
structure State.IndexFault (s : State) (done : List Nat) (p row k : Nat) (v t : State) : Prop where
  rowAt : s.RowAt done p (row + 1) v
  filter : (s.byteAt (s.regs.streamAddr done p row)).toNat ≤ 4
  indexed : s.regs.format.colorType.toNat = 3
  inRow : k < passWidth p s.regs.width.toNat
  index : s.regs.plteCount.toNat ≤ (s.regs.format.sample (s.streamRow p row) k 0).toNat
  earlier : ∀ j < k, (s.regs.format.sample (s.streamRow p row) j 0).toNat < s.regs.plteCount.toNat
  raised : t = v.raise .paletteIndexOor
    (s.regs.streamAddr done p row + 1 + k * s.regs.format.bitDepth.toNat / 8)

/-- The loop of `DEC.IMG` started in `s` halts in `t`, at the first scanline of the stream that raises. -/
def State.DecodeFault (s : State) (t : State) : Prop :=
  ∃ done rest p row v, s.regs.format.passes = done ++ p :: rest ∧ row < s.regs.passRows p ∧
    s.ValidBefore p row ∧
    (s.FilterFault done p row v t ∨ ∃ k, s.IndexFault done p row k v t)

/-- What a halted loop leaves: the state after some rows of a pass, and a fault taken in it. -/
theorem State.DecodeFault.rowAt {s t : State} (h : s.DecodeFault t) :
    ∃ done rest p rows v e info, s.regs.format.passes = done ++ p :: rest ∧ rows ≤ s.regs.passRows p ∧
      s.RowAt done p rows v ∧ t = v.raise e info := by
  obtain ⟨done, rest, p, row, v, hl, hr, -, hf | ⟨k, hf⟩⟩ := h
  · exact ⟨done, rest, p, row, v, _, _, hl, Nat.le_of_lt hr, hf.rowAt, hf.raised⟩
  · exact ⟨done, rest, p, row + 1, v, _, _, hl, hr, hf.rowAt, hf.raised⟩

/-- The scanline that halts the loop is not valid. -/
theorem State.not_scanlineValid_of_fault {s v t : State} {done rest : List Nat} {p row : Nat}
    (hl : s.regs.format.passes = done ++ p :: rest)
    (h : s.FilterFault done p row v t ∨ ∃ k, s.IndexFault done p row k v t) : ¬s.ScanlineValid p row := by
  rintro ⟨h1, h2⟩
  rcases h with h | ⟨k, h⟩
  · have := h.filter
    rw [← scanlineAddr_eq row hl] at this
    omega
  · have := h2 h.indexed k h.inRow
    have := h.index
    omega

/-- Every scanline of the passes `done` is valid. -/
def State.ValidPasses (s : State) (done : List Nat) : Prop :=
  ∀ q ∈ done, ∀ r < s.regs.passRows q, s.ScanlineValid q r

theorem State.ValidPasses.start {s : State} {done rest : List Nat} {p : Nat}
    (hl : s.regs.format.passes = done ++ p :: rest) (h : s.ValidPasses done) : s.ValidBefore p 0 := by
  intro q hq r hr hb
  rcases hb with hb | hb
  · exact h q ((mem_done_iff hl hq).2 hb) r hr
  · exact absurd hb.2 (Nat.not_lt_zero r)

theorem State.ValidBefore.succ {s : State} {p row : Nat} (h : s.ValidBefore p row)
    (hv : s.ScanlineValid p row) : s.ValidBefore p (row + 1) := by
  intro q hq r hr hb
  by_cases he : q = p ∧ r = row
  · obtain ⟨rfl, rfl⟩ := he
    exact hv
  · exact h q hq r hr (by omega)

theorem State.ValidBefore.finish {s : State} {done rest : List Nat} {p : Nat}
    (hl : s.regs.format.passes = done ++ p :: rest) (h : s.ValidBefore p (s.regs.passRows p)) :
    s.ValidPasses (done ++ [p]) := by
  intro q hq r hr
  have hm : q ∈ s.regs.format.passes := by
    rw [hl]
    rcases List.mem_append.1 hq with hq | hq
    · exact List.mem_append_left _ hq
    · exact List.mem_append_right _ (List.mem_singleton.1 hq ▸ List.mem_cons_self)
  refine h q hm r hr ?_
  rcases List.mem_append.1 hq with hq | hq
  · exact .inl ((mem_done_iff hl hm).1 hq)
  · obtain rfl := List.mem_singleton.1 hq
    exact .inr ⟨rfl, hr⟩

theorem State.DecodeChecksPass.end_lt {s : State} (hs : s.DecodeChecksPass) :
    s.regs.srcAddr.toNat + s.regs.expectedLen < 2 ^ 32 := by
  have h1 := hs.inView
  have h2 := s.regs.inEnd.isLt
  unfold State.rlim at h1
  omega

/-- The registers of a state in the loop. -/
theorem State.RowAt.regs_eq {s t : State} {done : List Nat} {p row : Nat} (h : s.RowAt done p row t) :
    t.regs = { s.regs with
      status := { s.regs.status with
        prevValid := decide (0 < row)
        lsel := s.regs.status.lsel ^^
          decide (((done.map s.regs.passRows).sum + row) % 2 = 1) }
      pass := BitVec.ofNat 3 p
      passW := word (passWidth p s.regs.width.toNat)
      passH := word (passHeight p s.regs.height.toNat)
      row := word row
      rowAddr := t.regs.rowAddr
      srcAddr := word (s.regs.streamAddr done p row) } := congrArg State.regs h.frame

/-- A state that shares params, registers' format part and RAMs sees the same pixels. -/
theorem State.RowAt.unpackPixel_eq {s t : State} {done : List Nat} {p row : Nat} (h : s.RowAt done p row t)
    (bytes : List Byte) (k : Nat) : unpackPixel t bytes k = unpackPixel s bytes k := by
  rw [h.frame]
  exact unpackPixel_congr bytes k rfl rfl rfl rfl rfl rfl rfl (fun _ => rfl) (fun _ => rfl)

/-- Reconstructing a row keeps the memories in order when the row fits a line buffer. -/
theorem memoryOk_afterFilter {s : State} (h : s.MemoryOk)
    (hn : s.regs.format.rowBytes s.regs.passW.toNat ≤ s.params.maxRowBytes) : s.afterFilter.MemoryOk := by
  have hl : ∀ sel, Memory.wf (s.afterFilter.line sel) ∧
      ∀ c ∈ s.afterFilter.line sel, c.1 < s.params.maxRowBytes := by
    intro sel
    rw [line_afterFilter]
    split
    · refine ⟨Memory.wf_writeRange (h.lineWf sel) 0 _, fun c hc => ?_⟩
      rcases Memory.mem_writeRange hc with h1 | h1
      · exact h.lineIn sel c h1
      · rw [length_newRow] at h1
        omega
    · exact ⟨h.lineWf sel, h.lineIn sel⟩
  have e := afterFilter_eq s
  constructor
  case lineWf => exact fun sel => (hl sel).1
  case lineIn =>
    intro sel c hc
    have := (hl sel).2 c hc
    rw [e]
    exact this
  all_goals
    rw [e]
    first
    | exact h.params | exact h.byteWf | exact h.byteIn | exact h.pixWf | exact h.pixIn | exact h.plteWf
    | exact h.plteIn | exact h.alphaWf | exact h.alphaIn

/-- Replacing PIX keeps the memories in order when the new PIX is. -/
theorem memoryOk_of_pix {s t : State} (h : s.MemoryOk) (e : t = { s with pixMem := t.pixMem })
    (hw : Memory.wf t.pixMem) (hi : ∀ c ∈ t.pixMem, c.1 < s.params.pixSize) : t.MemoryOk := by
  constructor
  case pixWf => exact hw
  case pixIn =>
    rw [e]
    exact hi
  case lineWf =>
    rw [e]
    exact fun sel => by cases sel; exacts [h.lineWf false, h.lineWf true]
  case lineIn =>
    rw [e]
    exact fun sel => by cases sel; exacts [h.lineIn false, h.lineIn true]
  all_goals
    rw [e]
    first
    | exact h.params | exact h.byteWf | exact h.byteIn | exact h.plteWf | exact h.plteIn | exact h.alphaWf
    | exact h.alphaIn

/-- Writing the pixels of a row of the image keeps the memories in order when the image fits PIX. -/
theorem memoryOk_storePixels {s : State} (h : s.MemoryOk) (pxs : List Pixel)
    (hf : s.regs.imageCells ≤ s.params.pixSize)
    (hx : ∀ j < pxs.length, gridX s.regs.pass.toNat j < s.regs.width.toNat)
    (hy : gridY s.regs.pass.toNat (s.regs.row.toNat - 1) < s.regs.height.toNat) :
    (s.storePixels 0 pxs).MemoryOk := by
  refine memoryOk_of_pix h (storePixels_eq s 0 pxs) (wf_storePixels h.pixWf 0 pxs) fun e he => ?_
  rcases mem_storePixels he with h1 | ⟨j, hj, h2, h3⟩
  · exact h.pixIn e h1
  · rw [Nat.zero_add] at h3
    have := pixIndex_lt (hx j hj) hy
    unfold Regs.rowPixIndex at h3
    omega

/-- The same for a row that is drawn. -/
theorem memoryOk_drawRow {s : State} (h : s.MemoryOk) (hf : s.regs.imageCells ≤ s.params.pixSize)
    (hx : ∀ j < s.regs.passW.toNat, gridX s.regs.pass.toNat j < s.regs.width.toNat)
    (hy : gridY s.regs.pass.toNat (s.regs.row.toNat - 1) < s.regs.height.toNat) : s.drawRow.MemoryOk := by
  have key : (s.drawRowFrom s.draws 0 s.regs.passW.toNat).MemoryOk := by
    refine memoryOk_of_pix h (drawRowFrom_eq s _ 0 _) (wf_drawRowFrom h.pixWf _ 0 _) fun e he => ?_
    rcases mem_drawRowFrom he with h1 | ⟨j, hj, h2, h3⟩
    · exact h.pixIn e h1
    · rw [Nat.zero_add] at h3
      have := pixIndex_lt (hx j hj) hy
      unfold Regs.rowPixIndex at h3
      omega
  exact ⟨key.params, key.byteWf, key.byteIn, key.pixWf, key.pixIn, key.plteWf, key.plteIn, key.alphaWf,
    key.alphaIn, key.lineWf, key.lineIn⟩

/-! ## One row -/

/-- A pass number of a format survives its 3-bit register. -/
theorem pass_toNat {f : Format} {p : Nat} (hp : p ∈ f.passes) : (BitVec.ofNat 3 p).toNat = p := by
  have := lt_of_mem_passes hp
  rw [BitVec.toNat_ofNat, Nat.mod_eq_of_lt (by omega)]

theorem word_toNat {v : Nat} (h : v < 2 ^ 32) : (word v).toNat = v := by
  rw [word, BitVec.toNat_ofNat, Nat.mod_eq_of_lt h]

/-- The state once the filter unit has done the row, whatever becomes of its pixels. -/
theorem State.RowAt.afterFilter {s t : State} {done rest : List Nat} {p row : Nat}
    (hs : s.DecodeChecksPass) (hl : s.regs.format.passes = done ++ p :: rest)
    (hr : row < s.regs.passRows p) (h : s.RowAt done p row t) :
    s.RowAt done p (row + 1) t.afterFilter ∧ t.newRow = s.streamRow p row := by
  have hend := hs.end_lt
  have hle := streamAddr_le hl (show row + 1 ≤ s.regs.passRows p from hr)
  have hsucc := streamAddr_succ s.regs done p row
  have hrow : row < 2 ^ 32 := by
    have := passRows_le s.regs p
    have := passHeight_le p s.regs.height.toNat
    have := s.regs.height.isLt
    omega
  have hsrc : (word (s.regs.streamAddr done p row)).toNat = s.regs.streamAddr done p row :=
    word_toNat (by omega)
  have hw := word_passWidth p s.regs.width
  have hregs := h.regs_eq
  have hnew : t.newRow = s.streamRow p row := by
    rw [streamRow_eq, scanlineAddr_eq row hl]
    have hline := h.line
    unfold State.currentRow at hline
    unfold State.newRow
    rw [hregs] at hline ⊢
    dsimp only at hline ⊢
    rw [hw] at hline
    rw [hsrc, hw]
    have hb : t.byteAt = s.byteAt := by rw [h.frame]; rfl
    have hbs : t.bytesAt = s.bytesAt := by rw [h.frame]; rfl
    rw [hb, hbs]
    by_cases h0 : 0 < row
    · rw [hline h0]
      simp [h0]
    · simp [h0]
  refine ⟨⟨?_, fun _ => ?_, fun _ => ?_, fun h0 => absurd h0 (Nat.succ_ne_zero row), fun i hi => ?_, fun hm => ?_⟩,
    hnew⟩
  · have e := afterFilter_eq t
    rw [hregs] at e
    dsimp only at e
    rw [hsrc, hw, word_toNat hrow, ← hsucc] at e
    have hpar : (!(s.regs.status.lsel ^^
        decide (((done.map s.regs.passRows).sum + row) % 2 = 1))) =
        (s.regs.status.lsel ^^ decide (((done.map s.regs.passRows).sum + (row + 1)) % 2 = 1)) := by
      generalize (done.map s.regs.passRows).sum = m
      rcases Nat.mod_two_eq_zero_or_one (m + row) with h2 | h2
      · have : (m + (row + 1)) % 2 = 1 := by omega
        cases s.regs.status.lsel <;> simp [h2, this]
      · have : (m + (row + 1)) % 2 = 0 := by omega
        cases s.regs.status.lsel <;> simp [h2, this]
    rw [hpar] at e
    have hall : ∀ (R : Regs) (l0 l1 : Memory 8), { t with regs := R, lb0 := l0, lb1 := l1 } =
        { s with regs := R, lb0 := l0, lb1 := l1, pixMem := t.pixMem } := by
      intro R l0 l1
      rw [h.frame]
    have hpix : t.afterFilter.pixMem = t.pixMem := by rw [afterFilter_eq t]
    have haddr : t.afterFilter.regs.rowAddr = word (s.regs.streamAddr done p row) := by
      rw [afterFilter_regs, hregs]
    rw [hpix, haddr]
    exact e.trans (hall _ _ _)
  · rw [Nat.add_sub_cancel, ← hnew, ← lineBytes_afterFilter]
    rfl
  · rw [afterFilter_regs, hregs]
    rfl
  · rw [← h.outside i hi, afterFilter_eq t]
    rfl
  · refine memoryOk_afterFilter (h.memory hm) ?_
    rw [hregs]
    dsimp only
    rw [hw, h.frame]
    have hp : p ∈ s.regs.format.passes := by rw [hl]; exact List.mem_append_right _ List.mem_cons_self
    exact hs.rowsFit p hp (passNonempty_of_lt hr).1

theorem mem_passes {f : Format} {done rest : List Nat} {p : Nat} (h : f.passes = done ++ p :: rest) :
    p ∈ f.passes := by
  rw [h]
  exact List.mem_append_right _ List.mem_cons_self

theorem row_lt {r : Regs} {p row : Nat} (h : row ≤ r.passRows p) : row < 2 ^ 32 := by
  have := passRows_le r p
  have := passHeight_le p r.height.toNat
  have := r.height.isLt
  omega

/-- Where the pixels of the row just reconstructed go. -/
theorem State.RowAt.rowPixIndex_eq {s v : State} {done rest : List Nat} {p row : Nat}
    (hl : s.regs.format.passes = done ++ p :: rest) (hr : row < s.regs.passRows p)
    (h : s.RowAt done p (row + 1) v) (k : Nat) :
    v.regs.rowPixIndex k = s.regs.pixIndex (gridX p k) (gridY p row) := by
  rw [h.regs_eq]
  unfold Regs.rowPixIndex
  dsimp only
  rw [pass_toNat (mem_passes hl), word_toNat (row_lt hr)]
  rfl

/-- The grid position of a pixel of the passes is in the image. -/
theorem grid_in_image {r : Regs} {p row col : Nat} (hr : row < r.passRows p)
    (hc : col < passWidth p r.width.toNat) :
    gridX p col < r.width.toNat ∧ gridY p row < r.height.toNat :=
  ⟨(lt_passWidth_iff _ _ _).1 hc, (lt_passHeight_iff _ _ _).1 (passNonempty_of_lt hr).2⟩

/-- A row of pixels written after the row was reconstructed. -/
theorem State.RowAt.storePixels {s t v : State} {done rest : List Nat} {p row : Nat}
    (hs : s.DecodeChecksPass) (hl : s.regs.format.passes = done ++ p :: rest)
    (hr : row < s.regs.passRows p) (h : s.RowAt done p (row + 1) v) (hv : ∀ i, v.cellAt i = t.cellAt i)
    {pxs : List Pixel} (hlen : pxs.length = passWidth p s.regs.width.toNat)
    (hpx : ∀ j (hj : j < pxs.length), unpackPixel s (s.streamRow p row) j = some pxs[j]) :
    s.RowAt done p (row + 1) (v.storePixels 0 pxs) ∧
      (s.PixelsAt done p row t → s.PixelsAt done p (row + 1) (v.storePixels 0 pxs)) := by
  have hidx := h.rowPixIndex_eq hl hr
  have hgrid := fun k (hk : k < pxs.length) => grid_in_image hr (show k < passWidth p s.regs.width.toNat by omega)
  have e := storePixels_eq v 0 pxs
  have hother : ∀ x, (∀ j < pxs.length, ∀ c < 4, x ≠ s.regs.pixIndex (gridX p j) (gridY p row) + c) →
      (v.storePixels 0 pxs).cellAt x = v.cellAt x := by
    intro x hx
    refine cellAt_storePixels_of_ne v pxs 0 x fun j hj c hc => ?_
    rw [Nat.zero_add, hidx]
    exact hx j hj c hc
  refine ⟨⟨?_, fun h0 => ?_, fun h0 => ?_, fun h0 => absurd h0 (Nat.succ_ne_zero row), fun i hi => ?_, fun hm => ?_⟩,
    fun hp q hq r hrq col hcol hd => ?_⟩
  · have hall : ∀ (P : Memory 16), { v with pixMem := P } =
        { s with regs := v.regs, lb0 := v.lb0, lb1 := v.lb1, pixMem := P } := by
      intro P
      rw [h.frame]
    have h0 : (v.storePixels 0 pxs).lb0 = v.lb0 := by rw [e]
    have h1 : (v.storePixels 0 pxs).lb1 = v.lb1 := by rw [e]
    rw [h0, h1, storePixels_regs, ← h.regs_eq]
    exact e.trans (hall _)
  · rw [← h.line h0, e]
    rfl
  · rw [storePixels_regs]
    exact h.rowAddr h0
  · rw [hother, h.outside i hi]
    intro j hj c hc he
    have := pixIndex_lt (hgrid j hj).1 (hgrid j hj).2
    omega
  · refine memoryOk_storePixels (h.memory hm) pxs ?_ ?_ ?_
    · rw [h.frame]
      exact hs.imageFits
    · intro j hj
      have := (hgrid j hj).1
      rw [h.regs_eq]
      dsimp only
      rw [pass_toNat (mem_passes hl)]
      exact this
    · rw [h.regs_eq]
      dsimp only
      rw [pass_toNat (mem_passes hl), word_toNat (row_lt hr)]
      exact (lt_passHeight_iff _ _ _).1 (passNonempty_of_lt hr).2
  · by_cases hnew : q = p ∧ r = row
    · obtain ⟨rfl, rfl⟩ := hnew
      refine ⟨pxs[col]'(by omega), hpx col (by omega), fun c hc => ?_⟩
      have := cellAt_storePixels v pxs 0 col c (by omega) hc
      rw [Nat.zero_add, hidx] at this
      exact this
    · obtain ⟨px, h1, h2⟩ := hp q hq r hrq col hcol (by
        rcases hd with hd | hd
        · exact .inl hd
        · exact .inr ⟨hd.1, by have := hd.2; have := fun h => hnew ⟨hd.1, h⟩; omega⟩)
      refine ⟨px, h1, fun c hc => ?_⟩
      rw [h2 c hc, hother, hv]
      intro j hj c' hc' he
      have g1 := grid_in_image hrq hcol
      obtain ⟨hx, hy, -⟩ := pixIndex_inj g1.1 (hgrid j hj).1 hc hc' he
      obtain ⟨e1, -, e3⟩ := grid_inj hq (mem_passes hl) hx hy
      exact hnew ⟨e1, e3⟩

/-- One row of the loop: it is done, or it is where the loop halts. -/
theorem decodeRow_cases {s t : State} {done rest : List Nat} {p row : Nat} (hs : s.DecodeChecksPass)
    (hl : s.regs.format.passes = done ++ p :: rest) (hr : row < s.regs.passRows p)
    (h : s.RowAt done p row t) (hb : s.ValidBefore p row) :
    (∃ u, decodeRow t = .ok u ∧ s.RowAt done p (row + 1) u ∧ s.ValidBefore p (row + 1) ∧
      (s.PixelsAt done p row t → s.PixelsAt done p (row + 1) u)) ∨
    ∃ u, decodeRow t = .error u ∧ s.DecodeFault u := by
  have hend := hs.end_lt
  have hle := streamAddr_le hl (show row + 1 ≤ s.regs.passRows p from hr)
  have hsucc := streamAddr_succ s.regs done p row
  have hsrc : t.regs.srcAddr.toNat = s.regs.streamAddr done p row := by
    rw [h.regs_eq]
    exact word_toNat (by omega)
  have hn : t.regs.format.rowBytes t.regs.passW.toNat =
      s.regs.format.rowBytes (passWidth p s.regs.width.toNat) := by
    rw [h.regs_eq]
    dsimp only
    rw [word_passWidth]
  have hlim : t.rlim = s.rlim := by rw [h.frame]; rfl
  have hbyte : t.byteAt (s.regs.streamAddr done p row) = s.byteAt (s.regs.streamAddr done p row) := by
    rw [h.frame]
    rfl
  obtain ⟨hv, hnew⟩ := h.afterFilter hs hl hr
  have hin := hs.inView
  unfold decodeRow
  rw [filterRow_eq, hsrc, hn, hlim, hbyte, if_neg (by omega)]
  by_cases hft : 4 < (s.byteAt (s.regs.streamAddr done p row)).toNat
  · rw [if_pos hft]
    exact .inr ⟨_, rfl, done, rest, p, row, t, hl, hr, hb, .inl ⟨h, hft, rfl⟩⟩
  · rw [if_neg hft]
    dsimp only
    have hcur : t.afterFilter.currentRow = s.streamRow p row := hv.line (Nat.succ_pos row)
    have hpw : t.afterFilter.regs.passW.toNat = passWidth p s.regs.width.toNat := by
      rw [hv.regs_eq]
      exact word_passWidth p _
    cases hu : unpackRow t.afterFilter with
    | ok u =>
      obtain ⟨pxs, rfl, h1, h2⟩ := unpackRow_ok hu
      have hpx : ∀ j (hj : j < pxs.length), unpackPixel s (s.streamRow p row) j = some pxs[j] := by
        intro j hj
        rw [← hv.unpackPixel_eq, ← hcur]
        exact h2 j hj
      obtain ⟨h3, h4⟩ := hv.storePixels (t := t) hs hl hr (fun i => by rw [afterFilter_eq]; rfl)
        (by rw [h1, hpw]) hpx
      refine .inl ⟨_, rfl, h3, hb.succ ⟨?_, fun hc k hk => ?_⟩, h4⟩
      · rw [scanlineAddr_eq row hl]
        omega
      · exact (exists_unpackPixel_iff _ _ _).1 ⟨_, hpx k (by omega)⟩ hc
    | error k =>
      obtain ⟨h1, h2, h3, h4⟩ := unpackRow_error hu
      rw [hcur] at h3 h4
      have hf : t.afterFilter.regs.format = s.regs.format := by rw [hv.regs_eq]
      have hc : t.afterFilter.regs.plteCount = s.regs.plteCount := by rw [hv.regs_eq]
      rw [hf] at h2 h3 h4
      rw [hc] at h3 h4
      refine .inr ⟨_, rfl, done, rest, p, row, t.afterFilter, hl, hr, hb,
        .inr ⟨k, hv, by omega, h2, hpw ▸ h1, h3, h4, ?_⟩⟩
      have ha : t.afterFilter.regs.rowAddr.toNat = s.regs.streamAddr done p row := by
        rw [hv.rowAddr (Nat.succ_pos row)]
        exact word_toNat (by simp only [Nat.add_sub_cancel]; omega)
      unfold Regs.indexByteAddr
      rw [ha, hf]

/-- The remaining rows of a pass. -/
theorem decodeRows_cases {s t : State} {done rest : List Nat} {p row n : Nat} (hs : s.DecodeChecksPass)
    (hl : s.regs.format.passes = done ++ p :: rest) (hr : row + n ≤ s.regs.passRows p)
    (h : s.RowAt done p row t) (hb : s.ValidBefore p row) :
    (∃ u, decodeRows t n = .ok u ∧ s.RowAt done p (row + n) u ∧ s.ValidBefore p (row + n) ∧
      (s.PixelsAt done p row t → s.PixelsAt done p (row + n) u)) ∨
    ∃ u, decodeRows t n = .error u ∧ s.DecodeFault u := by
  induction n generalizing row t with
  | zero => exact .inl ⟨t, rfl, h, hb, id⟩
  | succ n ih =>
    rcases decodeRow_cases hs hl (show row < s.regs.passRows p by omega) h hb with
      ⟨u, h1, h2, hv, h3⟩ | ⟨u, h1, h2⟩
    · rcases ih (by omega) h2 hv with ⟨u', h4, h5, hv', h6⟩ | ⟨u', h4, h5⟩
      · rw [show row + 1 + n = row + (n + 1) by omega] at h5 h6 hv'
        exact .inl ⟨u', by simp only [decodeRows, h1, h4], h5, hv', fun hp => h6 (h3 hp)⟩
      · exact .inr ⟨u', by simp only [decodeRows, h1, h4], h5⟩
    · exact .inr ⟨u, by simp only [decodeRows, h1], h2⟩

/-! ## Passes -/

/-- Selecting the next pass. -/
theorem State.PassesAt.selectPass {s t : State} {done : List Nat} (h : s.PassesAt done t) (p : Nat) :
    s.RowAt done p 0 (t.selectPass p) := by
  refine ⟨?_, fun h0 => absurd h0 (Nat.lt_irrefl 0), fun h0 => absurd h0 (Nat.lt_irrefl 0),
    fun _ => ⟨h.carried.last, h.carried.kept⟩,
    h.outside, fun hm => ?_⟩
  · have e : t.regs.width = s.regs.width ∧ t.regs.height = s.regs.height := by rw [h.frame]; exact ⟨rfl, rfl⟩
    have hall : ∀ R : Regs, { t with regs := R } =
        { s with regs := R, lb0 := t.lb0, lb1 := t.lb1, pixMem := t.pixMem } := by
      intro R
      rw [h.frame]
    have hregs := congrArg State.regs h.frame
    refine (hall _).trans ?_
    have e0 : s.regs.streamAddr done p 0 = s.regs.srcAddr.toNat + (done.map s.regs.passBytes).sum := by
      simp [Regs.streamAddr]
    rw [e0, Nat.add_zero]
    simp only [State.selectPass_lb0, State.selectPass_lb1, State.selectPass_pixMem, State.selectPass_regs,
      Regs.setPrevValid_eq]
    rw [e.1, e.2]
    generalize t.regs.rowAddr = ra at *
    rw [hregs]
    rfl
  · have := h.memory hm
    exact ⟨this.params, this.byteWf, this.byteIn, this.pixWf, this.pixIn, this.plteWf, this.plteIn,
      this.alphaWf, this.alphaIn, this.lineWf, this.lineIn⟩

/-- All rows of a pass done: the pass is done. -/
theorem State.RowAt.passesAt {s t : State} {done rest : List Nat} {p : Nat}
    (hl : s.regs.format.passes = done ++ p :: rest) (h : s.RowAt done p (s.regs.passRows p) t) :
    s.PassesAt (done ++ [p]) t := by
  have hregs := h.regs_eq
  refine ⟨?_, ⟨fun q hq h0 hlast => ?_, fun hz => ?_⟩, h.outside, h.memory⟩
  · have e1 : ((done ++ [p]).map s.regs.passRows).sum = (done.map s.regs.passRows).sum + s.regs.passRows p := by
      simp
    have e2 : s.regs.srcAddr.toNat + ((done ++ [p]).map s.regs.passBytes).sum =
        s.regs.streamAddr done p (s.regs.passRows p) := by
      simp only [List.map_append, List.sum_append, List.map_cons, List.map_nil, List.sum_cons, List.sum_nil,
        passBytes_eq, Regs.streamAddr]
      omega
    rw [e1, e2]
    have hf := h.frame
    generalize t.regs.rowAddr = ra at *
    rw [hregs]
    exact hf
  · rcases List.mem_append.1 hq with hq | hq
    · have hz := hlast p (by simp) ((mem_done_iff hl (hl ▸ List.mem_append_left _ hq)).1 hq)
      exact (h.carried hz).last q hq h0 fun r hr hqr => hlast r (List.mem_append_left _ hr) hqr
    · obtain rfl := List.mem_singleton.1 hq
      rw [scanlineAddr_eq _ hl]
      exact h.rowAddr h0
  · exact (h.carried (hz p (by simp))).kept fun q hq => hz q (List.mem_append_left _ hq)

/-- Pixels done are pixels done, whatever pass comes next. -/
theorem State.PixelsAt.start {s t : State} {done : List Nat} (h : s.PixelsAt done 0 0 t) (p : Nat) :
    s.PixelsAt done p 0 (t.selectPass p) := by
  intro q hq r hr col hc hd
  refine h q hq r hr col hc ?_
  rcases hd with hd | hd
  · exact .inl hd
  · exact absurd hd.2 (Nat.not_lt_zero r)

theorem State.PixelsAt.finish {s t : State} {done : List Nat} {p : Nat}
    (h : s.PixelsAt done p (s.regs.passRows p) t) : s.PixelsAt (done ++ [p]) 0 0 t := by
  intro q hq r hr col hc hd
  refine h q hq r hr col hc ?_
  rcases hd with hd | hd
  · rcases List.mem_append.1 hd with hd | hd
    · exact .inl hd
    · obtain rfl := List.mem_singleton.1 hd
      exact .inr ⟨rfl, hr⟩
  · exact absurd hd.2 (Nat.not_lt_zero r)

/-- One pass of the loop. -/
theorem decodePass_cases {s t : State} {done rest : List Nat} {p : Nat} (hs : s.DecodeChecksPass)
    (hl : s.regs.format.passes = done ++ p :: rest) (h : s.PassesAt done t) (hb : s.ValidPasses done) :
    (∃ u, decodePass t p = .ok u ∧ s.RowAt done p (s.regs.passRows p) u ∧ s.ValidPasses (done ++ [p]) ∧
      (s.PixelsAt done 0 0 t → s.PixelsAt (done ++ [p]) 0 0 u)) ∨
    ∃ u, decodePass t p = .error u ∧ s.DecodeFault u := by
  have h0 := h.selectPass p
  have hW : (t.selectPass p).regs.passW.toNat = passWidth p s.regs.width.toNat := by
    rw [h0.regs_eq]
    exact word_passWidth p _
  have hH : (t.selectPass p).regs.passH.toNat = passHeight p s.regs.height.toNat := by
    rw [h0.regs_eq]
    exact word_passHeight p _
  have hz : ((t.selectPass p).regs.passW = 0 ∨ (t.selectPass p).regs.passH = 0) ↔ s.regs.passRows p = 0 := by
    rw [← BitVec.toNat_inj, ← BitVec.toNat_inj, hW, hH]
    unfold Regs.passRows
    simp only [BitVec.ofNat_eq_ofNat, BitVec.toNat_ofNat, Nat.zero_mod]
    split <;> omega
  unfold decodePass
  dsimp only
  by_cases he : s.regs.passRows p = 0
  · rw [if_pos (hz.2 he)]
    refine .inl ⟨_, rfl, he.symm ▸ h0, (he.symm ▸ hb.start hl : s.ValidBefore p _).finish hl,
      fun hp => ?_⟩
    have := hp.start p
    rw [← he] at this
    exact this.finish
  · rw [if_neg (fun hc => he (hz.1 hc)), hH]
    have hR : s.regs.passRows p = passHeight p s.regs.height.toNat := by
      unfold Regs.passRows at he ⊢
      split
      · rfl
      · rename_i hc
        rw [if_neg hc] at he
        exact absurd rfl he
    rcases decodeRows_cases hs hl (by rw [Nat.zero_add, hR]) h0 (hb.start hl) with
      ⟨u, h1, h2, hv, h3⟩ | h1
    · rw [Nat.zero_add, ← hR] at h2 h3 hv
      exact .inl ⟨u, h1, h2, hv.finish hl, fun hp => (h3 (hp.start p)).finish⟩
    · exact .inr h1

/-- The remaining passes of the loop. -/
theorem decodePasses_cases {s t : State} {done rest : List Nat} (hs : s.DecodeChecksPass)
    (hl : s.regs.format.passes = done ++ rest) (h : s.PassesAt done t) (hb : s.ValidPasses done) :
    (∃ u, decodePasses t rest = .ok u ∧ s.PassesAt s.regs.format.passes u ∧
      s.ValidPasses s.regs.format.passes ∧
      (s.PixelsAt done 0 0 t → s.PixelsAt s.regs.format.passes 0 0 u) ∧
      (rest ≠ [] → ∃ init p, s.regs.format.passes = init ++ [p] ∧
        s.RowAt init p (s.regs.passRows p) u)) ∨
    ∃ u, decodePasses t rest = .error u ∧ s.DecodeFault u := by
  induction rest generalizing done t with
  | nil =>
    rw [List.append_nil] at hl
    exact .inl ⟨t, rfl, hl ▸ h, hl ▸ hb, fun hp => hl ▸ hp, fun hc => absurd rfl hc⟩
  | cons p rest ih =>
    rcases decodePass_cases hs hl h hb with ⟨u, h1, h2, hv, h3⟩ | ⟨u, h1, h2⟩
    · rcases ih (by rw [List.append_assoc]; exact hl) (h2.passesAt hl) hv with
        ⟨v, h4, h5, hv', h6, h7⟩ | ⟨v, h4, h5⟩
      · refine .inl ⟨v, by simp only [decodePasses, h1, h4], h5, hv', fun hp => h6 (h3 hp), fun _ => ?_⟩
        cases rest with
        | nil =>
          cases h4
          exact ⟨done, p, hl, h2⟩
        | cons q rest => exact h7 (List.cons_ne_nil q rest)
      · exact .inr ⟨v, by simp only [decodePasses, h1, h4], h5⟩
    · exact .inr ⟨u, by simp only [decodePasses, h1], h2⟩

/-- The start of the loop. -/
theorem passesAt_start (s : State) : s.PassesAt [] s := by
  refine ⟨?_, ⟨fun p hp => absurd hp (List.not_mem_nil), fun _ => rfl⟩, fun _ _ => rfl, id⟩
  have e : (s.regs.status.lsel ^^ decide ((([] : List Nat).map s.regs.passRows).sum % 2 = 1)) =
      s.regs.status.lsel := by simp
  have e2 : word (s.regs.srcAddr.toNat + (([] : List Nat).map s.regs.passBytes).sum) = s.regs.srcAddr := by
    simp [word]
  rw [e, e2]

theorem pixelsAt_start (s t : State) : s.PixelsAt [] 0 0 t := by
  intro q _ r _ col _ hd
  rcases hd with hd | hd
  · exact absurd hd (List.not_mem_nil)
  · exact absurd hd.2 (Nat.not_lt_zero r)

theorem passes_ne_nil (f : Format) : f.passes ≠ [] := by
  unfold Format.passes
  split <;> exact List.cons_ne_nil _ _

theorem passes_sum (r : Regs) : (r.format.passes.map r.passBytes).sum = r.expectedLen := rfl

/-- The whole loop from the state it starts in. -/
theorem decodePasses_all {s : State} (hs : s.DecodeChecksPass) :
    (∃ u init p, decodePasses s s.regs.format.passes = .ok u ∧ s.PassesAt s.regs.format.passes u ∧
      s.ValidPasses s.regs.format.passes ∧ s.PixelsAt s.regs.format.passes 0 0 u ∧ s.regs.format.passes = init ++ [p] ∧
      s.RowAt init p (s.regs.passRows p) u) ∨
    ∃ u, decodePasses s s.regs.format.passes = .error u ∧ s.DecodeFault u := by
  rcases decodePasses_cases hs (List.nil_append _).symm (passesAt_start s) (fun q hq => absurd hq List.not_mem_nil)
    with ⟨u, h1, h2, hv, h3, h4⟩ | h
  · obtain ⟨init, p, h5, h6⟩ := h4 (passes_ne_nil _)
    exact .inl ⟨u, init, p, h1, h2, hv, h3 (pixelsAt_start s s), h5, h6⟩
  · exact .inr h

/-! ## The command -/

/-- The state `DEC.IMG` starts its loop in. -/
def State.withExpLen (s : State) : State :=
  { s with regs := { s.regs with expLen := word s.regs.expectedLen } }

theorem someRowTooLong_eq_false_iff (s : State) : s.someRowTooLong = false ↔
    ∀ p ∈ s.regs.format.passes, s.regs.passNonempty p →
      s.regs.format.rowBytes (passWidth p s.regs.width.toNat) ≤ s.params.maxRowBytes := by
  unfold State.someRowTooLong Regs.passNonempty
  rw [List.any_eq_false]
  refine forall_congr' fun p => forall_congr' fun _ => ?_
  simp only [Bool.and_eq_true, decide_eq_true_eq]
  constructor
  · intro h h1
    by_contra hc
    exact h ⟨h1, by omega⟩
  · rintro h ⟨h1, h2⟩
    have := h h1
    omega

/-- `DEC.IMG` once its checks pass. -/
theorem execDecImg_of_checks {s : State} (hs : s.DecodeChecksPass) :
    execDecImg s = match decodePasses s.withExpLen s.regs.format.passes with
      | .ok u => .next u
      | .error u => .next (u.drawCells 0 u.regs.imageCells) := by
  have h1 := hs.length
  have h2 := hs.exactLength
  have h3 := hs.inView
  have h4 : s.imageFits = true := decide_eq_true hs.imageFits
  have h5 := (someRowTooLong_eq_false_iff s).2 hs.rowsFit
  unfold execDecImg State.withExpLen
  simp only [hs.cfg, h4, h5, Bool.not_true, Bool.false_eq_true, if_false]
  rw [if_neg (by omega), if_neg (by omega), if_neg (by omega), if_neg (by omega)]
  all_goals rfl

/-- The stream does not depend on `EXP_LEN`. -/
@[simp] theorem streamRow_withExpLen (s : State) (p row : Nat) :
    s.withExpLen.streamRow p row = s.streamRow p row := by
  induction row with
  | zero => rfl
  | succ row ih =>
    unfold State.streamRow
    rw [ih]
    rfl

theorem scanlineValid_withExpLen (s : State) (p row : Nat) :
    s.withExpLen.ScanlineValid p row ↔ s.ScanlineValid p row := by
  unfold State.ScanlineValid
  rw [streamRow_withExpLen]
  rfl

theorem validBefore_withExpLen (s : State) (p row : Nat) :
    s.withExpLen.ValidBefore p row ↔ s.ValidBefore p row := by
  unfold State.ValidBefore
  simp only [scanlineValid_withExpLen]
  rfl

/-- Nor do the checks. -/
theorem State.DecodeChecksPass.withExpLen {s : State} (hs : s.DecodeChecksPass) :
    s.withExpLen.DecodeChecksPass :=
  ⟨hs.cfg, hs.length, hs.rowsFit, hs.exactLength, hs.inView, hs.imageFits⟩

/-- Every outcome of `DEC.IMG`: one of its faults before the loop, or its checks pass. -/
theorem execDecImg_cases (s : State) :
    (∃ e, execDecImg s = .next (s.raise e 0) ∧ (e = .cfg ∧ s.regs.cfgLegal = false ∨
        e = .range ∧ s.regs.cfgLegal = true)) ∨
    (∃ e info, execDecImg s = .next (s.withExpLen.raise e info) ∧ s.regs.cfgLegal = true ∧
      (e = .truncatedIdat ∨ e = .excessIdat ∨ e = .bounds)) ∨
    s.DecodeChecksPass := by
  unfold execDecImg
  dsimp only
  cases hc : s.regs.cfgLegal with
  | false => exact .inl ⟨.cfg, by simp, .inl ⟨rfl, rfl⟩⟩
  | true =>
    simp only [Bool.not_true, Bool.false_eq_true, if_false]
    split
    · exact .inl ⟨.range, rfl, .inr ⟨rfl, trivial⟩⟩
    · rename_i h1
      split
      · exact .inl ⟨.range, rfl, .inr ⟨rfl, trivial⟩⟩
      · rename_i h2
        split
        · exact .inr (.inl ⟨.truncatedIdat, _, rfl, trivial, .inl rfl⟩)
        · split
          · exact .inr (.inl ⟨.excessIdat, _, rfl, trivial, .inr (.inl rfl)⟩)
          · split
            · exact .inr (.inl ⟨.bounds, _, rfl, trivial, .inr (.inr rfl)⟩)
            · split
              · exact .inr (.inl ⟨.bounds, _, rfl, trivial, .inr (.inr rfl)⟩)
              · rename_i h3 h4 h5 h6
                refine .inr (.inr ⟨hc, by omega, (someRowTooLong_eq_false_iff s).1 (by simpa using h2),
                  by omega, by omega, ?_⟩)
                have h7 : s.imageFits = true := by simpa using h6
                exact of_decide_eq_true h7

end Sys2Proof.Machine
end

