-- ==== Sys2Proof/Laws/Pack.lean ====
section
/-! SUPPORT. The laws of the packer: the bytes of a pixel, of a row and of any number of rows. -/

namespace Sys2Proof.Machine

/-! ## One pixel -/

/-- A format the packer takes has a whole number of bytes per pixel (45_pack.md R221). -/
theorem bpp_of_packLegal {r : Regs} (h : r.packLegal = true) : r.format.bpp = 8 * r.format.pixelBytes := by
  simp only [Regs.packLegal, Bool.and_eq_true, Bool.or_eq_true, decide_eq_true_eq] at h
  unfold Format.pixelBytes Format.bpp
  rcases h.2 with h | h <;> rw [h] <;> omega

/-- The bytes of a row of a format the packer takes. -/
theorem rowBytes_of_packLegal {r : Regs} (h : r.packLegal = true) (w : Nat) :
    r.format.rowBytes w = w * r.format.pixelBytes := by
  unfold Format.rowBytes ceilDiv
  rw [bpp_of_packLegal h, Nat.mul_left_comm]
  omega

theorem legalPair_of_cfgLegal {r : Regs} (h : r.cfgLegal = true) : r.format.legalPair = true := by
  simp only [Regs.cfgLegal, Bool.and_eq_true, decide_eq_true_eq] at h
  exact h.1.1.2

theorem cfgLegal_of_packLegal {r : Regs} (h : r.packLegal = true) : r.cfgLegal = true := by
  simp only [Regs.packLegal, Bool.and_eq_true] at h
  exact h.1

/-- The colour types of R100. -/
theorem colorType_of_legalPair {f : Format} (h : f.legalPair = true) :
    f.colorType.toNat = 0 ∨ f.colorType.toNat = 2 ∨ f.colorType.toNat = 3 ∨ f.colorType.toNat = 4 ∨
      f.colorType.toNat = 6 := by
  unfold Format.legalPair at h
  split at h <;> simp_all

/-- The bytes of one pixel are as many as the format says. -/
theorem length_packPixel {s : State} {x y : Nat} {bs : List Byte} (hp : s.regs.packLegal = true)
    (h : packPixel s x y = some bs) : bs.length = s.regs.format.pixelBytes := by
  have hl := legalPair_of_cfgLegal (cfgLegal_of_packLegal hp)
  have hd : s.regs.format.bitDepth.toNat = 8 ∨ s.regs.format.bitDepth.toNat = 16 := by
    simp only [Regs.packLegal, Bool.and_eq_true, Bool.or_eq_true, decide_eq_true_eq] at hp
    exact hp.2
  unfold packPixel at h
  dsimp only at h
  rcases colorType_of_legalPair hl with hc | hc | hc | hc | hc <;> rw [hc] at h
  case inr.inr.inl =>
    have h8 : s.regs.format.bitDepth.toNat = 8 := by
      rcases hd with hd | hd
      · exact hd
      · unfold Format.legalPair at hl
        rw [hc, hd] at hl
        simp at hl
    obtain ⟨e, -, rfl⟩ := Option.map_eq_some_iff.1 h
    simp [Format.pixelBytes, Format.bpp, Format.channels, hc, h8]
  all_goals
    cases h
    rcases hd with hd | hd <;>
      simp [Format.pixelBytes, Format.bpp, Format.channels, Format.sampleBytes, hc, hd]

/-- The search for a palette entry gives the lowest one that matches. -/
theorem findEntry_some {s : State} {rgb : BitVec 24} {a : Byte} {i n e : Nat}
    (h : s.findEntry rgb a i n = some e) :
    i ≤ e ∧ e < i + n ∧ s.paletteAt e = rgb ∧ s.alphaOf e = a ∧
      ∀ k, i ≤ k → k < e → ¬(s.paletteAt k = rgb ∧ s.alphaOf k = a) := by
  induction n generalizing i with
  | zero => cases h
  | succ n ih =>
    simp only [State.findEntry] at h
    split at h
    · rename_i hm
      cases h
      exact ⟨Nat.le_refl _, by omega, hm.1, hm.2, fun k h1 h2 => by omega⟩
    · rename_i hm
      obtain ⟨h1, h2, h3, h4, h5⟩ := ih h
      refine ⟨by omega, by omega, h3, h4, fun k h6 h7 => ?_⟩
      rcases Nat.eq_or_lt_of_le h6 with rfl | h8
      · exact hm
      · exact h5 k h8 h7

/-- The search fails when no entry matches. -/
theorem findEntry_none {s : State} {rgb : BitVec 24} {a : Byte} {i n : Nat}
    (h : s.findEntry rgb a i n = none) :
    ∀ k, i ≤ k → k < i + n → ¬(s.paletteAt k = rgb ∧ s.alphaOf k = a) := by
  induction n generalizing i with
  | zero => exact fun k h1 h2 => by omega
  | succ n ih =>
    simp only [State.findEntry] at h
    split at h
    · cases h
    · rename_i hm
      intro k h1 h2
      rcases Nat.eq_or_lt_of_le h1 with rfl | h3
      · exact hm
      · exact ih h k h3 (by omega)

/-! ## One row -/

/-- A row is packed into the bytes of its pixels, in order. -/
theorem packFrom_ok {s : State} (hp : s.regs.packLegal = true) {y n x : Nat} {out : List Byte}
    (h : packFrom s y x n = .ok out) :
    out.length = n * s.regs.format.pixelBytes ∧
      ∀ j < n, ∃ bs, packPixel s (x + j) y = some bs ∧ ∀ i < s.regs.format.pixelBytes,
        bs[i]? = out[j * s.regs.format.pixelBytes + i]? := by
  induction n generalizing x out with
  | zero =>
    cases h
    exact ⟨by simp, fun j hj => absurd hj (Nat.not_lt_zero j)⟩
  | succ n ih =>
    simp only [packFrom] at h
    split at h
    · cases h
    · rename_i bs hbs
      have hl := length_packPixel hp hbs
      split at h
      · cases h
      · rename_i rest hrest
        cases h
        obtain ⟨h1, h2⟩ := ih hrest
        refine ⟨by rw [List.length_append, hl, h1, Nat.succ_mul, Nat.add_comm], fun j hj => ?_⟩
        cases j with
        | zero =>
          refine ⟨bs, hbs, fun i hi => ?_⟩
          rw [Nat.zero_mul, Nat.zero_add, List.getElem?_append_left (by omega)]
        | succ j =>
          obtain ⟨bs', h3, h4⟩ := h2 j (by omega)
          refine ⟨bs', by rw [← h3]; congr 1; omega, fun i hi => ?_⟩
          rw [h4 i hi, List.getElem?_append_right (by rw [hl, Nat.succ_mul]; omega), hl, Nat.succ_mul]
          congr 1
          omega

/-- Packing fails at the first pixel with no palette entry. -/
theorem packFrom_error {s : State} {y n x j : Nat} (h : packFrom s y x n = .error j) :
    x ≤ j ∧ j < x + n ∧ packPixel s j y = none ∧ ∀ i, x ≤ i → i < j → packPixel s i y ≠ none := by
  induction n generalizing x with
  | zero => cases h
  | succ n ih =>
    simp only [packFrom] at h
    split at h
    · rename_i hpx
      cases h
      exact ⟨Nat.le_refl _, by omega, hpx, fun i h1 h2 => by omega⟩
    · rename_i bs hbs
      split at h
      · rename_i j' hrest
        cases h
        obtain ⟨h1, h2, h3, h4⟩ := ih hrest
        refine ⟨by omega, by omega, h3, fun i h5 h6 => ?_⟩
        rcases Nat.eq_or_lt_of_le h5 with rfl | h7
        · rw [hbs]
          exact Option.some_ne_none bs
        · exact h4 i h7 h6
      · cases h

theorem packFrom_of_forall {s : State} {y n : Nat} (h : ∀ x < n, packPixel s x y ≠ none) :
    ∃ out, packFrom s y 0 n = .ok out := by
  cases e : packFrom s y 0 n with
  | ok out => exact ⟨out, rfl⟩
  | error j =>
    obtain ⟨-, h2, h3, -⟩ := packFrom_error e
    exact absurd h3 (h j (by omega))

theorem packFrom_of_first {s : State} (hp : s.regs.packLegal = true) {y n j : Nat} (hj : j < n)
    (hn : packPixel s j y = none) (hb : ∀ i < j, packPixel s i y ≠ none) :
    packFrom s y 0 n = .error j := by
  cases e : packFrom s y 0 n with
  | ok out =>
    obtain ⟨bs, h1, -⟩ := (packFrom_ok hp e).2 j hj
    rw [Nat.zero_add, hn] at h1
    cases h1
  | error j' =>
    obtain ⟨-, h2, h3, h4⟩ := packFrom_error e
    rcases Nat.lt_trichotomy j j' with h | h | h
    · exact absurd hn (h4 j (Nat.zero_le j) h)
    · rw [h]
    · exact absurd h3 (hb j' h)

/-- The row `y` of the image stands packed at BYTE address `a` of `t`. -/
def State.RowPacked (s : State) (y a : Nat) (t : State) : Prop :=
  (s.regs.ctrl.pkFb = true → t.byteAt a = 0) ∧
  ∀ x < s.regs.width.toNat, ∃ bs, packPixel s x y = some bs ∧
    ∀ j < s.regs.format.pixelBytes,
      bs[j]? = some (t.byteAt (a + s.regs.filterBytes + x * s.regs.format.pixelBytes + j))

theorem packedRowBytes_eq {r : Regs} (h : r.packLegal = true) :
    r.packedRowBytes = r.filterBytes + r.width.toNat * r.format.pixelBytes := by
  unfold Regs.packedRowBytes
  rw [rowBytes_of_packLegal h]

/-- What the body of `PXP.ROW` does when no pixel misses. -/
theorem packRow_ok {s t : State} (hp : s.regs.packLegal = true) (h : packRow s = .ok t) :
    t = { s with
      regs := { s.regs with
        dstAddr := word (s.regs.dstAddr.toNat + s.regs.packedRowBytes)
        pkY := word (s.regs.pkY.toNat + 1) }
      byteMem := t.byteMem } ∧
    s.RowPacked s.regs.pkY.toNat s.regs.dstAddr.toNat t ∧
    (∀ a, a < s.regs.dstAddr.toNat ∨ s.regs.dstAddr.toNat + s.regs.packedRowBytes ≤ a →
      t.byteAt a = s.byteAt a) ∧
    (Memory.wf s.byteMem → Memory.wf t.byteMem) ∧
    (∀ c ∈ t.byteMem, c ∈ s.byteMem ∨ c.1 < s.regs.dstAddr.toNat + s.regs.packedRowBytes) := by
  unfold packRow at h
  dsimp only at h
  split at h
  · cases h
  · rename_i out hout
    obtain ⟨h1, h2⟩ := packFrom_ok hp hout
    have hlen : (List.replicate s.regs.filterBytes (0 : Byte) ++ out).length = s.regs.packedRowBytes := by
      rw [List.length_append, List.length_replicate, h1, packedRowBytes_eq hp]
    generalize hvs : List.replicate s.regs.filterBytes (0 : Byte) ++ out = vs at *
    have hread := State.byteAt_storeBytes s s.regs.dstAddr.toNat vs
    cases h
    refine ⟨rfl, ⟨fun hfb => ?_, fun x hx => ?_⟩, fun a ha => ?_, fun hw => Memory.wf_writeRange hw _ _,
      fun c hc => ?_⟩
    · have hf : s.regs.filterBytes = 1 := by simp [Regs.filterBytes, hfb]
      have := hread s.regs.dstAddr.toNat
      rw [dif_pos ⟨Nat.le_refl _, by rw [hlen, packedRowBytes_eq hp, hf]; omega⟩] at this
      refine this.trans ?_
      subst hvs
      simp [hf]
    · obtain ⟨bs, h3, h4⟩ := h2 x hx
      rw [Nat.zero_add] at h3
      refine ⟨bs, h3, fun j hj => ?_⟩
      have hin : x * s.regs.format.pixelBytes + j < s.regs.width.toNat * s.regs.format.pixelBytes := by
        have := Nat.mul_le_mul_right s.regs.format.pixelBytes (Nat.succ_le_of_lt hx)
        rw [Nat.succ_mul] at this
        omega
      have := hread (s.regs.dstAddr.toNat + s.regs.filterBytes + x * s.regs.format.pixelBytes + j)
      rw [dif_pos ⟨by omega, by rw [hlen, packedRowBytes_eq hp]; omega⟩] at this
      refine Eq.trans ?_ (congrArg some this.symm)
      subst hvs
      rw [h4 j hj, ← List.getElem?_eq_getElem, List.getElem?_append_right (by rw [List.length_replicate]; omega),
        List.length_replicate]
      congr 1
      omega
    · have := hread a
      rw [dif_neg (by rw [hlen]; omega)] at this
      exact this
    · rcases Memory.mem_writeRange hc with h3 | h3
      · exact .inl h3
      · exact .inr (by rw [hlen] at h3; exact h3.2)

/-- The body of `PXP.ROW` fails at the first pixel of the row that misses. -/
theorem packRow_error {s : State} {i : Nat} (h : packRow s = .error i) :
    ∃ x < s.regs.width.toNat, i = s.regs.pixIndex x s.regs.pkY.toNat ∧
      packPixel s x s.regs.pkY.toNat = none ∧ ∀ x' < x, packPixel s x' s.regs.pkY.toNat ≠ none := by
  unfold packRow at h
  dsimp only at h
  split at h
  · rename_i x hx
    cases h
    obtain ⟨-, h2, h3, h4⟩ := packFrom_error hx
    exact ⟨x, by omega, rfl, h3, fun x' hx' => h4 x' (Nat.zero_le _) hx'⟩
  · cases h

/-! ## Rows -/

/-- `t` is reached from `s` when `PXP.IMG` has packed `y` rows. -/
structure State.PackedTo (s : State) (y : Nat) (t : State) : Prop where
  frame : t = { s with
    regs := { s.regs with
      dstAddr := word (s.regs.dstAddr.toNat + y * s.regs.packedRowBytes)
      pkY := word y }
    byteMem := t.byteMem }
  rows : ∀ y' < y, s.RowPacked y' (s.regs.dstAddr.toNat + y' * s.regs.packedRowBytes) t
  outside : ∀ a, a < s.regs.dstAddr.toNat ∨ s.regs.dstAddr.toNat + y * s.regs.packedRowBytes ≤ a →
    t.byteAt a = s.byteAt a
  wf : Memory.wf s.byteMem → Memory.wf t.byteMem
  listed : ∀ c ∈ t.byteMem, c ∈ s.byteMem ∨ c.1 < s.regs.dstAddr.toNat + y * s.regs.packedRowBytes

/-- The pixels a packed image is made of do not depend on BYTE, `DST_ADDR` or `PK_Y`. -/
theorem State.PackedTo.packPixel_eq {s t : State} {y : Nat} (h : s.PackedTo y t) (x y' : Nat) :
    packPixel t x y' = packPixel s x y' := by
  have key : ∀ (d : Word) (k : Word) (m : List Host.Cell),
      packPixel { s with regs := { s.regs with dstAddr := d, pkY := k }, byteMem := m } x y' =
        packPixel s x y' := by
    intro d k m
    have hf : ∀ (rgb : BitVec 24) (a : Byte) (i n : Nat),
        State.findEntry { s with regs := { s.regs with dstAddr := d, pkY := k }, byteMem := m } rgb a i n =
          s.findEntry rgb a i n := by
      intro rgb a i n
      induction n generalizing i with
      | zero => rfl
      | succ n ih =>
        simp only [State.findEntry, ih]
        rfl
    unfold packPixel
    simp only [hf]
    rfl
  rw [h.frame]
  exact key _ _ _

/-- One more row. -/
theorem State.PackedTo.packRow {s t : State} {y : Nat} (hp : s.regs.packLegal = true)
    (hend : s.regs.dstAddr.toNat + (y + 1) * s.regs.packedRowBytes < 2 ^ 32) (hy : y < 2 ^ 32)
    (h : s.PackedTo y t) :
    (∃ u, packRow t = .ok u ∧ s.PackedTo (y + 1) u) ∨
    ∃ x < s.regs.width.toNat, packRow t = .error (s.regs.pixIndex x y) ∧ packPixel s x y = none ∧
      ∀ x' < x, packPixel s x' y ≠ none := by
  have hlen : (y + 1) * s.regs.packedRowBytes = y * s.regs.packedRowBytes + s.regs.packedRowBytes :=
    Nat.succ_mul _ _
  have hregs := congrArg State.regs h.frame
  have hdst : t.regs.dstAddr.toNat = s.regs.dstAddr.toNat + y * s.regs.packedRowBytes := by
    rw [hregs]
    show (word _).toNat = _
    rw [word, BitVec.toNat_ofNat, Nat.mod_eq_of_lt (by omega)]
  have hpk : t.regs.pkY.toNat = y := by
    rw [hregs]
    show (word _).toNat = _
    rw [word, BitVec.toNat_ofNat, Nat.mod_eq_of_lt hy]
  have hrow : t.regs.packedRowBytes = s.regs.packedRowBytes := by rw [hregs]; rfl
  have hpt : t.regs.packLegal = true := by rw [hregs]; exact hp
  have hw : t.regs.width = s.regs.width := by rw [hregs]
  cases hu : Sys2Proof.Machine.packRow t with
  | ok u =>
    obtain ⟨h1, h2, h3, h4, h5⟩ := packRow_ok hpt hu
    rw [hdst, hrow] at h1 h3 h5
    rw [hpk] at h1
    rw [hdst, hpk] at h2
    refine .inl ⟨u, rfl, ?_, fun y' hy' => ?_, fun a ha => ?_, fun hm => h4 (h.wf hm), fun c hc => ?_⟩
    · have hall : ∀ (d k : Word) (m : List Host.Cell),
          { t with regs := { t.regs with dstAddr := d, pkY := k }, byteMem := m } =
            { s with regs := { s.regs with dstAddr := d, pkY := k }, byteMem := m } := by
        intro d k m
        rw [h.frame]
      refine h1.trans ((hall _ _ _).trans ?_)
      rw [hlen, ← Nat.add_assoc]
    · by_cases he : y' = y
      · subst he
        refine ⟨fun hfb => h2.1 (by rw [hregs]; exact hfb), fun x hx => ?_⟩
        obtain ⟨bs, h6, h7⟩ := h2.2 x (by rw [hw]; exact hx)
        rw [h.packPixel_eq] at h6
        refine ⟨bs, h6, ?_⟩
        rw [hregs] at h7
        exact h7
      · have hlt : y' < y := by omega
        have hold := h.rows y' hlt
        have hle : y' * s.regs.packedRowBytes + s.regs.packedRowBytes ≤ y * s.regs.packedRowBytes := by
          have := Nat.mul_le_mul_right s.regs.packedRowBytes (Nat.succ_le_of_lt hlt)
          rwa [Nat.succ_mul] at this
        have hfbn := packedRowBytes_eq hp
        refine ⟨fun hfb => ?_, fun x hx => ?_⟩
        · rw [h3 _ (.inl _), hold.1 hfb]
          have : s.regs.filterBytes = 1 := by simp [Regs.filterBytes, hfb]
          omega
        · obtain ⟨bs, h6, h7⟩ := hold.2 x hx
          refine ⟨bs, h6, fun j hj => ?_⟩
          have hin : x * s.regs.format.pixelBytes + j < s.regs.width.toNat * s.regs.format.pixelBytes := by
            have := Nat.mul_le_mul_right s.regs.format.pixelBytes (Nat.succ_le_of_lt hx)
            rw [Nat.succ_mul] at this
            omega
          rw [h7 j hj, h3 _ (.inl (by omega))]
    · rw [h3 a (by omega), h.outside a (by omega)]
    · rcases h5 c hc with h6 | h6
      · rcases h.listed c h6 with h7 | h7
        · exact .inl h7
        · exact .inr (by omega)
      · exact .inr (by omega)
  | error i =>
    obtain ⟨x, h1, h2, h3, h4⟩ := packRow_error hu
    rw [hw] at h1
    rw [hpk, h.packPixel_eq] at h3
    refine .inr ⟨x, h1, ?_, h3, fun x' hx' => ?_⟩
    · rw [h2, hpk]
      unfold Regs.pixIndex
      rw [hw]
    · have := h4 x' hx'
      rwa [hpk, h.packPixel_eq] at this

/-- The remaining rows: all are packed, or one of them misses. -/
theorem packRows_cases {s t : State} {y n : Nat} (hp : s.regs.packLegal = true)
    (hend : s.regs.dstAddr.toNat + (y + n) * s.regs.packedRowBytes < 2 ^ 32) (hy : y + n < 2 ^ 32)
    (h : s.PackedTo y t) :
    (∃ u, packRows t n = .ok u ∧ s.PackedTo (y + n) u) ∨
    ∃ y' x u, y ≤ y' ∧ y' < y + n ∧ x < s.regs.width.toNat ∧
      packRows t n = .error (u, s.regs.pixIndex x y') ∧ s.PackedTo y' u ∧ packPixel s x y' = none ∧
      (∀ x' < x, packPixel s x' y' ≠ none) := by
  induction n generalizing y t with
  | zero => exact .inl ⟨t, rfl, h⟩
  | succ n ih =>
    have hm : (y + 1) * s.regs.packedRowBytes ≤ (y + (n + 1)) * s.regs.packedRowBytes :=
      Nat.mul_le_mul_right _ (by omega)
    rcases h.packRow hp (by omega) (by omega) with ⟨u, h1, h2⟩ | ⟨x, h1, h2, h3, h4⟩
    · have e : y + 1 + n = y + (n + 1) := by omega
      rcases ih (by rw [e]; exact hend) (by omega) h2 with ⟨v, h3, h4⟩ | ⟨y', x, v, h3, h4, h5, h6, h7⟩
      · exact .inl ⟨v, by simp only [packRows, h1, h3], by rw [← e]; exact h4⟩
      · exact .inr ⟨y', x, v, by omega, by omega, h5, by simp only [packRows, h1, h6], h7⟩
    · exact .inr ⟨y, x, t, Nat.le_refl y, by omega, h1, by simp only [packRows, h2], h, h3, h4⟩

/-- The start of `PXP.IMG`'s loop. -/
theorem packedTo_start (s : State) : s.PackedTo 0 { s with regs := { s.regs with pkY := 0 } } := by
  refine ⟨?_, fun y' hy' => absurd hy' (Nat.not_lt_zero y'), fun _ _ => rfl, id, fun c hc => .inl hc⟩
  have e : word (s.regs.dstAddr.toNat + 0 * s.regs.packedRowBytes) = s.regs.dstAddr := by simp [word]
  rw [e]
  rfl

/-! ## What packing can change, whatever the state -/

/-- A packed row changes BYTE and the two pointers only. -/
theorem packRow_frame {s t : State} (h : packRow s = .ok t) :
    ∃ d k m, t = { s with regs := { s.regs with dstAddr := d, pkY := k }, byteMem := m } := by
  unfold packRow at h
  dsimp only at h
  split at h <;> cases h
  exact ⟨_, _, _, rfl⟩

/-- So do packed rows, up to the end or up to the row that misses. -/
theorem packRows_frame {s : State} {n : Nat} :
    (∀ t, packRows s n = .ok t →
      ∃ d k m, t = { s with regs := { s.regs with dstAddr := d, pkY := k }, byteMem := m }) ∧
    (∀ t i, packRows s n = .error (t, i) →
      ∃ d k m, t = { s with regs := { s.regs with dstAddr := d, pkY := k }, byteMem := m }) := by
  induction n generalizing s with
  | zero =>
    refine ⟨fun t h => ?_, fun t i h => ?_⟩ <;> cases h
    exact ⟨_, _, _, rfl⟩
  | succ n ih =>
    unfold packRows
    cases hr : packRow s with
    | error i =>
      refine ⟨fun t h => ?_, fun t i h => ?_⟩ <;> cases h
      exact ⟨_, _, _, rfl⟩
    | ok u =>
      obtain ⟨d, k, m, rfl⟩ := packRow_frame hr
      refine ⟨fun t h => ?_, fun t i h => ?_⟩
      · obtain ⟨d', k', m', rfl⟩ := ih.1 t h
        exact ⟨d', k', m', rfl⟩
      · obtain ⟨d', k', m', rfl⟩ := ih.2 t i h
        exact ⟨d', k', m', rfl⟩

end Sys2Proof.Machine
end

