-- ==== Sys2Proof/Laws/Step.lean ====
section
/-! SUPPORT. The laws of the step: what each host action does, and the one case analysis of a step that
later proofs start from. -/

namespace Sys2Proof.Machine

/-- A step with nothing left in the script. -/
theorem step_nil {s : State} (h : s.script = []) : step s = .next s := by
  simp [step, runStep, h]

/-- A step performs the host's next action on the state with that action taken off the script. -/
theorem step_cons {s : State} {act : HostAction} {rest : List HostAction} (h : s.script = act :: rest) :
    step s = hostStep act { s with script := rest } := by
  simp [step, runStep, h]

/-- A write to `CMD` is a command write. -/
theorem hostStep_cmd (w : Word) (s : State) : hostStep (.regWrite 0 w) s = commandWrite w s := rfl

theorem commandWrite_halted {w : Word} {s : State} (hs : s.regs.status.err = true) :
    commandWrite w s = if w = 0x01000000 then .next s.softReset else .next s := by
  simp only [commandWrite, hs, resetCommandWord, if_true]
  rfl

theorem commandWrite_ok {w : Word} {s : State} {i : Instr} (hs : s.regs.status.err = false)
    (hd : decodeWord w = .ok i) : commandWrite w s = exec i s := by
  simp [commandWrite, hs, hd]

theorem commandWrite_error {w : Word} {s : State} {e : DecodeError} (hs : s.regs.status.err = false)
    (hd : decodeWord w = .error e) : commandWrite w s = .next (s.raise .illegalCmd w.toNat) := by
  simp [commandWrite, hs, hd]

/-- A write to a port offset other than `CMD`. -/
theorem hostStep_regWrite {off : Nat} (v : Word) (s : State) (hp : portOffset off = true) (h0 : off ≠ 0) :
    hostStep (.regWrite off v) s = .next (s.regWrite off v) := by
  simp [hostStep, hp, h0]

/-- Everything that a step to a next state can have done. -/
theorem step_next_cases {s t : State} (h : step s = .next t) :
    (s.script = [] ∧ t = s) ∨
    ∃ act rest u, s.script = act :: rest ∧ u = { s with script := rest } ∧
      ((∃ w, act = .regWrite 0 w ∧
          ((u.regs.status.err = true ∧ w = 0x01000000 ∧ t = u.softReset) ∨
           (u.regs.status.err = true ∧ w ≠ 0x01000000 ∧ t = u) ∨
           (∃ i, u.regs.status.err = false ∧ decodeWord w = .ok i ∧ exec i u = .next t) ∨
           (∃ e, u.regs.status.err = false ∧ decodeWord w = .error e ∧
              t = u.raise .illegalCmd w.toNat))) ∨
       (∃ off v, act = .regWrite off v ∧ portOffset off = true ∧ off ≠ 0 ∧ t = u.regWrite off v) ∨
       (∃ off, act = .regRead off ∧ portOffset off = true ∧ t = u.logRead (u.regRead off)) ∨
       (∃ a v, act = .byteWrite a v ∧ a < u.params.byteSize ∧ t = u.storeBytes a [v]) ∨
       (∃ a, act = .byteRead a ∧ a < u.params.byteSize ∧ t = u.logRead ((u.byteAt a).setWidth 32)) ∨
       (∃ i v, act = .pixWrite i v ∧ i < u.params.pixSize ∧ t = u.storeCells i [v]) ∨
       (∃ i, act = .pixRead i ∧ i < u.params.pixSize ∧ t = u.logRead ((u.cellAt i).setWidth 32)) ∨
       (act = .hwReset ∧ t = u.hardReset)) := by
  cases hs : s.script with
  | nil =>
    rw [step_nil hs] at h
    cases h
    exact .inl ⟨rfl, rfl⟩
  | cons act rest =>
    refine .inr ⟨act, rest, { s with script := rest }, rfl, rfl, ?_⟩
    rw [step_cons hs] at h
    generalize { s with script := rest } = u at h ⊢
    cases act with
    | regWrite off v =>
      by_cases h0 : off = 0
      · subst h0
        refine .inl ⟨v, rfl, ?_⟩
        rw [hostStep_cmd] at h
        cases he : u.regs.status.err with
        | true =>
          rw [commandWrite_halted he] at h
          split at h <;> cases h
          · exact .inl ⟨rfl, ‹_›, rfl⟩
          · exact .inr (.inl ⟨rfl, ‹_›, rfl⟩)
        | false =>
          cases hd : decodeWord v with
          | ok i => exact .inr (.inr (.inl ⟨i, rfl, rfl, by rw [← commandWrite_ok he hd, h]⟩))
          | error e =>
            rw [commandWrite_error he hd] at h
            cases h
            exact .inr (.inr (.inr ⟨e, rfl, rfl, rfl⟩))
      · cases hp : portOffset off with
        | true =>
          rw [hostStep_regWrite v u hp h0] at h
          cases h
          exact .inr (.inl ⟨off, v, rfl, hp, h0, rfl⟩)
        | false => simp [hostStep, hp] at h
    | regRead off =>
      cases hp : portOffset off <;> simp [hostStep, hp] at h
      exact .inr (.inr (.inl ⟨off, rfl, hp, h.symm⟩))
    | byteWrite a v =>
      simp only [hostStep] at h
      split at h <;> cases h
      exact .inr (.inr (.inr (.inl ⟨a, v, rfl, ‹_›, rfl⟩)))
    | byteRead a =>
      simp only [hostStep] at h
      split at h <;> cases h
      exact .inr (.inr (.inr (.inr (.inl ⟨a, rfl, ‹_›, rfl⟩))))
    | pixWrite i v =>
      simp only [hostStep] at h
      split at h <;> cases h
      exact .inr (.inr (.inr (.inr (.inr (.inl ⟨i, v, rfl, ‹_›, rfl⟩)))))
    | pixRead i =>
      simp only [hostStep] at h
      split at h <;> cases h
      exact .inr (.inr (.inr (.inr (.inr (.inr (.inl ⟨i, rfl, ‹_›, rfl⟩))))))
    | hwReset =>
      cases h
      exact .inr (.inr (.inr (.inr (.inr (.inr (.inr ⟨rfl, rfl⟩))))))

/-- A write to a register leaves everything but the registers and the two RAMs. -/
theorem writeReg_frame (s : State) (v : Word) (r : Reg) :
    (s.writeReg v r).params = s.params ∧ (s.writeReg v r).lb0 = s.lb0 ∧ (s.writeReg v r).lb1 = s.lb1 ∧
      (s.writeReg v r).byteMem = s.byteMem ∧ (s.writeReg v r).pixMem = s.pixMem ∧
      (s.writeReg v r).launch = s.launch ∧ (s.writeReg v r).draws = s.draws ∧
      (s.writeReg v r).script = s.script ∧ (s.writeReg v r).readLog = s.readLog := by
  cases r <;> exact ⟨rfl, rfl, rfl, rfl, rfl, rfl, rfl, rfl, rfl⟩

/-- A write to a register changes no flag but `PREV_VALID`, and that only to clear it. -/
theorem writeReg_status (s : State) (v : Word) (r : Reg) :
    (s.writeReg v r).regs.status = s.regs.status ∨
      (s.writeReg v r).regs.status = { s.regs.status with prevValid := false } := by
  cases r <;> first | exact .inl rfl | exact .inr rfl

/-- A write to a register leaves the fault and warning registers. -/
theorem writeReg_records (s : State) (v : Word) (r : Reg) :
    (s.writeReg v r).regs.errcode = s.regs.errcode ∧ (s.writeReg v r).regs.erraddr = s.regs.erraddr ∧
      (s.writeReg v r).regs.warnAddr = s.regs.warnAddr ∧ (s.writeReg v r).regs.warnCnt = s.regs.warnCnt := by
  cases r <;> exact ⟨rfl, rfl, rfl, rfl⟩

end Sys2Proof.Machine
end

