-- ==== Sys2Proof/Laws/Commands.lean ====
section
/-! SUPPORT. What each command with several outcomes can have done: one case analysis per command. -/

namespace Sys2Proof.Machine

/-- A command that ends with a fault and nothing else. -/
def State.Raised (s t : State) : Prop := ∃ (e : HwFault) (info : Nat), t = s.raise e info

theorem execCrcBuf_cases {s t : State} (h : execCrcBuf s = .next t) :
    s.Raised t ∨ ∃ acc, t = { s with regs := { s.regs with crcAcc := acc } } := by
  unfold execCrcBuf at h
  dsimp only at h
  split at h <;> cases h
  · exact .inl ⟨_, _, rfl⟩
  · exact .inr ⟨_, rfl⟩

/-- A check changes flags, fault and warning registers only, and keeps or sets the warning. -/
theorem crcCheck_cases (s : State) (off : Nat) :
    s.crcCheck off = { s with regs := s.regs.setCrcOk true } ∨
    s.crcCheck off = { s with regs := s.regs.setCrcOk false }.raise .crc off ∨
    s.crcCheck off = { s with regs := { s.regs with
      status := { s.regs.status with crcOk := false, wCrc := true }
      warnAddr := word off
      warnCnt := s.regs.warnCnt + 1 } } := by
  rw [crcCheck_eq]
  split
  · exact .inl rfl
  · cases hs : s.regs.ctrl.strict <;> simp [State.warnCrc, hs]

theorem execCrcChkm_cases {s t : State} (h : execCrcChkm s = .next t) :
    s.Raised t ∨ ∃ v off, t = State.crcCheck { s with regs := { s.regs with crcExpect := v } } off := by
  unfold execCrcChkm at h
  dsimp only at h
  split at h <;> cases h
  · exact .inl ⟨_, _, rfl⟩
  · exact .inr ⟨_, _, rfl⟩

theorem execCrcChunk_cases {s t : State} (h : execCrcChunk s = .next t) :
    s.Raised t ∨ ∃ len type acc v a off, t = State.crcCheck { s with regs := { s.regs with
      chunkLen := len
      chunkType := type
      crcAcc := acc
      crcExpect := v
      srcAddr := a } } off := by
  unfold execCrcChunk at h
  dsimp only at h
  split at h
  · cases h
    exact .inl ⟨_, _, rfl⟩
  · split at h
    · cases h
      exact .inl ⟨_, _, rfl⟩
    · split at h <;> cases h
      · exact .inl ⟨_, _, rfl⟩
      · exact .inr ⟨_, _, _, _, _, _, rfl⟩

theorem execFltRow_cases {s t : State} (h : execFltRow s = .next t) :
    s.Raised t ∨ (t = s.afterFilter ∧ s.regs.cfgLegal = true ∧ 1 ≤ s.regs.passW.toNat ∧
      s.regs.row.toNat < s.regs.passH.toNat ∧
      s.regs.format.rowBytes s.regs.passW.toNat ≤ s.params.maxRowBytes) := by
  unfold execFltRow at h
  cases hc : s.regs.cfgLegal with
  | false =>
    rw [hc] at h
    cases h
    exact .inl ⟨_, _, rfl⟩
  | true =>
    rw [hc, filterRow_eq] at h
    simp only [Bool.not_true, Bool.false_eq_true, if_false] at h
    split at h
    · cases h
      exact .inl ⟨_, _, rfl⟩
    · rename_i h1
      split at h
      · cases h
        exact .inl ⟨_, _, rfl⟩
      · rename_i h2
        split at h
        · rename_i u hu
          cases h
          split at hu
          · cases hu
          · split at hu <;> cases hu
            refine .inr ⟨rfl, rfl, ?_, by omega, by omega⟩
            by_contra h0
            exact h1 (.inl (BitVec.eq_of_toNat_eq (show s.regs.passW.toNat = 0 by omega)))
        · rename_i u hu
          cases h
          split at hu
          · cases hu
            exact .inl ⟨_, _, rfl⟩
          · split at hu <;> cases hu
            exact .inl ⟨_, _, rfl⟩

theorem execA7Pass_cases {s t : State} {p : Nat} (h : execA7Pass p s = .next t) :
    s.Raised t ∨ (t = s.selectPass p ∧ s.regs.cfgLegal = true) := by
  unfold execA7Pass at h
  cases hc : s.regs.cfgLegal <;> rw [hc] at h <;> cases h
  · exact .inl ⟨_, _, rfl⟩
  · exact .inr ⟨rfl, rfl⟩

theorem execA7Map_cases {s t : State} (h : execA7Map s = .next t) :
    s.Raised t ∨ ∃ x y i, t = { s with regs := { s.regs with mapX := x, mapY := y, mapIdx := i } } := by
  unfold execA7Map at h
  dsimp only at h
  split at h
  · cases h
    exact .inl ⟨_, _, rfl⟩
  · split at h
    · cases h
      exact .inl ⟨_, _, rfl⟩
    · split at h <;> cases h
      · exact .inl ⟨_, _, rfl⟩
      · exact .inr ⟨_, _, _, rfl⟩

theorem execA7Len_cases {s t : State} (h : execA7Len s = .next t) :
    s.Raised t ∨ ∃ v, t = { s with regs := { s.regs with expLen := v } } := by
  unfold execA7Len at h
  split at h
  · cases h
    exact .inl ⟨_, _, rfl⟩
  · split at h <;> cases h
    · exact .inl ⟨_, _, rfl⟩
    · exact .inr ⟨_, rfl⟩

theorem execPxuRow_cases {s t : State} (h : execPxuRow s = .next t) :
    s.Raised t ∨ (s.regs.cfgLegal = true ∧ s.regs.status.prevValid = true ∧
      4 * s.regs.width.toNat * s.regs.height.toNat ≤ s.params.pixSize ∧
      ((∃ pxs, t = s.storePixels 0 pxs ∧ pxs.length = s.regs.passW.toNat) ∨
        ∃ e info, t = s.drawRow.raise e info)) := by
  unfold execPxuRow at h
  cases hc : s.regs.cfgLegal with
  | false =>
    rw [hc] at h
    cases h
    exact .inl ⟨_, _, rfl⟩
  | true =>
    cases hp : s.regs.status.prevValid with
    | false =>
      rw [hc, hp] at h
      cases h
      exact .inl ⟨_, _, rfl⟩
    | true =>
      cases hi : s.imageFits with
      | false =>
        rw [hc, hp, hi] at h
        cases h
        exact .inl ⟨_, _, rfl⟩
      | true =>
        rw [hc, hp, hi] at h
        refine .inr ⟨rfl, rfl, (imageFits_iff s).1 hi, ?_⟩
        simp only [Bool.not_true, Bool.false_eq_true, if_false] at h
        split at h
        · rename_i u hu
          cases h
          obtain ⟨pxs, h1, h2, -⟩ := unpackRow_ok hu
          exact .inl ⟨pxs, h1, h2⟩
        · cases h
          exact .inr ⟨_, _, rfl⟩

theorem execPxpRow_cases {s t : State} (h : execPxpRow s = .next t) :
    s.Raised t ∨ (s.regs.packLegal = true ∧
      s.regs.dstAddr.toNat + s.regs.packedRowBytes ≤ s.params.byteSize ∧
      (packRow s = .ok t ∨
        ∃ e info, t = (s.drawBytes s.regs.dstAddr.toNat s.regs.packedRowBytes).raise e info)) := by
  unfold execPxpRow at h
  dsimp only at h
  cases hp : s.regs.packLegal with
  | false =>
    rw [hp] at h
    cases h
    exact .inl ⟨_, _, rfl⟩
  | true =>
    rw [hp] at h
    simp only [Bool.not_true, Bool.false_eq_true, if_false] at h
    split at h
    · cases h
      exact .inl ⟨_, _, rfl⟩
    · split at h
      · cases h
        exact .inl ⟨_, _, rfl⟩
      · split at h
        · cases h
          exact .inl ⟨_, _, rfl⟩
        · refine .inr ⟨rfl, by omega, ?_⟩
          split at h
          · rename_i u hu
            cases h
            exact .inl hu
          · cases h
            exact .inr ⟨_, _, rfl⟩

/-- `PXP.IMG`: a fault before it writes, all rows packed, or a miss in some row. -/
theorem execPxpImg_cases {s t : State} (hl : s.params.legal = true) (h : execPxpImg s = .next t) :
    s.Raised t ∨ (s.regs.packLegal = true ∧
      s.regs.dstAddr.toNat + s.regs.height.toNat * s.regs.packedRowBytes ≤ s.params.byteSize ∧
      (s.PackedTo s.regs.height.toNat t ∨
        ∃ y u e info, y < s.regs.height.toNat ∧ s.PackedTo y u ∧
          t = (u.drawBytes u.regs.dstAddr.toNat (s.regs.dstAddr.toNat +
            s.regs.height.toNat * s.regs.packedRowBytes - u.regs.dstAddr.toNat)).raise e info)) := by
  have hb : s.params.byteSize < 2 ^ 32 := by
    simp only [Params.legal, Bool.and_eq_true, decide_eq_true_eq] at hl
    exact hl.1.1.2
  have hh := s.regs.height.isLt
  unfold execPxpImg at h
  dsimp only at h
  cases hp : s.regs.packLegal with
  | false =>
    rw [hp] at h
    cases h
    exact .inl ⟨_, _, rfl⟩
  | true =>
    rw [hp] at h
    simp only [Bool.not_true, Bool.false_eq_true, if_false] at h
    split at h
    · cases h
      exact .inl ⟨_, _, rfl⟩
    · split at h
      · cases h
        exact .inl ⟨_, _, rfl⟩
      · rename_i h1
        refine .inr ⟨rfl, by omega, ?_⟩
        rcases packRows_cases (n := s.regs.height.toNat) hp (by rw [Nat.zero_add]; omega) (by omega)
          (packedTo_start s) with ⟨u, h2, h3⟩ | ⟨y, x, u, -, h3, -, h5, h6, -⟩
        · rw [h2] at h
          cases h
          rw [Nat.zero_add] at h3
          exact .inl h3
        · rw [h5] at h
          cases h
          exact .inr ⟨y, u, _, _, by omega, h6, rfl⟩

/-- What `PXP.IMG` can change, whatever the state. -/
theorem execPxpImg_frame {s t : State} (h : execPxpImg s = .next t) :
    s.Raised t ∨ ∃ d k m u, u = { s with regs := { s.regs with dstAddr := d, pkY := k }, byteMem := m } ∧
      (t = u ∨ ∃ a n e info, t = (u.drawBytes a n).raise e info) := by
  unfold execPxpImg at h
  dsimp only at h
  split at h
  · cases h
    exact .inl ⟨_, _, rfl⟩
  · split at h
    · cases h
      exact .inl ⟨_, _, rfl⟩
    · split at h
      · cases h
        exact .inl ⟨_, _, rfl⟩
      · split at h
        · rename_i u hu
          cases h
          obtain ⟨d, k, m, hf⟩ := packRows_frame.1 _ hu
          exact .inr ⟨d, k, m, _, hf, .inl rfl⟩
        · rename_i u i hu
          cases h
          obtain ⟨d, k, m, hf⟩ := packRows_frame.2 _ _ hu
          exact .inr ⟨d, k, m, _, hf, .inr ⟨_, _, _, _, rfl⟩⟩

/-- `DEC.IMG`: a fault before the loop, with or without `EXP_LEN` written, or the loop's outcome. -/
theorem execDecImg_next_cases {s t : State} (h : execDecImg s = .next t) :
    s.Raised t ∨ s.withExpLen.Raised t ∨ (s.DecodeChecksPass ∧
      ((∃ init p, s.regs.format.passes = init ++ [p] ∧
          s.withExpLen.RowAt init p (s.regs.passRows p) t) ∨
        ∃ u, s.withExpLen.DecodeFault u ∧ t = u.drawCells 0 u.regs.imageCells)) := by
  rcases execDecImg_cases s with ⟨e, h1, -⟩ | ⟨e, info, h1, -⟩ | hs
  · rw [h1] at h
    cases h
    exact .inl ⟨_, _, rfl⟩
  · rw [h1] at h
    cases h
    exact .inr (.inl ⟨_, _, rfl⟩)
  · refine .inr (.inr ⟨hs, ?_⟩)
    rw [execDecImg_of_checks hs] at h
    have hp := decodePasses_all hs.withExpLen
    have hf : s.withExpLen.regs.format = s.regs.format := rfl
    rw [hf] at hp
    rcases hp with ⟨u, init, p, h1, -, -, -, h4, h5⟩ | ⟨u, h1, h2⟩
    · rw [h1] at h
      cases h
      exact .inl ⟨init, p, h4, h5⟩
    · rw [h1] at h
      cases h
      exact .inr ⟨u, h2, rfl⟩

/-! ## Memories in order -/

theorem memoryOk_of_regs {s t : State} (h : s.MemoryOk) (R : Regs) (e : t = { s with regs := R }) :
    t.MemoryOk := by
  subst e
  exact ⟨h.params, h.byteWf, h.byteIn, h.pixWf, h.pixIn, h.plteWf, h.plteIn, h.alphaWf, h.alphaIn,
    h.lineWf, h.lineIn⟩

theorem memoryOk_raise {s : State} (h : s.MemoryOk) (e : HwFault) (info : Nat) : (s.raise e info).MemoryOk :=
  memoryOk_of_regs h _ rfl

/-- Replacing BYTE keeps the memories in order when the new BYTE is. -/
theorem memoryOk_of_byte {s t : State} (h : s.MemoryOk) {R : Regs} {d : Nat}
    (e : t = { s with regs := R, byteMem := t.byteMem, draws := d }) (hw : Memory.wf t.byteMem)
    (hi : ∀ c ∈ t.byteMem, c.1 < s.params.byteSize) : t.MemoryOk := by
  constructor
  case byteWf => exact hw
  case byteIn =>
    rw [e]
    exact hi
  case lineWf =>
    rw [e]
    exact fun sel => by cases sel; exacts [h.lineWf false, h.lineWf true]
  case lineIn =>
    rw [e]
    exact fun sel => by cases sel; exacts [h.lineIn false, h.lineIn true]
  all_goals
    rw [e]
    first
    | exact h.params | exact h.pixWf | exact h.pixIn | exact h.plteWf | exact h.plteIn | exact h.alphaWf
    | exact h.alphaIn

theorem memoryOk_drawBytes {s : State} (h : s.MemoryOk) (a n : Nat) (hf : a + n ≤ s.params.byteSize) :
    (s.drawBytes a n).MemoryOk := by
  refine memoryOk_of_byte h (R := s.regs) (d := s.draws + 1) rfl (Memory.wf_writeRange h.byteWf a _) fun c hc => ?_
  rcases Memory.mem_writeRange hc with h1 | h1
  · exact h.byteIn c h1
  · simp only [List.length_map, List.length_range] at h1
    omega

theorem memoryOk_drawCells {s : State} (h : s.MemoryOk) (n : Nat) (hf : n ≤ s.params.pixSize) :
    (s.drawCells 0 n).MemoryOk := by
  have key : State.MemoryOk { s with pixMem := (s.drawCells 0 n).pixMem } := by
    refine memoryOk_of_pix h rfl (Memory.wf_writeRange h.pixWf 0 _) fun c hc => ?_
    rcases Memory.mem_writeRange hc with h1 | h1
    · exact h.pixIn c h1
    · simp only [List.length_map, List.length_range] at h1
      omega
  exact ⟨key.params, key.byteWf, key.byteIn, key.pixWf, key.pixIn, key.plteWf, key.plteIn, key.alphaWf,
    key.alphaIn, key.lineWf, key.lineIn⟩

end Sys2Proof.Machine
end

