-- ==== Sys2Proof/Laws/Flags.lean ====
section
/-! SUPPORT. The bits of the three registers made of flags and fields, and what a write of one stores. -/

namespace Sys2Proof.Machine

theorem Status.toWord_getLsbD (f : Status) (k : Nat) (hk : k < 32) :
    f.toWord.getLsbD k = [f.err, f.wCrc, f.crcOk, f.prevValid, f.lsel].getD k false := by
  obtain ⟨a, b, c, d, e⟩ := f
  have : ∀ a b c d e : Bool, ∀ k < 32,
      (Status.toWord ⟨a, b, c, d, e⟩).getLsbD k = [a, b, c, d, e].getD k false := by decide +kernel
  exact this a b c d e k hk

theorem Ctrl.toWord_getLsbD (f : Ctrl) (k : Nat) (hk : k < 32) :
    f.toWord.getLsbD k = [f.strict, f.force32, f.trnsEn, f.pkFb].getD k false := by
  obtain ⟨a, b, c, d⟩ := f
  have : ∀ a b c d : Bool, ∀ k < 32,
      (Ctrl.toWord ⟨a, b, c, d⟩).getLsbD k = [a, b, c, d].getD k false := by decide +kernel
  exact this a b c d k hk

theorem Format.toWord_getLsbD (f : Format) (k : Nat) (hk : k < 32) :
    f.toWord.getLsbD k =
      if k < 5 then f.bitDepth.getLsbD k
      else if 8 ≤ k ∧ k < 11 then f.colorType.getLsbD (k - 8)
      else (decide (k = 16) && f.interlace) := by
  obtain ⟨b, c, i⟩ := f
  have : ∀ (b : BitVec 5) (c : BitVec 3) (i : Bool), ∀ k < 32,
      (Format.toWord ⟨b, c, i⟩).getLsbD k =
        if k < 5 then b.getLsbD k
        else if 8 ≤ k ∧ k < 11 then c.getLsbD (k - 8)
        else (decide (k = 16) && i) := by decide +kernel
  exact this b c i k hk

/-- `STATUS` as a number: the bit places of its flags. -/
theorem Status.toNat_toWord (f : Status) : f.toWord.toNat =
    f.err.toNat + 2 * f.wCrc.toNat + 4 * f.crcOk.toNat + 8 * f.prevValid.toNat + 16 * f.lsel.toNat := by
  obtain ⟨a, b, c, d, e⟩ := f
  revert a b c d e
  decide +kernel

/-- `CTRL` as a number: the bit places of its options. -/
theorem Ctrl.toNat_toWord (f : Ctrl) : f.toWord.toNat =
    f.strict.toNat + 2 * f.force32.toNat + 4 * f.trnsEn.toNat + 8 * f.pkFb.toNat := by
  obtain ⟨a, b, c, d⟩ := f
  revert a b c d
  decide +kernel

/-- `FORMAT` as a number: the bit places of its fields. -/
theorem Format.toNat_toWord (f : Format) : f.toWord.toNat =
    f.bitDepth.toNat + 2 ^ 8 * f.colorType.toNat + 2 ^ 16 * f.interlace.toNat := by
  obtain ⟨b, c, i⟩ := f
  revert b c i
  decide +kernel

/-- A write of `CTRL` keeps the four option bits of the value and no other. -/
theorem Ctrl.toWord_ofWord (v : Word) : (Ctrl.ofWord v).toWord = v &&& 0xF := by
  apply BitVec.eq_of_getLsbD_eq
  intro k hk
  rw [Ctrl.toWord_getLsbD _ k hk, BitVec.getLsbD_and]
  by_cases h : k < 4
  · interval_cases k <;> simp [Ctrl.ofWord]
  · have : ∀ k < 32, ¬k < 4 → (0xF : Word).getLsbD k = false := by decide
    rw [this k hk h, List.getD_eq_default _ _ (by simpa using h)]
    simp

/-- A write of `FORMAT` keeps the fields of the value and none of its reserved bits. -/
theorem Format.toWord_ofWord (v : Word) : (Format.ofWord v).toWord = v &&& 0x1071F := by
  apply BitVec.eq_of_getLsbD_eq
  intro k hk
  rw [Format.toWord_getLsbD _ k hk, BitVec.getLsbD_and]
  interval_cases k <;> simp [Format.ofWord]

@[simp] theorem Regs.setCrcOk_status (r : Regs) (ok : Bool) :
    (r.setCrcOk ok).status = { r.status with crcOk := ok } := rfl

@[simp] theorem Regs.setPrevValid_status (r : Regs) (valid : Bool) :
    (r.setPrevValid valid).status = { r.status with prevValid := valid } := rfl

@[simp] theorem Regs.setLsel_status (r : Regs) (sel : Bool) :
    (r.setLsel sel).status = { r.status with lsel := sel } := rfl

end Sys2Proof.Machine
end

