-- ==== Sys2Proof/Laws/PerInstr.lean ====
section
/-! SUPPORT. Statements about every command as syntax, one lemma per constructor of `Instr`. -/

/-- The word of a well-formed command matches a row of the opcode map under the row's mask (30_encoding.md
R92, R93). -/
def Sys2Proof.Laws.MatchesItsRow.Statement (i : Sys2Proof.Instr) : Prop :=
  i.wellFormed = true → ∃ r ∈ Sys2Proof.commandTable, Sys2Proof.encode i &&& r.1 = r.2

namespace Sys2Proof.Laws.MatchesItsRow

theorem nop : Statement .nop :=
  fun _ => ⟨(0xFFFFFFFF, 0x00000000), by decide, by decide⟩

theorem ctlRst : Statement .ctlRst :=
  fun _ => ⟨(0xFFFFFFFF, 0x01000000), by decide, by decide⟩

theorem ctlWclr : Statement .ctlWclr :=
  fun _ => ⟨(0xFFFFFFFF, 0x02000000), by decide, by decide⟩

theorem crcInit : Statement .crcInit :=
  fun _ => ⟨(0xFFFFFFFF, 0x10000000), by decide, by decide⟩

theorem crcByte (imm8 : Byte) : Statement (.crcByte imm8) := by
  intro _
  have h : ∀ b : Byte, encode (.crcByte b) &&& 0xFFFFFF00 = 0x11000000 := by decide +kernel
  exact ⟨(0xFFFFFF00, 0x11000000), by decide, h imm8⟩

theorem crcBuf : Statement .crcBuf :=
  fun _ => ⟨(0xFFFFFFFF, 0x12000000), by decide, by decide⟩

theorem crcChk : Statement .crcChk :=
  fun _ => ⟨(0xFFFFFFFF, 0x13000000), by decide, by decide⟩

theorem crcChkm : Statement .crcChkm :=
  fun _ => ⟨(0xFFFFFFFF, 0x14000000), by decide, by decide⟩

theorem crcChunk : Statement .crcChunk :=
  fun _ => ⟨(0xFFFFFFFF, 0x15000000), by decide, by decide⟩

theorem fltRow : Statement .fltRow :=
  fun _ => ⟨(0xFFFFFFFF, 0x20000000), by decide, by decide⟩

theorem a7Pass (p : Nat) : Statement (.a7Pass p) := by
  intro h
  have hp : p ≤ 7 := by simpa [Instr.wellFormed] using h
  refine ⟨(0xFFFFFFF8, 0x30000000), by decide, ?_⟩
  interval_cases p <;> rfl

theorem a7Map : Statement .a7Map :=
  fun _ => ⟨(0xFFFFFFFF, 0x31000000), by decide, by decide⟩

theorem a7Len : Statement .a7Len :=
  fun _ => ⟨(0xFFFFFFFF, 0x32000000), by decide, by decide⟩

theorem pxuRow : Statement .pxuRow :=
  fun _ => ⟨(0xFFFFFFFF, 0x40000000), by decide, by decide⟩

theorem pxpRow : Statement .pxpRow :=
  fun _ => ⟨(0xFFFFFFFF, 0x50000000), by decide, by decide⟩

theorem pxpImg : Statement .pxpImg :=
  fun _ => ⟨(0xFFFFFFFF, 0x51000000), by decide, by decide⟩

theorem decImg : Statement .decImg :=
  fun _ => ⟨(0xFFFFFFFF, 0x60000000), by decide, by decide⟩

end Sys2Proof.Laws.MatchesItsRow
end

