-- ==== Sys2Proof/Tests/Slice0.lean ====
section
/-! SUPPORT. The model's own tests: the well-formedness smoke, decoding of words written out from the spec,
small one-step tests whose expected values are the spec's (95_test_vectors.md and the rules' examples), and
a witness for the hypotheses of each obligation. -/

namespace Sys2Proof.Tests

open Sys2Proof Sys2Proof.Machine

-- One theorem after the other: many kernel evaluations that wait for each other would need a thread each.
set_option Elab.async false

/-! ## Small states -/

/-- The registers after a host wrote the format registers (`HDR w, h, ct, d, il` of 30_encoding.md R96). -/
def hdr (w h ct d : Nat) (il : Bool) : Regs :=
  { Regs.reset with
    width := word w
    height := word h
    format := { bitDepth := BitVec.ofNat 5 d, colorType := BitVec.ofNat 3 ct, interlace := il } }

def bytes (vs : List Nat) : List Byte := vs.map (BitVec.ofNat 8)

/-- A machine in the example setting, with registers `r`, BYTE bytes `b` from address 0, PIX cells `c` from
index 0. -/
def machine (r : Regs) (b c : List Nat) : State :=
  { State.reset with
    regs := r
    byteMem := Memory.run 0 (bytes b)
    pixMem := Memory.run 0 (c.map (BitVec.ofNat 16)) }

/-- `r` with pass `p` selected (43_adam7.md R174). -/
def inPass (r : Regs) (p w h : Nat) : Regs :=
  { r with pass := BitVec.ofNat 3 p, passW := word w, passH := word h }

/-- `r` with the input `[a, a + n)` and `IN_END = e`. -/
def input (r : Regs) (a n e : Nat) : Regs :=
  { r with srcAddr := word a, srcLen := word n, inEnd := word e }

/-- `r` halted by a fault with code 0x30 at 7 (95_test_vectors.md E7). -/
def halted (r : Regs) : Regs :=
  { r with status := { r.status with err := true }, errcode := 0x30, erraddr := 7 }

/-- `s` with one host action to come. -/
def doing (act : HostAction) (s : State) : State := { s with script := [act] }

/-- A command ends in a next state that satisfies `p`. -/
def ends (i : Instr) (s : State) (p : State → Bool) : Bool :=
  match exec i s with
  | .next t => p t
  | .fault _ => false
  | .refused _ => false

/-- A step ends in a next state that satisfies `p`. -/
def steps (s : State) (p : State → Bool) : Bool :=
  match step s with
  | .next t => p t
  | .fault _ => false
  | .refused _ => false

theorem next_of_ends {i : Instr} {s : State} {p : State → Bool} (h : ends i s p = true) :
    ∃ t, exec i s = .next t ∧ p t = true := by
  unfold ends at h
  split at h
  · exact ⟨_, by assumption, h⟩
  · exact absurd h (by simp)
  · exact absurd h (by simp)

theorem next_of_steps {s : State} {p : State → Bool} (h : steps s p = true) :
    ∃ t, step s = .next t ∧ p t = true := by
  unfold steps at h
  split at h
  · exact ⟨_, by assumption, h⟩
  · exact absurd h (by simp)
  · exact absurd h (by simp)

/-- The port words at the offsets of `l` have the values of `l`. -/
def reads (t : State) (l : List (Nat × Word)) : Bool := l.all (fun e => t.regRead e.1 == e.2)

/-- The bytes from address `a` on are `vs`. -/
def holds (t : State) (a : Nat) (vs : List Nat) : Bool := t.bytesAt a vs.length == bytes vs

/-- The PIX cells from index `i` on are `vs`. -/
def shows (t : State) (i : Nat) (vs : List Nat) : Bool :=
  (List.range vs.length).map (fun k => (t.cellAt (i + k)).toNat) == vs

/-! ## WellFormed -/

/-- The one check of `wellFormed`: a pass number is 0..7 (R91). -/
theorem test_wellFormed_refuses_pass_8 : (Instr.a7Pass 8).wellFormed = false := by decide

theorem test_wellFormed_accepts_pass_7 : (Instr.a7Pass 7).wellFormed = true := by decide

/-! ## Decoding, every constructor, words written out as opcode ++ argument (30_encoding.md R90, R93) -/

theorem test_decode_nop : decodeWord ((0x00 : BitVec 8) ++ (0 : BitVec 24)) = .ok .nop := by decide
theorem test_decode_ctlRst : decodeWord ((0x01 : BitVec 8) ++ (0 : BitVec 24)) = .ok .ctlRst := by decide
theorem test_decode_ctlWclr : decodeWord ((0x02 : BitVec 8) ++ (0 : BitVec 24)) = .ok .ctlWclr := by decide
theorem test_decode_crcInit : decodeWord ((0x10 : BitVec 8) ++ (0 : BitVec 24)) = .ok .crcInit := by decide
theorem test_decode_crcByte :
    decodeWord ((0x11 : BitVec 8) ++ (0 : BitVec 16) ++ (0b10000001 : BitVec 8)) = .ok (.crcByte 0x81) := by
  decide
theorem test_decode_crcBuf : decodeWord ((0x12 : BitVec 8) ++ (0 : BitVec 24)) = .ok .crcBuf := by decide
theorem test_decode_crcChk : decodeWord ((0x13 : BitVec 8) ++ (0 : BitVec 24)) = .ok .crcChk := by decide
theorem test_decode_crcChkm : decodeWord ((0x14 : BitVec 8) ++ (0 : BitVec 24)) = .ok .crcChkm := by decide
theorem test_decode_crcChunk : decodeWord ((0x15 : BitVec 8) ++ (0 : BitVec 24)) = .ok .crcChunk := by decide
theorem test_decode_fltRow : decodeWord ((0x20 : BitVec 8) ++ (0 : BitVec 24)) = .ok .fltRow := by decide
theorem test_decode_a7Pass :
    decodeWord ((0x30 : BitVec 8) ++ (0 : BitVec 21) ++ (0b110 : BitVec 3)) = .ok (.a7Pass 6) := by decide
theorem test_decode_a7Map : decodeWord ((0x31 : BitVec 8) ++ (0 : BitVec 24)) = .ok .a7Map := by decide
theorem test_decode_a7Len : decodeWord ((0x32 : BitVec 8) ++ (0 : BitVec 24)) = .ok .a7Len := by decide
theorem test_decode_pxuRow : decodeWord ((0x40 : BitVec 8) ++ (0 : BitVec 24)) = .ok .pxuRow := by decide
theorem test_decode_pxpRow : decodeWord ((0x50 : BitVec 8) ++ (0 : BitVec 24)) = .ok .pxpRow := by decide
theorem test_decode_pxpImg : decodeWord ((0x51 : BitVec 8) ++ (0 : BitVec 24)) = .ok .pxpImg := by decide
theorem test_decode_decImg : decodeWord ((0x60 : BitVec 8) ++ (0 : BitVec 24)) = .ok .decImg := by decide

/-- 95_test_vectors.md E2 to E6: the illegal words. -/
theorem test_decode_illegal_words :
    ([0x00000001, 0x03000000, 0x16000000, 0x21000000, 0x33000000, 0x41000000, 0x52000000, 0x61000000,
      0xFFFFFFFF, 0x10000001, 0x60800000, 0x01000001, 0x11000100, 0x30000008] : List Word).all
      (fun w => !matchesTable w && match decodeWord w with | .ok _ => false | .error _ => true) = true := by
  decide

/-- No word matches two rows of the opcode map. -/
theorem test_rows_disjoint :
    commandTable.Pairwise (fun r r' => r.2 &&& (r.1 &&& r'.1) ≠ r'.2 &&& (r.1 &&& r'.1)) := by decide +kernel

theorem test_decodeTableWord : decodeTableWord 32 0x30000005 = some (.a7Pass 5) := by decide

/-- `withFetchWord` places the command: the next step runs it (R133). -/
theorem test_withFetchWord :
    steps (State.reset.withFetchWord 32 0x10000000) (fun t => reads t [(0x030, 0xFFFFFFFF), (0x034, 0)]) = true := by
  decide +kernel

/-! ## Control (95_test_vectors.md E1, E7 to E9, E11) -/

theorem test_nop : exec .nop State.reset = .next State.reset := rfl

/-- E8: registers cleared, the palette kept. -/
theorem test_ctlRst :
    ends .ctlRst { machine (halted (hdr 4 4 3 2 true)) [0x83] [] with plte := [(3, 0xFFFFFF)] } (fun t =>
      reads t [(0x004, 0), (0x008, 0), (0x00C, 0), (0x014, 0), (0x01C, 0), (0x40C, 0xFFFFFF)] &&
      holds t 0 [0x83]) = true := by decide +kernel

/-- E9, with `CRC_OK` set beside the warning: it stays. -/
theorem test_ctlWclr :
    ends .ctlWclr (machine { Regs.reset with
        status := { err := false, wCrc := true, crcOk := true, prevValid := false, lsel := false }
        warnAddr := 33
        warnCnt := 1 } [] [])
      (fun t => reads t [(0x004, 4), (0x03C, 0), (0x040, 0)]) = true := by decide +kernel

/-- E7: a halted block discards all but the exact word of `CTL.RST`. -/
theorem test_halted_discards :
    ([0x60000000, 0x02000000, 0x01000001, 0xFFFFFFFF] : List Word).all (fun w =>
      steps (doing (.regWrite 0 w) (machine (halted Regs.reset) [] []))
        (fun t => reads t [(0x004, 1), (0x008, 0x30), (0x00C, 7)])) = true := by decide +kernel

/-- E4: an illegal word takes `ERR_ILLEGAL_CMD` with the word. -/
theorem test_illegal_word :
    steps (doing (.regWrite 0 0x60800000) State.reset)
      (fun t => reads t [(0x004, 1), (0x008, 1), (0x00C, 0x60800000)]) = true := by decide +kernel

/-! ## The register port (10_state.md R23, R25, R27) -/

/-- The reserved bits of `FORMAT` and `CTRL` read 0; `PLTE_COUNT` has nine bits (E10). -/
theorem test_port_masks :
    reads (((State.reset.regWrite 0x01C 0xFFFFFFFF).regWrite 0x010 0xFFFFFFFF).regWrite 0x058 0xFFFFFF01)
      [(0x01C, 0x1071F), (0x010, 0xF), (0x058, 0x101)] = true := by decide +kernel

/-- The bit places of R24, R25 and R27, and two operand registers that stand side by side. -/
theorem test_port_bits :
    reads (machine { hdr 5 7 6 16 true with
        status := { Regs.reset.status with wCrc := true, prevValid := true }
        ctrl := { Regs.reset.ctrl with force32 := true, pkFb := true } } [] [])
      [(0x004, 0xA), (0x010, 0xA), (0x014, 5), (0x018, 7), (0x01C, 0x10610)] = true := by decide +kernel

/-- E12: a format write of the old value still invalidates the pass. -/
theorem test_format_write :
    steps (doing (.regWrite 0x014 2) (machine (inPass (hdr 2 2 0 8 false) 0 2 2) [] []))
      (fun t => reads t [(0x014, 2), (0x060, 0), (0x064, 0), (0x068, 0), (0x06C, 0)]) = true := by
  decide +kernel

/-! ## CRC (41_crc.md R130 to R138; 95_test_vectors.md 2.2, program P1) -/

/-- C6: the CRC of "123456789". -/
theorem test_crc_123456789 :
    crcFeed crcInitial (bytes [0x31, 0x32, 0x33, 0x34, 0x35, 0x36, 0x37, 0x38, 0x39]) = 0x340BC6D9 := by
  decide +kernel

theorem test_crcInit :
    ends .crcInit State.reset (fun t => reads t [(0x030, 0xFFFFFFFF), (0x034, 0), (0x004, 0)]) = true := by
  decide +kernel

/-- The first byte of C9, from the initialised accumulator. -/
theorem test_crcByte :
    ends (.crcByte 0x49) (machine { Regs.reset with crcAcc := 0xFFFFFFFF } [] [])
      (fun t => reads t [(0x030, 0x22FDE946)]) = true := by decide +kernel

/-- C16: the seven bytes after "1". -/
theorem test_crcBuf :
    ends .crcBuf (machine (input { Regs.reset with crcAcc := crcStep 0xFFFFFFFF 0x31 } 1 7 9)
        [0x31, 0x32, 0x33, 0x34, 0x35, 0x36, 0x37, 0x38, 0x39] [])
      (fun t => reads t [(0x030, 0x651F2550), (0x020, 1), (0x004, 0)]) = true := by decide +kernel

/-- C18: past the end, nothing is fed. -/
theorem test_crcBuf_bounds :
    ends .crcBuf (machine (input { Regs.reset with crcAcc := 0xFFFFFFFF } 5 5 9) [] [])
      (fun t => reads t [(0x004, 1), (0x008, 4), (0x00C, 5), (0x030, 0xFFFFFFFF)]) = true := by decide +kernel

/-- C17. -/
theorem test_crcChk :
    ends .crcChk (machine { Regs.reset with crcAcc := 0x340BC6D9, crcExpect := 0xCBF43926 } [] [])
      (fun t => reads t [(0x004, 4), (0x03C, 0), (0x040, 0)]) = true := by decide +kernel

/-- C21. -/
theorem test_crcChkm_bounds :
    ends .crcChkm (machine (input Regs.reset 4 0 7) [] [])
      (fun t => reads t [(0x004, 1), (0x008, 4), (0x00C, 4), (0x038, 0)]) = true := by decide +kernel

/-- C9: the stored CRC of "IEND", big-endian in BYTE. -/
theorem test_crcChkm :
    ends .crcChkm (machine (input { Regs.reset with crcAcc := 0x51BD9F7D } 1 0 5) [0, 0xAE, 0x42, 0x60, 0x82] [])
      (fun t => reads t [(0x004, 4), (0x038, 0xAE426082), (0x020, 1)]) = true := by decide +kernel

/-- An IEND chunk at 0 with its last CRC byte `c` (program P1 and its variant b). -/
def iend (c : Nat) : List Nat := [0, 0, 0, 0, 0x49, 0x45, 0x4E, 0x44, 0xAE, 0x42, 0x60, c]

/-- Program P1, the IEND chunk. -/
theorem test_crcChunk :
    ends .crcChunk (machine (input Regs.reset 0 0 12) (iend 0x82) []) (fun t =>
      reads t [(0x004, 4), (0x044, 0), (0x048, 0x49454E44), (0x030, 0x51BD9F7D), (0x038, 0xAE426082),
        (0x020, 12), (0x040, 0)]) = true := by decide +kernel

/-- Program P1 variant c: strict mode, the chunk's registers are written all the same. -/
theorem test_crcChunk_strict :
    ends .crcChunk (machine (input { Regs.reset with ctrl := { Regs.reset.ctrl with strict := true } } 0 0 12)
        (iend 0x83) []) (fun t =>
      reads t [(0x004, 1), (0x008, 0x11), (0x00C, 0), (0x038, 0xAE426083), (0x020, 12), (0x040, 0)]) = true := by
  decide +kernel

/-! ## Filter (42_filter.md R157; program P2; F7) -/

/-- R157, all five types with the previous row. -/
theorem test_unfilter :
    ((List.range 5).map (fun ft =>
      unfilter ft (bytes [1, 2, 3, 4, 5, 6]) (some (bytes [10, 20, 30, 40, 50, 60])) 3)) =
    [bytes [1, 2, 3, 4, 5, 6], bytes [1, 2, 3, 5, 7, 9], bytes [11, 22, 33, 44, 55, 66],
     bytes [6, 12, 18, 27, 36, 45], bytes [11, 22, 33, 44, 55, 66]] := by decide +kernel

/-- R157, the same without a previous row, and the exact inner sum of Average. -/
theorem test_unfilter_first_row :
    ((List.range 5).map (fun ft => unfilter ft (bytes [1, 2, 3, 4, 5, 6]) none 3)) =
    [bytes [1, 2, 3, 4, 5, 6], bytes [1, 2, 3, 5, 7, 9], bytes [1, 2, 3, 4, 5, 6],
     bytes [1, 2, 3, 4, 6, 7], bytes [1, 2, 3, 5, 7, 9]] ∧
    unfilter 3 (bytes [1, 1]) (some (bytes [255, 255])) 1 = bytes [128, 192] := by decide +kernel

/-- Program P2 before its row 3: three rows done, the previous row in `LB[1]`. -/
def p2row3 : State :=
  { machine (input { inPass (hdr 2 5 2 8 false) 0 2 5 with
      row := 3
      status := { err := false, wCrc := false, crcOk := false, prevValid := true, lsel := true } } 0 0 7)
      [3, 0xE7, 0xF1, 0xFA, 0x4E, 0x52, 0x57] [] with
    lb1 := Memory.run 0 (bytes [0xFA, 0xFB, 0xFC, 0x05, 0x06, 0x07]) }

/-- Program P2, row 3, Average. -/
theorem test_fltRow :
    ends .fltRow p2row3 (fun t =>
      t.lineBytes false 6 == bytes [0x64, 0x6E, 0x78, 0x82, 0x8C, 0x96] &&
      reads t [(0x004, 8), (0x020, 7), (0x06C, 4), (0x070, 0)]) = true := by decide +kernel

/-- F7. -/
theorem test_fltRow_invalid_filter :
    ends .fltRow (machine (input (inPass (hdr 2 2 0 8 false) 0 2 2) 0 0 3) [5] [])
      (fun t => reads t [(0x004, 1), (0x008, 0x22), (0x00C, 0), (0x06C, 0), (0x020, 0)]) = true := by
  decide +kernel

/-! ## Adam7 (95_test_vectors.md A1, A2, A6, A8, A9, E11) -/

/-- A1, pass 6. -/
theorem test_a7Pass :
    ends (.a7Pass 6) (machine (hdr 5 5 0 8 true) [] [])
      (fun t => reads t [(0x060, 6), (0x064, 2), (0x068, 3), (0x06C, 0)]) = true := by decide +kernel

/-- E11. -/
theorem test_a7Pass_reset : ends (.a7Pass 0) State.reset (fun t => reads t [(0x004, 1), (0x008, 2)]) = true := by
  decide +kernel

/-- A2, the last position. -/
theorem test_a7Map :
    ends .a7Map (machine { inPass (hdr 5 5 0 8 true) 6 2 3 with a7Col := 1, a7Row := 2 } [] [])
      (fun t => reads t [(0x07C, 3), (0x080, 4), (0x084, 92)]) = true := by decide +kernel

/-- A6. -/
theorem test_a7Map_range :
    ends .a7Map (machine { inPass (hdr 0x10000 0x10000 0 8 true) 7 65536 32768 with
        a7Col := 0xFFFF, a7Row := 0x7FFF } [] [])
      (fun t => reads t [(0x004, 1), (0x008, 3), (0x07C, 0)]) = true := by decide +kernel

/-- A9, 5 by 3 RGB 16, interlaced. -/
theorem test_a7Len :
    ends .a7Len (machine (hdr 5 3 2 16 true) [] []) (fun t => reads t [(0x088, 97)]) = true := by decide +kernel

/-- A8. -/
theorem test_a7Len_range :
    ends .a7Len (machine (hdr 0xFFFFFFFF 0xFFFFFFFF 6 16 false) [] [])
      (fun t => reads t [(0x004, 1), (0x008, 3), (0x088, 0)]) = true := by decide +kernel

/-! ## Unpack (44_unpack.md R206) -/

/-- Three colours, the first with alpha 0x80 (R206). -/
def paletted (r : Regs) (s : State) : State :=
  { s with
    regs := { r with plteCount := 3, trnsCount := 1 }
    plte := [(0, 0xFF0000), (1, 0x00FF00), (2, 0x0000FF)]
    alpha := [(0, 0x80)] }

/-- A row of `w` indices of depth 4 already in `LB[0]`, `PXU.ROW` to come. -/
def indexedRow (w : Nat) (row : List Nat) : State :=
  { paletted { inPass (hdr w 1 3 4 false) 0 w 1 with
      row := 1, status := { Regs.reset.status with prevValid := true } } State.reset with
    lb0 := Memory.run 0 (bytes row) }

/-- R206, indexed at depth 4. -/
theorem test_pxuRow :
    ends .pxuRow (indexedRow 4 [0x01, 0x20]) (fun t =>
      shows t 0 [255, 0, 0, 128, 0, 255, 0, 255, 0, 0, 255, 255, 255, 0, 0, 128] && reads t [(0x004, 8)]) = true := by
  decide +kernel

/-- R206, an index out of range in pixel 1. -/
theorem test_pxuRow_index_out_of_range :
    ends .pxuRow (indexedRow 2 [0x03]) (fun t => reads t [(0x004, 9), (0x008, 0x30), (0x00C, 1)]) = true := by
  decide +kernel

/-- R206, 16-bit RGB: the key is compared before the `force32` reduction. -/
theorem test_unpack_force32_key :
    unpackPixel (machine { hdr 1 1 2 16 false with
        ctrl := { strict := false, force32 := true, trnsEn := true, pkFb := false }
        trnsKey0 := 0x1234, trnsKey1 := 0x5678, trnsKey2 := 0x9ABC } [] [])
      (bytes [0x12, 0x34, 0x56, 0x78, 0x9A, 0xBC]) 0 = some { r := 0x12, g := 0x56, b := 0x9A, a := 0 } ∧
    unpackPixel (machine { hdr 1 1 2 16 false with
        ctrl := { strict := false, force32 := true, trnsEn := true, pkFb := false }
        trnsKey0 := 0x1200, trnsKey1 := 0x5600, trnsKey2 := 0x9A00 } [] [])
      (bytes [0x12, 0x34, 0x56, 0x78, 0x9A, 0xBC]) 0 = some { r := 0x12, g := 0x56, b := 0x9A, a := 0xFF } := by
  decide +kernel

/-- R206, grey at depth 2. -/
theorem test_unpack_grey_2 :
    (List.range 4).map (fun k => unpackPixel (machine (hdr 4 1 0 2 false) [] []) (bytes [0x1B]) k) =
      ([0, 85, 170, 255] : List Channel).map (fun v => some { r := v, g := v, b := v, a := 255 }) := by
  decide +kernel

/-! ## Pack (45_pack.md R227; K1, K6) -/

/-- K1: a 2 by 2 grey image. -/
def greyImage (row dst : Nat) : State :=
  machine { hdr 2 2 0 8 false with dstAddr := word dst, pkY := word row } []
    [1, 9, 9, 9, 2, 9, 9, 9, 3, 9, 9, 9, 4, 9, 9, 9]

/-- K1, the second row. -/
theorem test_pxpRow :
    ends .pxpRow (greyImage 1 12) (fun t =>
      holds t 12 [3, 4] && reads t [(0x028, 14), (0x08C, 2), (0x004, 0)]) = true := by decide +kernel

/-- K1, the third command. -/
theorem test_pxpRow_operand :
    ends .pxpRow (greyImage 2 14) (fun t => reads t [(0x004, 1), (0x008, 6), (0x028, 14), (0x08C, 2)]) = true := by
  decide +kernel

/-- K5's format and palette with the image `img`. -/
def k5 (img : List Nat) : State :=
  { machine { hdr 2 2 3 8 false with
      plteCount := 2
      ctrl := { Regs.reset.ctrl with pkFb := true } } [] img with
    plte := [(0, 0xFF0000), (1, 0x00FF00)] }

/-- K5. -/
theorem test_pxpImg :
    ends .pxpImg (k5 [255, 0, 0, 255, 0, 255, 0, 255, 0, 255, 0, 255, 255, 0, 0, 255]) (fun t =>
      holds t 0 [0, 0, 1, 0, 1, 0] && reads t [(0x004, 0), (0x028, 6), (0x08C, 2)]) = true := by decide +kernel

/-- K6: the last pixel is not in the palette. -/
theorem test_pxpImg_miss :
    ends .pxpImg (k5 [255, 0, 0, 255, 0, 255, 0, 255, 0, 255, 0, 255, 1, 2, 3, 255]) (fun t =>
      holds t 0 [0, 0, 1] && reads t [(0x008, 0x31), (0x00C, 12), (0x028, 3), (0x08C, 1)]) = true := by decide +kernel

/-! ## DEC.IMG (46_decode_image.md; program P5, D1) -/

/-- Program P5 with `n` palette entries declared. -/
def p5 (n : Nat) : State :=
  { machine (input { hdr 4 4 3 2 true with plteCount := BitVec.ofNat 9 n, trnsCount := 1 } 0 14 14)
      [0, 0, 0, 0x80, 0, 0x60, 0, 0x70, 0, 0x60, 0, 0xE4, 0, 0x33] [] with
    plte := [(0, 0xFF0000), (1, 0x00FF00), (2, 0x0000FF), (3, 0xFFFFFF)]
    alpha := [(0, 0x40)] }

/-- Program P5, first image row and end state. -/
theorem test_decImg :
    ends .decImg (p5 4) (fun t =>
      shows t 0 [255, 0, 0, 64, 0, 255, 0, 255, 0, 0, 255, 255, 255, 255, 255, 255] &&
      reads t [(0x004, 0x18), (0x020, 14), (0x088, 14), (0x060, 7), (0x064, 4), (0x068, 2), (0x06C, 2),
        (0x070, 12)]) = true := by decide +kernel

/-- Program P5, fault variant. -/
theorem test_decImg_palette_fault :
    ends .decImg (p5 3) (fun t =>
      reads t [(0x004, 9), (0x008, 0x30), (0x00C, 7), (0x060, 6), (0x064, 2), (0x068, 2), (0x06C, 1),
        (0x070, 6), (0x020, 8), (0x088, 14)]) = true := by decide +kernel

/-! ## Witnesses: for each obligation with hypotheses a concrete case that meets all of them, and one for
each clause, at a boundary where there is one. An obligation about a step or a command that ends in some
state takes that state from `next_of_steps` or `next_of_ends`. -/

theorem witness_DecodeOfEncode : (Instr.a7Pass 7).wellFormed = true := by decide

theorem witness_DecodeAccepts : decodeWord 0x30000007 = .ok (.a7Pass 7) := by decide

theorem witness_StepRuns :
    (doing (.regWrite 0x000 0x110000FF) State.reset).script = .regWrite 0x000 0x110000FF :: [] ∧
    State.reset.halted = false ∧ decodeWord 0x110000FF = .ok (.crcByte 0xFF) := by decide

theorem witness_IllegalWord :
    (doing (.regWrite 0x000 0x30000008) State.reset).script = .regWrite 0x000 0x30000008 :: [] ∧
    State.reset.halted = false ∧ ∀ r ∈ commandTable, (0x30000008 : Word) &&& r.1 ≠ r.2 :=
  ⟨rfl, rfl, by simp [commandTable]⟩

theorem witness_HaltedBlock :
    (machine (halted Regs.reset) [] []).halted = true ∧ (0x01000000 : Word) = 0x01000000 ∧
    (0x01000001 : Word) ≠ 0x01000000 := by decide

/-- The halt is kept: a discarded command. -/
theorem witness_FirstFault_kept :
    (machine (halted Regs.reset) [] []).halted = true ∧
    ∃ t, step (doing (.regWrite 0 0x60000000) (machine (halted Regs.reset) [] [])) = .next t ∧
      (t.halted && t.regs.errcode == 0x30) = true := ⟨by decide, next_of_steps (by decide +kernel)⟩

/-- The halt is cleared: the word of `CTL.RST`. -/
theorem witness_FirstFault_cleared :
    ∃ t, step (doing (.regWrite 0 0x01000000) (machine (halted Regs.reset) [] [])) = .next t ∧
      (!t.halted) = true := next_of_steps (by decide +kernel)

theorem witness_CommandsWriteOnly :
    Instr.crcChunk ≠ .pxpRow ∧ Instr.crcChunk ≠ .pxpImg ∧ Instr.crcChunk ≠ .pxuRow ∧
    Instr.crcChunk ≠ .decImg ∧ Instr.crcChunk ≠ .fltRow ∧
    ∃ t, exec .crcChunk (machine (input Regs.reset 0 0 12) (iend 0x82) []) = .next t ∧ (!t.halted) = true :=
  ⟨by decide, by decide, by decide, by decide, by decide, next_of_ends (by decide +kernel)⟩

/-- The ends of the two unmapped ranges; the last offset, the first palette entry, a format register and a
read-only register. -/
theorem witness_RegisterWrite :
    (∀ off ∈ [0x090, 0x3FC, 0xC00, 0xFFC],
      portOffset off = true ∧ ((0x08C < off ∧ off < 0x400) ∨ 0xC00 ≤ off)) ∧
    (∀ off ∈ [0xFFC, 0x400, 0x01C, 0x004], portOffset off = true ∧ off ≠ 0x000 ∧
      (doing (.regWrite off 1) State.reset).script = .regWrite off 1 :: []) := by decide

theorem witness_FormatWrite :
    (0x01C ∈ formatOffsets) ∧
    steps (doing (.regWrite 0x01C 0x208) (machine (hdr 2 2 0 8 false) [] [])) (fun t => t.regs.cfgLegal) = true := by
  decide +kernel

theorem witness_Reads_register : portOffset 0xFFC = true ∧
    (doing (.regRead 0xFFC) State.reset).script = .regRead 0xFFC :: [] := by decide

theorem witness_Reads_byte : 4095 < State.reset.params.byteSize ∧
    (doing (.byteRead 4095) State.reset).script = .byteRead 4095 :: [] := by decide

theorem witness_Reads_cell : 4095 < State.reset.params.pixSize ∧
    (doing (.pixRead 4095) State.reset).script = .pixRead 4095 :: [] := by decide

theorem witness_CrcResult :
    0x088 ∈ readOnlyOffsets ∧
    (doing (.regWrite 0x088 7) State.reset).script = .regWrite 0x088 7 :: [] := by decide

theorem witness_HostMemoryWrite :
    4095 < State.reset.params.byteSize ∧ 4095 < State.reset.params.pixSize ∧
    (doing (.byteWrite 4095 7) State.reset).script = .byteWrite 4095 7 :: [] ∧
    (doing (.pixWrite 4095 7) State.reset).script = .pixWrite 4095 7 :: [] := by decide

/-- The first address outside each space, the first offset past the port, an offset between two words. -/
theorem witness_OutOfRange :
    State.reset.params.byteSize ≤ 4096 ∧ State.reset.params.pixSize ≤ 4096 ∧
    (0x1000 % 4 ≠ 0 ∨ 0xFFC < 0x1000) ∧ (2 % 4 ≠ 0 ∨ 0xFFC < 2) ∧
    (doing (.byteRead 4096) State.reset).script = .byteRead 4096 :: [] ∧
    (doing (.regWrite 0x1000 7) State.reset).script = .regWrite 0x1000 7 :: [] := by decide

theorem witness_HardwareReset :
    (doing .hwReset (machine (halted Regs.reset) [] [])).script = .hwReset :: [] ∧
    portOffset 0x3FC = true ∧ 0x3FC < 0x400 := by decide

theorem witness_Nop :
    (doing (.regWrite 0x000 0x00000000) (machine (halted Regs.reset) [] [])).script =
      .regWrite 0x000 0x00000000 :: [] := by decide

theorem witness_SoftReset :
    (doing (.regWrite 0x000 0x01000000) (machine (halted Regs.reset) [] [])).script =
      .regWrite 0x000 0x01000000 :: [] ∧
    portOffset 0x3FC = true ∧ 0x3FC < 0x400 ∧ portOffset 0x400 = true ∧ 0x400 ≤ 0x400 := by decide

theorem witness_WarningClear :
    (doing (.regWrite 0x000 0x02000000) (machine (halted Regs.reset) [] [])).halted = true ∧
    (doing (.regWrite 0x000 0x02000000) (machine (halted Regs.reset) [] [])).script =
      .regWrite 0x000 0x02000000 :: [] := by decide

/-- Registers with a warning at 8. -/
def warned : Regs :=
  { Regs.reset with status := { Regs.reset.status with wCrc := true }, warnAddr := 8, warnCnt := 1 }

/-- A second warning (program P1 variant d). -/
theorem witness_WarningSticky_again :
    (machine (input warned 0 0 12) (iend 0x83) []).regs.status.wCrc = true ∧
    ∃ t, step (doing (.regWrite 0 0x15000000) (machine (input warned 0 0 12) (iend 0x83) [])) = .next t ∧
      (t.regs.status.wCrc && t.regs.warnCnt == 2) = true := ⟨by decide, next_of_steps (by decide +kernel)⟩

/-- The clearing command. -/
theorem witness_WarningSticky_cleared :
    ∃ t, step (doing (.regWrite 0 0x02000000) (machine warned [] [])) = .next t ∧
      (!t.regs.status.wCrc) = true := next_of_steps (by decide +kernel)

/-- An empty range past the end of the input (C19). -/
theorem witness_CrcBuf_empty : (input Regs.reset 50 0 9).srcLen = 0 := by decide

/-- A range that ends exactly at `RLIM`. -/
theorem witness_CrcBuf_fits :
    (input Regs.reset 2 7 9).srcAddr.toNat + (input Regs.reset 2 7 9).srcLen.toNat ≤
      min (input Regs.reset 2 7 9).inEnd.toNat (machine (input Regs.reset 2 7 9) [] []).params.byteSize := by decide

/-- A range one byte longer, past `BYTE_SIZE` (C20). -/
theorem witness_CrcBuf_bounds :
    1 ≤ (input Regs.reset 4090 7 5000).srcLen.toNat ∧
    min (input Regs.reset 4090 7 5000).inEnd.toNat (machine (input Regs.reset 4090 7 5000) [] []).params.byteSize <
      (input Regs.reset 4090 7 5000).srcAddr.toNat + (input Regs.reset 4090 7 5000).srcLen.toNat := by decide

/-- The three verdicts: equal, unequal in lenient mode, unequal in strict mode. -/
theorem witness_CrcChk :
    (machine { Regs.reset with crcExpect := 0xFFFFFFFF } [] []).regRead 0x030 ^^^ 0xFFFFFFFF =
      (machine { Regs.reset with crcExpect := 0xFFFFFFFF } [] []).regRead 0x038 ∧
    (State.reset.regRead 0x030 ^^^ 0xFFFFFFFF ≠ State.reset.regRead 0x038 ∧ State.reset.regs.ctrl.strict = false) ∧
    (machine { Regs.reset with ctrl := { Regs.reset.ctrl with strict := true } } [] []).regs.ctrl.strict = true := by
  decide +kernel

theorem witness_CrcChkm_fits :
    (input Regs.reset 5 0 9).srcAddr.toNat + 4 ≤ min (input Regs.reset 5 0 9).inEnd.toNat
      State.reset.params.byteSize := by decide

theorem witness_CrcChkm_bounds :
    min (input Regs.reset 6 0 9).inEnd.toNat State.reset.params.byteSize <
      (input Regs.reset 6 0 9).srcAddr.toNat + 4 := by decide

/-- A chunk that ends exactly at `IN_END`. -/
theorem witness_CrcChunk (s : State) (hs : s = machine (input Regs.reset 0 0 12) (iend 0x82) []) :
    0 = s.regs.srcAddr.toNat ∧ 0 = s.be32Value 0 ∧ 0 ≤ 0x7FFFFFFF ∧
    0 + 12 + 0 ≤ min s.regs.inEnd.toNat s.params.byteSize := by subst hs; decide +kernel

/-- A header one byte short; the least illegal length (C23); the greatest legal one, which does not fit
(C24). -/
theorem witness_CrcChunkFaults (a b c : State) (ha : a = machine (input Regs.reset 0 0 7) [] [])
    (hb : b = machine (input Regs.reset 0 0 4096) [0x80, 0, 0, 0, 0x49, 0x44, 0x41, 0x54] [])
    (hc : c = machine (input Regs.reset 0 0 4096) [0x7F, 0xFF, 0xFF, 0xFF, 0x49, 0x44, 0x41, 0x54] []) :
    (0 = a.regs.srcAddr.toNat ∧ min a.regs.inEnd.toNat a.params.byteSize < 0 + 8) ∧
    (0 = b.regs.srcAddr.toNat ∧ 0 + 8 ≤ min b.regs.inEnd.toNat b.params.byteSize ∧ 0x7FFFFFFF < b.be32Value 0) ∧
    (0 = c.regs.srcAddr.toNat ∧ 0 + 8 ≤ min c.regs.inEnd.toNat c.params.byteSize ∧ c.be32Value 0 ≤ 0x7FFFFFFF ∧
      min c.regs.inEnd.toNat c.params.byteSize < 0 + 12 + c.be32Value 0) := by
  subst ha hb hc; decide +kernel

/-- Illegal formats for the eight commands: PNGC's scenario 4, a width of 0, 257 palette entries; and a
legal one with the most entries. -/
theorem witness_FormatCommands :
    (hdr 2 4 2 4 false).cfgLegal = false ∧ (hdr 0 4 0 8 false).cfgLegal = false ∧
    { hdr 2 2 3 8 false with plteCount := 257 }.cfgLegal = false ∧
    { hdr 2 2 3 8 false with plteCount := 256, trnsCount := 256 }.cfgLegal = true ∧
    Instr.decImg ∈ [Instr.fltRow, .a7Map, .a7Len, .pxuRow, .pxpRow, .pxpImg, .decImg] := by decide +kernel

/-- A command that does not use the format, with the code 0x02 there before. -/
theorem witness_FormatCommands_others :
    ∃ t, exec .crcInit (machine { Regs.reset with errcode := 0x02 } [] []) = .next t ∧
      (t.regs.errcode == 0x02) = true := next_of_ends (by decide +kernel)

theorem witness_Samples :
    (hdr 1 1 0 4 false).format.bitDepth.toNat ∈ [1, 2, 4] ∧ (hdr 1 1 0 8 false).format.bitDepth.toNat = 8 ∧
    (hdr 1 1 0 16 false).format.bitDepth.toNat = 16 := by decide

theorem witness_RowBytes : (hdr 1 1 6 16 false).format.legalPair = true := by decide

/-- The three branches of `paeth`: a tie of all three; `b` alone nearest; `c` nearest. -/
theorem witness_Paeth :
    paeth 7 7 7 = 7 ∧ paeth 101 130 100 = 130 ∧ paeth 0 20 10 = 10 := by decide +kernel

/-- A row that ends exactly at `IN_END`, of the highest legal filter type. -/
theorem witness_FltRow (s : State) (hs : s = machine (input (inPass (hdr 2 2 0 8 false) 0 2 2) 0 0 3) [4, 1, 2] []) :
    s.regs.cfgLegal = true ∧ 1 ≤ s.regs.passW.toNat ∧ s.regs.row.toNat < s.regs.passH.toNat ∧
    s.regs.format.rowBytes s.regs.passW.toNat ≤ s.params.maxRowBytes ∧
    s.regs.srcAddr.toNat + 1 + s.regs.format.rowBytes s.regs.passW.toNat ≤
      min s.regs.inEnd.toNat s.params.byteSize ∧
    (s.byteAt s.regs.srcAddr.toNat).toNat ≤ 4 := by subst hs; decide +kernel

/-- F1, F5, F6, F7. -/
theorem witness_FltRowFaults (a b c d : State) (ha : a = machine (hdr 2 2 0 8 false) [] [])
    (hb : b = machine (inPass (hdr 300 1 0 8 false) 0 300 1) [] [])
    (hc : c = machine (input (inPass (hdr 2 2 0 8 false) 0 2 2) 0 0 2) [] [])
    (hd : d = machine (input (inPass (hdr 2 2 0 8 false) 0 2 2) 0 0 3) [5] []) :
    (a.regs.cfgLegal = true ∧ (a.regs.passW.toNat = 0 ∨ a.regs.passH.toNat ≤ a.regs.row.toNat)) ∧
    (b.regs.cfgLegal = true ∧ 1 ≤ b.regs.passW.toNat ∧ b.regs.row.toNat < b.regs.passH.toNat ∧
      b.params.maxRowBytes < b.regs.format.rowBytes b.regs.passW.toNat) ∧
    (c.regs.cfgLegal = true ∧ 1 ≤ c.regs.passW.toNat ∧ c.regs.row.toNat < c.regs.passH.toNat ∧
      c.regs.format.rowBytes c.regs.passW.toNat ≤ c.params.maxRowBytes ∧
      min c.regs.inEnd.toNat c.params.byteSize <
        c.regs.srcAddr.toNat + 1 + c.regs.format.rowBytes c.regs.passW.toNat) ∧
    (d.regs.cfgLegal = true ∧ 1 ≤ d.regs.passW.toNat ∧ d.regs.row.toNat < d.regs.passH.toNat ∧
      d.regs.format.rowBytes d.regs.passW.toNat ≤ d.params.maxRowBytes ∧
      d.regs.srcAddr.toNat + 1 + d.regs.format.rowBytes d.regs.passW.toNat ≤
        min d.regs.inEnd.toNat d.params.byteSize ∧
      4 < (d.byteAt d.regs.srcAddr.toNat).toNat) := by subst ha hb hc hd; decide +kernel

/-- A first row, whatever the buffers hold, Paeth. -/
theorem witness_FirstRow :
    (inPass (hdr 2 2 0 8 false) 0 2 2).status.prevValid = false ∧
    (∃ t, exec .fltRow (machine (input (inPass (hdr 2 2 0 8 false) 0 2 2) 0 0 3) [4, 1, 2] []) = .next t ∧
      (t.regs.status.prevValid) = true) ∧
    (∃ u, exec .fltRow { machine (input (inPass (hdr 2 2 0 8 false) 0 2 2) 0 0 3) [4, 1, 2] [] with
      lb0 := [(0, 9)], lb1 := [] } = .next u ∧ (u.regs.status.prevValid) = true) :=
  ⟨by decide, next_of_ends (by decide +kernel), next_of_ends (by decide +kernel)⟩

/-- Pass 7 of 5 by 5, its last pixel; and the grid position it is. -/
theorem witness_Partition :
    7 < 8 ∧ 4 < passWidth 7 5 ∧ 1 < passHeight 7 5 ∧ 4 < 5 ∧ 3 < 5 ∧
    4 = xStart 7 + 4 * xStride 7 ∧ 3 = yStart 7 + 1 * yStride 7 := by decide

theorem witness_A7Pass : 7 ≤ 7 ∧ (hdr 1 1 0 8 false).cfgLegal = true := by decide +kernel

/-- A4, the largest index that fits; A5, the least that does not; A3, a column outside. -/
theorem witness_A7Map (a b c : Regs)
    (ha : a = { inPass (hdr 0x8000 0x8000 0 8 false) 0 0x8000 0x8000 with a7Col := 0x7FFF, a7Row := 0x7FFF })
    (hb : b = { inPass (hdr 0x8001 0x8000 0 8 false) 0 0x8001 0x8000 with a7Col := 0x8000, a7Row := 0x7FFF })
    (hc : c = { inPass (hdr 5 5 0 8 true) 6 2 3 with a7Col := 2 }) :
    (a.cfgLegal = true ∧ a.a7Col.toNat < a.passW.toNat ∧ a.a7Row.toNat < a.passH.toNat ∧
      4 * ((yStart 0 + a.a7Row.toNat * yStride 0) * a.width.toNat +
        (xStart 0 + a.a7Col.toNat * xStride 0)) + 3 < 2 ^ 32) ∧
    (b.cfgLegal = true ∧ b.a7Col.toNat < b.passW.toNat ∧ b.a7Row.toNat < b.passH.toNat ∧
      2 ^ 32 ≤ 4 * ((yStart 0 + b.a7Row.toNat * yStride 0) * b.width.toNat +
        (xStart 0 + b.a7Col.toNat * xStride 0)) + 3) ∧
    (c.cfgLegal = true ∧ (c.passW.toNat ≤ c.a7Col.toNat ∨ c.passH.toNat ≤ c.a7Row.toNat)) := by
  subst ha hb hc; decide +kernel

/-- A7 and A8: a length below `2^32` and one above. -/
theorem witness_A7Len :
    ((hdr 0xFFFFFFFF 1 0 1 false).cfgLegal = true ∧ (hdr 0xFFFFFFFF 1 0 1 false).expectedLen < 2 ^ 32) ∧
    ((hdr 0xFFFFFFFF 0xFFFFFFFF 6 16 false).cfgLegal = true ∧
      2 ^ 32 ≤ (hdr 0xFFFFFFFF 0xFFFFFFFF 6 16 false).expectedLen) := by decide +kernel

theorem witness_GreyExpansion :
    (1 : Channel).toNat < 2 ∧ (3 : Channel).toNat < 4 ∧ (15 : Channel).toNat < 16 := by decide

/-- A legal format of each colour type; for type 3 the last index in the palette and the first outside. -/
theorem witness_UnpackPixel :
    (∀ f ∈ [(0, 4), (2, 16), (3, 8), (4, 16), (6, 8)],
      (hdr 1 1 f.1 f.2 false).cfgLegal = true ∧ (hdr 1 1 f.1 f.2 false).format.colorType.toNat = f.1) ∧
    ((p5 4).regs.format.sample (bytes [0xC0]) 0 0).toNat < (p5 4).regs.plteCount.toNat ∧
    (p5 3).regs.plteCount.toNat ≤ ((p5 3).regs.format.sample (bytes [0xC0]) 0 0).toNat := by decide +kernel

/-- An indexed row with every index in the palette; the image fits PIX. -/
theorem witness_PxuRow (s : State) (hs : s = indexedRow 4 [0x01, 0x20]) :
    s.regs.cfgLegal = true ∧ s.regs.status.prevValid = true ∧
    4 * s.regs.width.toNat * s.regs.height.toNat ≤ s.params.pixSize ∧
    s.regs.format.colorType.toNat = 3 ∧ ∀ k < s.regs.passW.toNat,
      (s.regs.format.sample s.currentRow k 0).toNat < s.regs.plteCount.toNat := by subst hs; decide +kernel

/-- No row yet (U1); an image one row too large for PIX (U2); an index out of range, pixel 1. -/
theorem witness_PxuRowFaults (a b c : State) (ha : a = machine (inPass (hdr 2 2 0 8 false) 0 2 2) [] [])
    (hb : b = machine { inPass (hdr 40 26 0 1 false) 0 40 26 with
      row := 1, status := { Regs.reset.status with prevValid := true } } [] [])
    (hc : c = indexedRow 2 [0x03]) :
    (a.regs.cfgLegal = true ∧ a.regs.status.prevValid = false) ∧
    (b.regs.cfgLegal = true ∧ b.regs.status.prevValid = true ∧
      b.params.pixSize < 4 * b.regs.width.toNat * b.regs.height.toNat) ∧
    (c.regs.cfgLegal = true ∧ c.regs.status.prevValid = true ∧
      4 * c.regs.width.toNat * c.regs.height.toNat ≤ c.params.pixSize ∧
      c.regs.format.colorType.toNat = 3 ∧ 1 < c.regs.passW.toNat ∧
      c.regs.plteCount.toNat ≤ (c.regs.format.sample c.currentRow 1 0).toNat ∧
      ∀ j < 1, (c.regs.format.sample c.currentRow j 0).toNat < c.regs.plteCount.toNat) := by
  subst ha hb hc; decide +kernel

/-- A format of each colour type that the packer takes; for type 3 a pixel that is entry 1 and one that is
none. -/
theorem witness_PackPixel (s : State) (hs : s = k5 [0, 255, 0, 255, 1, 2, 3, 255]) :
    (∀ f ∈ [(0, 16), (2, 8), (3, 8), (4, 16), (6, 8)], (hdr 1 1 f.1 f.2 false).packLegal = true) ∧
    s.regs.packLegal = true ∧ packPixel s 0 0 = some [1] ∧ packPixel s 1 0 = none := by
  subst hs; decide +kernel

/-- A row that ends exactly at `BYTE_SIZE`, no miss. -/
theorem witness_PxpRow (s : State) (hs : s = greyImage 1 4094) :
    s.params.legal = true ∧ s.regs.packLegal = true ∧ s.regs.pkY.toNat < s.regs.height.toNat ∧
    4 * s.regs.width.toNat * s.regs.height.toNat ≤ s.params.pixSize ∧
    4094 + 0 + s.regs.width.toNat * (s.regs.format.bpp / 8) ≤ s.params.byteSize ∧
    ∀ x < s.regs.width.toNat, packPixel s x s.regs.pkY.toNat ≠ none := by subst hs; decide +kernel

/-- K2; `PK_Y` just past the image (K1); K4; one byte too many; a miss in the last column. -/
theorem witness_PxpRowFaults (b c d e : State) (hb : b = greyImage 2 14)
    (hc : c = machine (hdr 33 32 6 8 false) [] []) (hd : d = greyImage 1 4095)
    (he : e = k5 [255, 0, 0, 255, 1, 2, 3, 255]) :
    (hdr 2 2 0 4 false).packLegal = false ∧
    (b.regs.packLegal = true ∧ b.regs.height.toNat ≤ b.regs.pkY.toNat) ∧
    (c.regs.packLegal = true ∧ c.regs.pkY.toNat < c.regs.height.toNat ∧
      c.params.pixSize < 4 * c.regs.width.toNat * c.regs.height.toNat) ∧
    (d.regs.packLegal = true ∧ d.regs.pkY.toNat < d.regs.height.toNat ∧
      4 * d.regs.width.toNat * d.regs.height.toNat ≤ d.params.pixSize ∧
      d.params.byteSize < d.regs.dstAddr.toNat + (0 + d.regs.format.rowBytes d.regs.width.toNat)) ∧
    (e.regs.packLegal = true ∧ e.regs.pkY.toNat < e.regs.height.toNat ∧
      4 * e.regs.width.toNat * e.regs.height.toNat ≤ e.params.pixSize ∧
      e.regs.dstAddr.toNat + (1 + e.regs.format.rowBytes e.regs.width.toNat) ≤ e.params.byteSize ∧
      1 < e.regs.width.toNat ∧ packPixel e 1 e.regs.pkY.toNat = none ∧
      ∀ x' < 1, packPixel e x' e.regs.pkY.toNat ≠ none) := by subst hb hc hd he; decide +kernel

/-- K5: every pixel has its entry. -/
theorem witness_PxpImg (s : State)
    (hs : s = k5 [255, 0, 0, 255, 0, 255, 0, 255, 0, 255, 0, 255, 255, 0, 0, 255]) :
    s.params.legal = true ∧ s.regs.packLegal = true ∧
    4 * s.regs.width.toNat * s.regs.height.toNat ≤ s.params.pixSize ∧
    s.regs.dstAddr.toNat + s.regs.height.toNat * (1 + s.regs.width.toNat * (s.regs.format.bpp / 8)) ≤
      s.params.byteSize ∧
    ∀ y < s.regs.height.toNat, ∀ x < s.regs.width.toNat, packPixel s x y ≠ none := by subst hs; decide +kernel

/-- K2; K4; K3, one byte too many; K6. -/
theorem witness_PxpImgFaults (b c d : State) (hb : b = machine (hdr 33 32 6 8 false) [] [])
    (hc : c = machine { hdr 2 2 6 8 false with dstAddr := 4081 } [] [])
    (hd : d = k5 [255, 0, 0, 255, 0, 255, 0, 255, 0, 255, 0, 255, 1, 2, 3, 255]) :
    (hdr 2 2 0 4 false).packLegal = false ∧
    (b.regs.packLegal = true ∧ b.params.pixSize < 4 * b.regs.width.toNat * b.regs.height.toNat) ∧
    (c.regs.packLegal = true ∧ 4 * c.regs.width.toNat * c.regs.height.toNat ≤ c.params.pixSize ∧
      c.params.byteSize < c.regs.dstAddr.toNat +
        c.regs.height.toNat * (0 + c.regs.width.toNat * (c.regs.format.bpp / 8))) ∧
    (d.params.legal = true ∧ d.regs.packLegal = true ∧
      4 * d.regs.width.toNat * d.regs.height.toNat ≤ d.params.pixSize ∧
      d.regs.dstAddr.toNat + d.regs.height.toNat * (1 + d.regs.width.toNat * (d.regs.format.bpp / 8)) ≤
        d.params.byteSize ∧
      1 < d.regs.height.toNat ∧ 1 < d.regs.width.toNat ∧ packPixel d 1 1 = none ∧
      ∀ y' < 2, ∀ x' < 2, y' < 1 ∨ (y' = 1 ∧ x' < 1) → packPixel d x' y' ≠ none) := by
  subst hb hc hd; decide +kernel

/-- Program P5: an interlaced indexed stream that decodes. -/
theorem witness_DecImgEndState : (p5 4).DecodeChecksPass ∧ (p5 4).FilterBytesValid ∧ (p5 4).IndicesValid := by
  refine ⟨⟨by decide +kernel, by decide +kernel, ?_, by decide +kernel, by decide +kernel, by decide +kernel⟩, ?_, ?_⟩
  · unfold Regs.passNonempty; decide +kernel
  · unfold State.FilterBytesValid; decide +kernel
  · unfold State.IndicesValid; decide +kernel

/-- Program P5, its last pass, last row and last column. -/
theorem witness_DecImgPixels :
    (p5 4).halted = false ∧ (∃ t, exec .decImg (p5 4) = .next t ∧ (!t.halted) = true) ∧
    7 ∈ (p5 4).regs.format.passes ∧ 1 < (p5 4).regs.passRows 7 ∧ 3 < passWidth 7 (p5 4).regs.width.toNat :=
  ⟨by decide, next_of_ends (by decide +kernel), by decide +kernel, by decide +kernel, by decide +kernel⟩

/-- The stream of D1 to D5, `len` bytes declared, `e` the end of the input. -/
def dStream (len e : Nat) : State :=
  machine (input (hdr 2 4 0 8 false) 0 len e) [0, 1, 2, 0, 3, 4, 5, 5, 6, 0, 7, 8] []

/-- A8, D6, D3, D4, D5, D7. -/
theorem witness_DecImgFaultsBefore (c d e f : State) (hc : c = dStream 11 12) (hd : d = dStream 13 13)
    (he : e = dStream 12 11) (hf : f = machine (input (hdr 40 26 0 1 false) 0 156 156) [] []) :
    ((hdr 0xFFFFFFFF 0xFFFFFFFF 6 16 false).cfgLegal = true ∧
      2 ^ 32 ≤ (hdr 0xFFFFFFFF 0xFFFFFFFF 6 16 false).expectedLen) ∧
    ((hdr 257 1 0 8 false).cfgLegal = true ∧ 0 ∈ (hdr 257 1 0 8 false).format.passes ∧
      (hdr 257 1 0 8 false).passNonempty 0 ∧
      State.reset.params.maxRowBytes < (hdr 257 1 0 8 false).format.rowBytes (passWidth 0 257)) ∧
    (c.regs.cfgLegal = true ∧ c.regs.expectedLen < 2 ^ 32 ∧ c.regs.srcLen.toNat < c.regs.expectedLen) ∧
    (d.regs.cfgLegal = true ∧ d.regs.expectedLen < 2 ^ 32 ∧ d.regs.expectedLen < d.regs.srcLen.toNat) ∧
    (e.regs.cfgLegal = true ∧ e.regs.srcLen.toNat = e.regs.expectedLen ∧
      min e.regs.inEnd.toNat e.params.byteSize < e.regs.srcAddr.toNat + e.regs.expectedLen) ∧
    (f.regs.cfgLegal = true ∧ f.regs.srcLen.toNat = f.regs.expectedLen ∧
      f.regs.srcAddr.toNat + f.regs.expectedLen ≤ min f.regs.inEnd.toNat f.params.byteSize ∧
      f.params.pixSize < 4 * f.regs.width.toNat * f.regs.height.toNat) ∧
    (∀ s ∈ [c, d, e, f], ∀ p ∈ s.regs.format.passes,
      s.regs.format.rowBytes (passWidth p s.regs.width.toNat) ≤ s.params.maxRowBytes) := by
  subst hc hd he hf; unfold Regs.passNonempty; decide +kernel

/-- D1: the first scanline that raises is the third row, by its filter type. -/
theorem witness_DecImgFault_filter (s : State) (hs : s = dStream 12 12) :
    s.DecodeChecksPass ∧ s.halted = false ∧ 0 ∈ s.regs.format.passes ∧ 2 < s.regs.passRows 0 ∧
    s.ValidBefore 0 2 ∧ s.regs.scanlineAddr 0 2 = 6 ∧ 4 < (s.byteAt 6).toNat ∧
    ∃ t, exec .decImg s = .next t ∧
      (t.halted && reads t [(0x004, 9), (0x008, 0x22), (0x00C, 6), (0x020, 6), (0x088, 12), (0x06C, 2),
        (0x070, 3)]) = true := by
  subst hs
  refine ⟨⟨by decide +kernel, by decide +kernel, ?_, by decide +kernel, by decide +kernel, by decide +kernel⟩,
    by decide, by decide, by decide +kernel, ?_, by decide +kernel, by decide +kernel,
    next_of_ends (by decide +kernel)⟩
  · unfold Regs.passNonempty; decide +kernel
  · unfold State.ValidBefore State.ScanlineValid; decide +kernel

/-- D1 with the bad filter type in the first row: no row is reconstructed. -/
theorem witness_DecImgFault_first (s : State)
    (hs : s = machine (input (hdr 2 4 0 8 false) 0 12 12) [5, 1, 2, 0, 3, 4, 5, 5, 6, 0, 7, 8] []) :
    0 < s.regs.passRows 0 ∧ s.ValidBefore 0 0 ∧ s.regs.scanlineAddr 0 0 = 0 ∧ 4 < (s.byteAt 0).toNat ∧
    ∃ t, exec .decImg s = .next t ∧
      reads t [(0x004, 1), (0x008, 0x22), (0x00C, 0), (0x020, 0), (0x06C, 0), (0x070, 0)] = true := by
  subst hs
  refine ⟨by decide +kernel, ?_, by decide +kernel, by decide +kernel, next_of_ends (by decide +kernel)⟩
  unfold State.ValidBefore State.ScanlineValid; decide +kernel

/-- Program P5's fault variant: the first scanline that raises is the first row of pass 6, by its second
and last pixel. -/
theorem witness_DecImgFault_palette (s : State) (hs : s = p5 3) :
    s.DecodeChecksPass ∧ s.halted = false ∧ 6 ∈ s.regs.format.passes ∧ 0 < s.regs.passRows 6 ∧
    s.ValidBefore 6 0 ∧ (s.byteAt (s.regs.scanlineAddr 6 0)).toNat ≤ 4 ∧
    s.regs.format.colorType.toNat = 3 ∧ 1 < passWidth 6 s.regs.width.toNat ∧
    s.regs.plteCount.toNat ≤ (s.regs.format.sample (s.streamRow 6 0) 1 0).toNat ∧
    (∀ j < 1, (s.regs.format.sample (s.streamRow 6 0) j 0).toNat < s.regs.plteCount.toNat) ∧
    ∃ t, exec .decImg s = .next t ∧ (t.halted && t.regs.errcode == 0x30) = true := by
  subst hs
  refine ⟨⟨by decide +kernel, by decide +kernel, ?_, by decide +kernel, by decide +kernel, by decide +kernel⟩,
    by decide, by decide, by decide +kernel, ?_, by decide +kernel, by decide +kernel, by decide +kernel,
    by decide +kernel, by decide +kernel, next_of_ends (by decide +kernel)⟩
  · unfold Regs.passNonempty; decide +kernel
  · unfold State.ValidBefore State.ScanlineValid; decide +kernel

/-- The script of R243 for program P5 has one command for each pass and two for each of its seven rows. -/
theorem witness_UnitCommands : (p5 4).regs.unitScript.length = 21 := by decide +kernel

/-- Program P3, interlaced. -/
def p3 : State :=
  machine (input (hdr 5 5 0 8 true) 0 36 36)
    [0, 1, 1, 5, 2, 0x41, 0x45, 4, 3, 2, 0x40, 1, 0x21, 2, 2, 3, 2, 3, 4, 0x20, 2, 2, 0x20, 0x20,
     1, 0x11, 1, 1, 1, 1, 3, 0x29, 0x11, 0x11, 0x11, 0x11] []

/-- Program P3's counterpart, not interlaced. -/
def p3plain : State :=
  machine (input (hdr 5 5 0 8 false) 0 30 30)
    [0, 1, 2, 3, 4, 5, 0, 0x11, 0x12, 0x13, 0x14, 0x15, 0, 0x21, 0x22, 0x23, 0x24, 0x25,
     0, 0x31, 0x32, 0x33, 0x34, 0x35, 0, 0x41, 0x42, 0x43, 0x44, 0x45] []

/-- The two streams of program P3 hold the same samples, and both decode. -/
theorem witness_Interlaced :
    p3plain.halted = false ∧ p3.halted = false ∧ p3plain.regs.format.interlace = false ∧
    p3.regs.format = { p3plain.regs.format with interlace := true } ∧
    (∃ t, exec .decImg p3plain = .next t ∧ (!t.halted) = true) ∧
    (∃ t, exec .decImg p3 = .next t ∧ (!t.halted) = true) ∧
    (∀ i, p3.paletteAt i = p3plain.paletteAt i ∧ p3.alphaAt i = p3plain.alphaAt i) ∧
    (∀ p ∈ [1, 2, 3, 4, 5, 6, 7], ∀ row < p3.regs.passRows p, ∀ col < passWidth p p3.regs.width.toNat,
      ∀ j < p3plain.regs.format.channels,
        p3.regs.format.sample (p3.streamRow p row) col j =
          p3plain.regs.format.sample (p3plain.streamRow 0 (yStart p + row * yStride p))
            (xStart p + col * xStride p) j) :=
  ⟨by decide, by decide, by decide, by decide, next_of_ends (by decide +kernel), next_of_ends (by decide +kernel),
    fun _ => ⟨rfl, rfl⟩, by decide +kernel⟩

/-- Program P4 part 2: a 2 by 2 image of 16-bit RGBA, output at 64. -/
def p4 : State :=
  machine { hdr 2 2 6 16 false with dstAddr := 64, ctrl := { Regs.reset.ctrl with pkFb := true } } []
    [0x1234, 0x5678, 0x9ABC, 0xDEF0, 0, 0, 0, 0, 0xFFFF, 0xFFFF, 0xFFFF, 0xFFFF, 1, 0x100, 0x8000, 0x7FFF]

theorem witness_RoundTrip :
    p4.params.legal = true ∧ p4.halted = false ∧ p4.regs.packLegal = true ∧
    p4.regs.format.colorType.toNat = 6 ∧ p4.regs.format.interlace = false ∧
    p4.regs.ctrl.pkFb = true ∧ (p4.regs.format.bitDepth.toNat = 16 → p4.regs.ctrl.force32 = false) ∧
    4 * p4.regs.width.toNat * p4.regs.height.toNat ≤ p4.params.pixSize ∧
    p4.regs.format.rowBytes p4.regs.width.toNat ≤ p4.params.maxRowBytes ∧
    p4.regs.dstAddr.toNat + p4.regs.height.toNat * (1 + p4.regs.format.rowBytes p4.regs.width.toNat) ≤
      p4.params.byteSize ∧
    (p4.regs.format.bitDepth.toNat = 8 → ∀ i < 4 * p4.regs.width.toNat * p4.regs.height.toNat,
      (p4.cellAt i).toNat < 256) ∧
    ends .pxpImg p4 (fun u => holds u 64 [0, 0x12, 0x34, 0x56, 0x78]) = true := by decide +kernel

/-- The same at depth 8 with `FORCE32` set. -/
theorem witness_RoundTrip_depth8 (s : State)
    (hs : s = machine { hdr 2 1 6 8 false with dstAddr := 64, ctrl := { Regs.reset.ctrl with pkFb := true, force32 := true } }
      [] [1, 2, 3, 255, 4, 5, 6, 0]) :
    s.regs.packLegal = true ∧ s.regs.ctrl.force32 = true ∧
    (s.regs.format.bitDepth.toNat = 16 → s.regs.ctrl.force32 = false) ∧
    (s.regs.format.bitDepth.toNat = 8 → ∀ i < 4 * s.regs.width.toNat * s.regs.height.toNat,
      (s.cellAt i).toNat < 256) ∧
    ends .pxpImg s (fun u => holds u 64 [0, 1, 2, 3, 255, 4, 5, 6, 0]) = true := by
  subst hs; decide +kernel

/-- A pass selected, one byte and one cell written; the host's next action writes the last cell. -/
def invState : State :=
  doing (.pixWrite 4095 7) (machine (inPass (hdr 2 2 0 8 false) 0 2 2) [1] [3])

theorem witness_Invariant :
    invState.Inv ∧ ∃ t, step invState = .next t ∧ (shows t 4095 [7]) = true := by
  refine ⟨⟨⟨?_, ?_, ?_, ?_, ?_, ?_, ?_, ?_, ?_, ?_, ?_⟩, ⟨?_, ?_, ?_⟩,
    .inr ⟨?_, ?_, ?_, ?_, ?_, ?_, ?_, ?_⟩, ?_⟩, next_of_steps (by decide +kernel)⟩ <;> decide +kernel

end Sys2Proof.Tests
end

section
/-! The invariant of the machine: what each of its parts depends on, and that the operations keep it. -/

namespace Sys2Proof.Machine

/-! ## What the parts of the invariant depend on -/

/-- The register fields that `Regs.FlagsOk` speaks of. -/
def Regs.flagFields (r : Regs) : Bool × Bool × BitVec 8 × Word × Word × Word :=
  (r.status.err, r.status.wCrc, r.errcode, r.erraddr, r.warnAddr, r.warnCnt)

/-- The register fields that `Regs.NoPass` and `State.PassSelected` speak of. -/
def Regs.passFields (r : Regs) : Word × Word × Format × BitVec 3 × Word × Word × Word × Bool :=
  (r.width, r.height, r.format, r.pass, r.passW, r.passH, r.row, r.status.prevValid)

theorem Regs.FlagsOk.congr {r r' : Regs} (h : r.FlagsOk) (e : r'.flagFields = r.flagFields) :
    r'.FlagsOk := by
  simp only [Regs.flagFields, Prod.mk.injEq] at e
  obtain ⟨he, hw, hc, ha, hwa, hwc⟩ := e
  constructor
  case halted => rw [he, hc]; exact h.halted
  case running => rw [he, hc, ha]; exact h.running
  case noWarning => rw [hw, hwa, hwc]; exact h.noWarning

/-- No pass is selected, or a pass of the present format is. -/
def State.PassOk (s : State) : Prop := s.regs.NoPass ∨ s.PassSelected

theorem State.PassOk.congr {s t : State} (h : s.PassOk) (hp : t.params = s.params)
    (e : t.regs.passFields = s.regs.passFields) : t.PassOk := by
  simp only [Regs.passFields, Prod.mk.injEq] at e
  obtain ⟨hw, hh, hf, hn, hpw, hph, hr, hv⟩ := e
  rcases h with ⟨h1, h2, h3, h4, h5⟩ | ⟨h1, h2, h3, h4, h5, h6, h7, h8⟩
  · exact .inl ⟨hn ▸ h1, hpw ▸ h2, hph ▸ h3, hr ▸ h4, hv ▸ h5⟩
  · refine .inr ⟨?_, ?_, ?_, ?_, ?_, ?_, ?_, ?_⟩ <;> simpa only [hp, hw, hh, hf, hn, hpw, hph, hr, hv]

/-- What the host has still to do and has read is not the invariant's concern. -/
theorem State.MemoryOk.withHost {s : State} (h : s.MemoryOk) (script : List HostAction) (log : List Word) :
    State.MemoryOk { s with script := script, readLog := log } :=
  ⟨h.params, h.byteWf, h.byteIn, h.pixWf, h.pixIn, h.plteWf, h.plteIn, h.alphaWf, h.alphaIn,
    h.lineWf, h.lineIn⟩

/-- Nothing written anywhere is in order. -/
theorem memoryOk_of_empty {s : State} (hp : s.params.legal = true) (hb : s.byteMem = []) (hx : s.pixMem = [])
    (hpl : s.plte = []) (ha : s.alpha = []) (hl : ∀ sel, s.line sel = []) : s.MemoryOk := by
  constructor
  case params => exact hp
  all_goals simp [hb, hx, hpl, ha, hl]

/-! ## Building the invariant of the next state -/

theorem State.Inv.congr {s t : State} (h : s.Inv) (hm : t.MemoryOk) (hp : t.params = s.params)
    (hf : t.regs.flagFields = s.regs.flagFields) (hs : t.regs.passFields = s.regs.passFields)
    (hd : t.launch < t.draws) : t.Inv :=
  ⟨hm, h.flags.congr hf, State.PassOk.congr h.pass hp hs, hd⟩

theorem State.Inv.withHost {s : State} (h : s.Inv) (script : List HostAction) (log : List Word) :
    State.Inv { s with script := script, readLog := log } :=
  h.congr (h.memory.withHost script log) rfl rfl rfl h.draws

theorem State.Inv.withRegs {s : State} (h : s.Inv) (R : Regs) (hf : R.FlagsOk)
    (hs : R.passFields = s.regs.passFields) : State.Inv { s with regs := R } :=
  ⟨memoryOk_of_regs h.memory R rfl, hf, State.PassOk.congr h.pass rfl hs, h.draws⟩

/-- Registers that the invariant does not speak of may change. -/
theorem State.Inv.withOtherRegs {s : State} (h : s.Inv) (R : Regs) (hf : R.flagFields = s.regs.flagFields)
    (hs : R.passFields = s.regs.passFields) : State.Inv { s with regs := R } :=
  h.withRegs R (h.flags.congr hf) hs

/-- BYTE and two pointers replaced, as packing does. -/
theorem State.Inv.withBytes {s t : State} {R : Regs} (h : s.Inv)
    (e : t = { s with regs := R, byteMem := t.byteMem }) (hf : R.flagFields = s.regs.flagFields)
    (hs : R.passFields = s.regs.passFields) (hw : Memory.wf t.byteMem)
    (hi : ∀ c ∈ t.byteMem, c.1 < s.params.byteSize) : t.Inv :=
  have hm : t.MemoryOk := memoryOk_of_byte h.memory (R := R) (d := s.draws) e hw hi
  e ▸ h.congr (e ▸ hm) rfl hf hs h.draws

theorem code_mem_faultCodes (e : HwFault) : e.code ∈ faultCodes := by
  cases e <;> decide

/-- Taking a fault keeps the invariant, whatever the fault. -/
theorem State.Inv.raise {s : State} (h : s.Inv) (e : HwFault) (info : Nat) : (s.raise e info).Inv :=
  h.withRegs _ ⟨fun _ => code_mem_faultCodes e, fun he => absurd he (by simp), h.flags.noWarning⟩ rfl

theorem State.Inv.raised {s t : State} (h : s.Inv) (ht : s.Raised t) : t.Inv := by
  obtain ⟨e, info, rfl⟩ := ht
  exact h.raise e info

theorem flagsOk_reset : Regs.reset.FlagsOk :=
  ⟨nofun, fun _ => ⟨rfl, rfl⟩, fun _ => ⟨rfl, rfl⟩⟩

theorem noPass_reset : Regs.reset.NoPass := ⟨rfl, rfl, rfl, rfl, rfl⟩

theorem State.Inv.softReset {s : State} (h : s.Inv) : s.softReset.Inv :=
  ⟨memoryOk_of_regs h.memory _ rfl, flagsOk_reset, .inl noPass_reset, h.draws⟩

theorem State.Inv.hardReset {s : State} (h : s.Inv) : s.hardReset.Inv :=
  ⟨memoryOk_of_empty h.memory.params rfl rfl rfl rfl (by rintro (_ | _) <;> rfl), flagsOk_reset,
    .inl noPass_reset, Nat.lt_succ_self _⟩

/-! ## Host actions -/

/-- A store at an existing address lists existing addresses only. -/
theorem Memory.lt_of_mem_write {w n a : Nat} {m : Memory w} {v : BitVec w} (hm : ∀ c ∈ m, c.1 < n) (ha : a < n)
    (c : Nat × BitVec w) (hc : c ∈ Memory.write m a v) : c.1 < n := by
  rcases Memory.mem_writeRange hc with h | ⟨-, h⟩
  · exact hm c h
  · exact Nat.lt_of_lt_of_le h ha

theorem State.Inv.writeReg {s : State} (h : s.Inv) (v : Word) (r : Reg) : (s.writeReg v r).Inv := by
  have hm := h.memory
  cases r
  case width | height | format =>
    exact ⟨memoryOk_of_regs hm _ rfl, h.flags.congr rfl, .inl ⟨rfl, rfl, rfl, rfl, rfl⟩, h.draws⟩
  case plte i =>
    exact h.congr ⟨hm.params, hm.byteWf, hm.byteIn, hm.pixWf, hm.pixIn, Memory.wf_write hm.plteWf _ _,
      Memory.lt_of_mem_write hm.plteIn i.isLt, hm.alphaWf, hm.alphaIn, hm.lineWf, hm.lineIn⟩ rfl rfl rfl h.draws
  case alpha i =>
    exact h.congr ⟨hm.params, hm.byteWf, hm.byteIn, hm.pixWf, hm.pixIn, hm.plteWf, hm.plteIn,
      Memory.wf_write hm.alphaWf _ _, Memory.lt_of_mem_write hm.alphaIn i.isLt, hm.lineWf, hm.lineIn⟩
      rfl rfl rfl h.draws
  all_goals exact h.withOtherRegs _ rfl rfl

theorem State.Inv.regWrite {s : State} (h : s.Inv) (off : Nat) (v : Word) : (s.regWrite off v).Inv := by
  unfold State.regWrite
  split
  · exact h.writeReg v _
  · exact h

theorem State.Inv.storeByte {s : State} (h : s.Inv) {a : Nat} (ha : a < s.params.byteSize) (v : Byte) :
    (s.storeBytes a [v]).Inv :=
  h.withBytes (R := s.regs) rfl rfl rfl (Memory.wf_write h.memory.byteWf a v)
    (Memory.lt_of_mem_write h.memory.byteIn ha)

theorem State.Inv.storeCell {s : State} (h : s.Inv) {i : Nat} (hi : i < s.params.pixSize) (v : Channel) :
    (s.storeCells i [v]).Inv :=
  h.congr (memoryOk_of_pix h.memory rfl (Memory.wf_write h.memory.pixWf i v)
    (Memory.lt_of_mem_write h.memory.pixIn hi)) rfl rfl rfl h.draws

theorem State.Inv.drawBytes {s : State} (h : s.Inv) {a n : Nat} (hf : a + n ≤ s.params.byteSize) :
    (s.drawBytes a n).Inv :=
  h.congr (memoryOk_drawBytes h.memory a n hf) rfl rfl rfl (Nat.lt_succ_of_lt h.draws)

theorem State.Inv.drawCells {s : State} (h : s.Inv) {n : Nat} (hf : n ≤ s.params.pixSize) :
    (s.drawCells 0 n).Inv :=
  h.congr (memoryOk_drawCells h.memory n hf) rfl rfl rfl (Nat.lt_succ_of_lt h.draws)

/-! ## Commands -/

/-- A CRC check keeps the invariant: it leaves the records, takes a fault, or records a warning with the flag. -/
theorem State.Inv.crcCheck {s : State} (h : s.Inv) (off : Nat) : (s.crcCheck off).Inv := by
  rcases crcCheck_cases s off with e | e | e <;> rw [e]
  · exact h.withOtherRegs _ rfl rfl
  · exact (h.withOtherRegs (s.regs.setCrcOk false) rfl rfl).raise .crc off
  · exact h.withRegs _ ⟨h.flags.halted, h.flags.running, nofun⟩ rfl

theorem one_le_size_of_cfgLegal {r : Regs} (h : r.cfgLegal = true) : 1 ≤ r.width.toNat ∧ 1 ≤ r.height.toNat := by
  simp only [Regs.cfgLegal, Bool.and_eq_true, decide_eq_true_eq] at h
  obtain ⟨⟨⟨⟨hw, hh⟩, -⟩, -⟩, -⟩ := h
  exact ⟨hw, hh⟩

/-- Pass `p` of a legal format is selected and `row` of its rows are done, which fit the line buffers. -/
theorem passSelected_of_passRows {s : State} {p row : Nat} (hc : s.regs.cfgLegal = true)
    (hp : s.regs.pass.toNat = p) (hw : s.regs.passW.toNat = passWidth p s.regs.width.toNat)
    (hh : s.regs.passH.toNat = passHeight p s.regs.height.toNat) (hrow : s.regs.row.toNat = row)
    (hv : s.regs.status.prevValid = decide (0 < row)) (hr : row ≤ s.regs.passRows p)
    (hfit : 0 < row → s.regs.format.rowBytes (passWidth p s.regs.width.toNat) ≤ s.params.maxRowBytes) :
    s.PassSelected := by
  have hle := passRows_le s.regs p
  refine ⟨(one_le_size_of_cfgLegal hc).1, (one_le_size_of_cfgLegal hc).2, legalPair_of_cfgLegal hc,
    hp ▸ hw, hp ▸ hh, by omega, ?_, fun h1 => ?_⟩
  · rw [hv, decide_eq_true_eq, hrow, Nat.succ_le_iff]
  · rw [hrow] at h1
    exact hw ▸ ⟨(passNonempty_of_lt (Nat.lt_of_lt_of_le h1 hr)).1.1, hfit h1⟩

theorem execA7Pass_keeps_inv {s t : State} {p : Nat} (hp : p ≤ 7) (h : s.Inv) (ht : execA7Pass p s = .next t) :
    t.Inv := by
  rcases execA7Pass_cases ht with ht | ⟨rfl, hc⟩
  · exact h.raised ht
  · refine ⟨memoryOk_of_regs h.memory _ rfl, h.flags.congr rfl, .inr ?_, h.draws⟩
    have hn : (BitVec.ofNat 3 p).toNat = p := Nat.mod_eq_of_lt (by omega)
    exact passSelected_of_passRows hc hn (word_passWidth p _) (word_passHeight p _) rfl rfl (Nat.zero_le _) nofun

/-- `FLT.ROW` does one more row of the selected pass. -/
theorem execFltRow_keeps_inv {s t : State} (h : s.Inv) (ht : execFltRow s = .next t) : t.Inv := by
  rcases execFltRow_cases ht with ht | ⟨rfl, -, hw, hr, hn⟩
  · exact h.raised ht
  · have hrow : s.afterFilter.regs.row.toNat = s.regs.row.toNat + 1 :=
      word_toNat (by have := s.regs.passH.isLt; omega)
    refine ⟨memoryOk_afterFilter h.memory hn, h.flags.congr rfl, .inr ?_, ?_⟩
    · rcases h.pass with ⟨-, h0, -⟩ | ⟨h1, h2, h3, h4, h5, -⟩
      · simp [h0] at hw
      · refine ⟨h1, h2, h3, h4, h5, hrow ▸ hr, ⟨fun _ => by omega, fun _ => rfl⟩, fun _ => ⟨hw, ?_⟩⟩
        rw [afterFilter_eq]
        exact hn
    · rw [afterFilter_eq]
      exact h.draws

/-- With a previous row the columns and the row of the selected pass are inside the image. -/
theorem State.Inv.row_in_image {s : State} (h : s.Inv) (hv : s.regs.status.prevValid = true) :
    (∀ j < s.regs.passW.toNat, gridX s.regs.pass.toNat j < s.regs.width.toNat) ∧
      gridY s.regs.pass.toNat (s.regs.row.toNat - 1) < s.regs.height.toNat := by
  rcases h.pass with ⟨-, -, -, -, h0⟩ | hs
  · simp [h0] at hv
  · have h1 := hs.prevValid.1 hv
    have h2 := hs.row
    refine ⟨fun j hj => (lt_passWidth_iff _ _ j).1 (hs.passW ▸ hj), (lt_passHeight_iff _ _ _).1 ?_⟩
    rw [← hs.passH]
    omega

theorem execPxuRow_keeps_inv {s t : State} (h : s.Inv) (ht : execPxuRow s = .next t) : t.Inv := by
  rcases execPxuRow_cases ht with ht | ⟨-, hv, hf, hd⟩
  · exact h.raised ht
  · obtain ⟨hx, hy⟩ := h.row_in_image hv
    rcases hd with ⟨pxs, rfl, hlen⟩ | ⟨e, info, rfl⟩
    · have hm := memoryOk_storePixels h.memory pxs hf (hlen ▸ hx) hy
      rw [storePixels_eq] at hm ⊢
      exact h.congr hm rfl rfl rfl h.draws
    · have hm := memoryOk_drawRow h.memory hf hx hy
      have hi : s.drawRow.Inv := by
        unfold State.drawRow at hm ⊢
        rw [drawRowFrom_eq] at hm ⊢
        exact h.congr hm rfl rfl rfl (Nat.lt_succ_of_lt h.draws)
      exact hi.raise e info

theorem execPxpRow_keeps_inv {s t : State} (h : s.Inv) (ht : execPxpRow s = .next t) : t.Inv := by
  rcases execPxpRow_cases ht with ht | ⟨hp, hf, ht | ⟨e, info, rfl⟩⟩
  · exact h.raised ht
  · obtain ⟨hframe, -, -, hwf, hlisted⟩ := packRow_ok hp ht
    refine h.withBytes hframe rfl rfl (hwf h.memory.byteWf) fun c hc => ?_
    rcases hlisted c hc with h1 | h1
    · exact h.memory.byteIn c h1
    · omega
  · exact (h.drawBytes hf).raise e info

/-- Any number of rows packed inside BYTE. -/
theorem State.Inv.packedTo {s t : State} {y : Nat} (h : s.Inv) (ht : s.PackedTo y t)
    (hf : s.regs.dstAddr.toNat + y * s.regs.packedRowBytes ≤ s.params.byteSize) : t.Inv := by
  refine h.withBytes ht.frame rfl rfl (ht.wf h.memory.byteWf) fun c hc => ?_
  rcases ht.listed c hc with h1 | h1
  · exact h.memory.byteIn c h1
  · omega

theorem execPxpImg_keeps_inv {s t : State} (h : s.Inv) (ht : execPxpImg s = .next t) : t.Inv := by
  rcases execPxpImg_cases h.memory.params ht with ht | ⟨-, hf, ht | ⟨y, u, e, info, hy, hu, rfl⟩⟩
  · exact h.raised ht
  · exact h.packedTo ht hf
  · have hle := Nat.mul_le_mul_right s.regs.packedRowBytes (Nat.le_of_lt hy)
    have hdst : u.regs.dstAddr.toNat ≤ s.regs.dstAddr.toNat + y * s.regs.packedRowBytes := by
      rw [hu.frame]
      exact Nat.mod_le _ _
    have hparams : u.params = s.params := by rw [hu.frame]
    have hi : u.Inv := h.packedTo hu (by omega)
    exact (hi.drawBytes (by rw [hparams]; omega)).raise e info

/-- Every state of the loop of `DEC.IMG` has the invariant. -/
theorem State.Inv.rowAt {s t : State} {done rest : List Nat} {p row : Nat} (h : s.Inv)
    (hs : s.DecodeChecksPass) (hl : s.regs.format.passes = done ++ p :: rest)
    (hr : row ≤ s.regs.passRows p) (ha : s.RowAt done p row t) : t.Inv := by
  have hm := ha.memory h.memory
  rw [ha.frame] at hm ⊢
  refine ⟨hm, h.flags.congr rfl, .inr ?_, h.draws⟩
  exact passSelected_of_passRows hs.cfg (pass_toNat (mem_passes hl)) (word_passWidth p _)
    (word_passHeight p _) (word_toNat (row_lt hr)) rfl hr
    fun h0 => hs.rowsFit p (mem_passes hl) (passNonempty_of_lt (Nat.lt_of_lt_of_le h0 hr)).1

theorem execDecImg_keeps_inv {s t : State} (h : s.Inv) (ht : execDecImg s = .next t) : t.Inv := by
  have hx : s.withExpLen.Inv := h.withOtherRegs _ rfl rfl
  rcases execDecImg_next_cases ht with ht | ht | ⟨hs, ⟨init, p, hl, ha⟩ | ⟨u, hu, rfl⟩⟩
  · exact h.raised ht
  · exact hx.raised ht
  · exact hx.rowAt hs.withExpLen hl (Nat.le_refl _) ha
  · obtain ⟨done, rest, p, rows, v, e, info, hl, hr, ha, rfl⟩ := hu.rowAt
    have hi : v.Inv := hx.rowAt hs.withExpLen hl hr ha
    refine (hi.raise e info).drawCells ?_
    have hv : (v.raise e info).regs.imageCells = s.regs.imageCells ∧ v.params = s.params := by
      rw [ha.frame]
      exact ⟨rfl, rfl⟩
    rw [hv.1, State.raise_params, hv.2]
    exact hs.imageFits

theorem formZ_ok {i j : Instr} {arg : Nat} (h : formZ i arg = .ok j) : j = i := by
  unfold formZ at h
  split at h <;> cases h
  rfl

/-- The decoder gives well-formed commands only (30_encoding.md R91). -/
theorem wellFormed_of_decodeWord {w : Word} {i : Instr} (h : decodeWord w = .ok i) : i.wellFormed = true := by
  unfold decodeWord at h
  split at h
  case h_5 =>
    unfold formI8 at h
    split at h <;> cases h
    rfl
  case h_11 =>
    unfold formP3 at h
    split at h <;> cases h
    simp only [Instr.wellFormed, decide_eq_true_eq]
    omega
  case h_18 => cases h
  all_goals
    cases formZ_ok h
    rfl

/-- Every well-formed command keeps the invariant. -/
theorem exec_keeps_inv {i : Instr} {s t : State} (hi : i.wellFormed = true) (h : s.Inv) (ht : exec i s = .next t) :
    t.Inv := by
  cases i
  case nop => cases ht; exact h
  case ctlRst => cases ht; exact h.softReset
  case ctlWclr =>
    cases ht
    exact h.withRegs _ ⟨h.flags.halted, h.flags.running, fun _ => ⟨rfl, rfl⟩⟩ rfl
  case crcInit => cases ht; exact h.withOtherRegs _ rfl rfl
  case crcByte imm8 => cases ht; exact h.withOtherRegs _ rfl rfl
  case crcBuf =>
    rcases execCrcBuf_cases ht with ht | ⟨acc, rfl⟩
    · exact h.raised ht
    · exact h.withOtherRegs _ rfl rfl
  case crcChk => cases ht; exact h.crcCheck _
  case crcChkm =>
    rcases execCrcChkm_cases ht with ht | ⟨v, off, rfl⟩
    · exact h.raised ht
    · apply State.Inv.crcCheck
      exact h.withOtherRegs _ rfl rfl
  case crcChunk =>
    rcases execCrcChunk_cases ht with ht | ⟨len, type, acc, v, a, off, rfl⟩
    · exact h.raised ht
    · apply State.Inv.crcCheck
      exact h.withOtherRegs _ rfl rfl
  case fltRow => exact execFltRow_keeps_inv h ht
  case a7Pass p => exact execA7Pass_keeps_inv (of_decide_eq_true hi) h ht
  case a7Map =>
    rcases execA7Map_cases ht with ht | ⟨x, y, i, rfl⟩
    · exact h.raised ht
    · exact h.withOtherRegs _ rfl rfl
  case a7Len =>
    rcases execA7Len_cases ht with ht | ⟨v, rfl⟩
    · exact h.raised ht
    · exact h.withOtherRegs _ rfl rfl
  case pxuRow => exact execPxuRow_keeps_inv h ht
  case pxpRow => exact execPxpRow_keeps_inv h ht
  case pxpImg => exact execPxpImg_keeps_inv h ht
  case decImg => exact execDecImg_keeps_inv h ht

/-- Settles O59: each host action, and each command it can issue, keeps every part of the invariant. -/
theorem stepKeepsTheInvariant : Obligations.StepKeepsTheInvariant := by
  intro s t h ht
  rcases step_next_cases ht with ⟨-, rfl⟩ | ⟨act, rest, u, -, hu, hact⟩
  · exact h
  · have hi : u.Inv := hu ▸ h.withHost rest s.readLog
    rcases hact with ⟨w, -, hcmd⟩ | ⟨off, v, -, -, -, rfl⟩ | ⟨off, -, -, rfl⟩ | ⟨a, v, -, ha, rfl⟩ |
      ⟨a, -, -, rfl⟩ | ⟨i, v, -, hlt, rfl⟩ | ⟨i, -, -, rfl⟩ | ⟨-, rfl⟩
    · rcases hcmd with ⟨-, -, rfl⟩ | ⟨-, -, rfl⟩ | ⟨i, -, hd, he⟩ | ⟨e, -, -, rfl⟩
      · exact hi.softReset
      · exact hi
      · exact exec_keeps_inv (wellFormed_of_decodeWord hd) hi he
      · exact hi.raise _ _
    · exact hi.regWrite off v
    · exact hi.withHost _ _
    · exact hi.storeByte ha v
    · exact hi.withHost _ _
    · exact hi.storeCell hlt v
    · exact hi.withHost _ _
    · exact hi.hardReset

/-- Settles O60: after reset nothing is written anywhere, no fault is recorded and no pass is selected. -/
theorem resetHasTheInvariant : Obligations.ResetHasTheInvariant :=
  ⟨memoryOk_of_empty (by decide) rfl rfl rfl rfl (by rintro (_ | _) <;> rfl), flagsOk_reset,
    .inl noPass_reset, by decide⟩

end Sys2Proof.Machine
end

section
/-! The register port: what a host write of a register stores, what it leaves, and what the port reads after
a reset. -/

namespace Sys2Proof.Machine

/-! ## What the port reads -/

/-- `CRC_RESULT` is the complement of `CRC_ACC` as a number (10_state.md R36). -/
theorem toNat_crcResult (r : Regs) : r.crcResult.toNat = 0xFFFFFFFF - r.crcAcc.toNat := by
  rw [Regs.crcResult, show crcXorOut = BitVec.allOnes 32 from rfl, BitVec.xor_allOnes, BitVec.toNat_not]

/-- Every word below the RAMs is built from the fields of the state. -/
theorem regRead_portFields (s : State) : ∀ e ∈ s.regs.portFields, (s.regRead e.1).toNat = e.2 := by
  have zext {n : Nat} (x : BitVec n) (hn : n ≤ 32) : (x.setWidth 32).toNat = x.toNat :=
    BitVec.toNat_setWidth_of_le hn
  simp only [Regs.portFields, List.forall_mem_cons]
  exact ⟨rfl, Status.toNat_toWord _, zext s.regs.errcode (by decide), rfl, Ctrl.toNat_toWord _, rfl, rfl,
    Format.toNat_toWord _, rfl, rfl, rfl, rfl, rfl, toNat_crcResult _, rfl, rfl, rfl, rfl, rfl,
    zext s.regs.trnsKey0 (by decide), zext s.regs.trnsKey1 (by decide), zext s.regs.trnsKey2 (by decide),
    zext s.regs.plteCount (by decide), zext s.regs.trnsCount (by decide), zext s.regs.pass (by decide),
    rfl, rfl, rfl, rfl, rfl, rfl, rfl, rfl, rfl, rfl, rfl, nofun⟩

theorem regRead_plte (s : State) {i : Nat} (h : i < 256) :
    s.regRead (0x400 + 4 * i) = (s.paletteAt i).setWidth 32 := by
  have := regRead_offset s (.plte (BitVec.ofNat 8 i))
  simpa only [Reg.offset, State.readReg, BitVec.toNat_ofNat, Nat.mod_eq_of_lt h] using this

theorem regRead_alpha (s : State) {i : Nat} (h : i < 256) :
    s.regRead (0x800 + 4 * i) = (s.alphaAt i).setWidth 32 := by
  have := regRead_offset s (.alpha (BitVec.ofNat 8 i))
  simpa only [Reg.offset, State.readReg, BitVec.toNat_ofNat, Nat.mod_eq_of_lt h] using this

/-- The offsets of the port where no register stands. -/
theorem regAt_eq_none_iff {off : Nat} (hp : portOffset off = true) :
    regAt off = none ↔ (0x08C < off ∧ off < 0x400) ∨ 0xC00 ≤ off := by
  rw [portOffset_iff] at hp
  unfold regAt
  split
  · rw [List.getElem?_eq_none_iff, show lowRegs.length = 36 from rfl]
    omega
  · split
    · simp only [reduceCtorEq, false_iff]
      omega
    · split
      · simp only [reduceCtorEq, false_iff]
        omega
      · simp only [true_iff]
        omega

/-- Below the RAMs every word reads 0 when the registers are reset, but `CRC_RESULT` (10_state.md R43). -/
theorem regRead_of_reset {s : State} (h : s.regs = Regs.reset) {off : Nat} (hp : portOffset off = true)
    (hlt : off < 0x400) : s.regRead off = if off = 0x034 then 0xFFFFFFFF else 0 := by
  cases hr : regAt off with
  | none =>
    have h34 : off ≠ 0x034 := by rintro rfl; cases hr
    rw [if_neg h34, State.regRead, hr]
  | some r =>
    obtain rfl := offset_of_regAt hp hr
    rw [regRead_offset]
    cases r
    case plte i => simp only [Reg.offset] at hlt; omega
    case alpha i => simp only [Reg.offset] at hlt; omega
    all_goals
      simp only [State.readReg, h]
      rfl

/-! ## What a host write stores -/

/-- A register of `n` bits takes the low `n` bits of the written word and reads back as just those. -/
theorem setWidth_eq_merge {n : Nat} (x : BitVec n) (v : Word) :
    (v.setWidth n).setWidth 32 =
      (x.setWidth 32 &&& ~~~(BitVec.allOnes n).setWidth 32) ||| (v &&& (BitVec.allOnes n).setWidth 32) := by
  ext i hi
  by_cases hn : i < n
  · simp [hn, hi]
  · simp [hn, hi, BitVec.getLsbD_of_ge x i (Nat.le_of_not_lt hn)]

/-- A full word is replaced. -/
theorem eq_merge_all (x v : Word) : v = (x &&& ~~~0xFFFFFFFF) ||| (v &&& 0xFFFFFFFF) := by
  rw [show (0xFFFFFFFF : Word) = BitVec.allOnes 32 from rfl, BitVec.and_allOnes, BitVec.not_allOnes]
  simp

/-- Without writable bits the old word stays. -/
theorem eq_merge_none (x v : Word) : x = (x &&& ~~~0) ||| (v &&& 0) := by
  rw [show ~~~(0 : Word) = BitVec.allOnes 32 from rfl, BitVec.and_allOnes]
  simp

/-- A register without other bits than the writable ones takes just those of the written word. -/
theorem eq_merge_of_mask {x y v m : Word} (hx : x &&& ~~~m = 0) (hy : y = v &&& m) :
    y = (x &&& ~~~m) ||| (v &&& m) := by
  rw [hx, hy]
  exact BitVec.zero_or.symm

theorem Ctrl.toWord_and_not_mask (c : Ctrl) : c.toWord &&& ~~~0xF = 0 := by
  obtain ⟨a, b, c, d⟩ := c
  revert a b c d
  decide

theorem Format.toWord_and_not_mask (f : Format) : f.toWord &&& ~~~0x1071F = 0 := by
  obtain ⟨b, c, i⟩ := f
  revert b c i
  decide +kernel

/-- From the first unmapped offset on only the RAM entries have writable bits (10_state.md R23, R41). -/
theorem writableBits_of_gt {off : Nat} (h : 0x08C < off) :
    writableBits off =
      if 0x400 ≤ off ∧ off < 0x800 then 0xFFFFFF else if 0x800 ≤ off ∧ off < 0xC00 then 0xFF else 0 := by
  simp only [writableBits, List.mem_cons, List.not_mem_nil, or_false]
  rw [if_neg (by omega), if_neg (by omega), if_neg (by omega), if_neg (by omega), if_neg (by omega)]

theorem writableBits_plte (i : Byte) :
    writableBits (Reg.plte i).offset = (BitVec.allOnes 24).setWidth 32 := by
  have := i.isLt
  rw [Reg.offset, writableBits_of_gt (by omega), if_pos (by omega)]
  rfl

theorem writableBits_alpha (i : Byte) :
    writableBits (Reg.alpha i).offset = (BitVec.allOnes 8).setWidth 32 := by
  have := i.isLt
  rw [Reg.offset, writableBits_of_gt (by omega), if_neg (by omega), if_pos (by omega)]
  rfl

theorem readReg_writeReg_plte (s : State) (v : Word) (i j : Byte) :
    (s.writeReg v (.plte i)).readReg (.plte j) =
      if j = i then (v.setWidth 24).setWidth 32 else s.readReg (.plte j) := by
  simp only [State.writeReg, State.readReg, State.paletteAt, Memory.lookup_write, BitVec.toNat_inj]
  split <;> rfl

theorem readReg_writeReg_alpha (s : State) (v : Word) (i j : Byte) :
    (s.writeReg v (.alpha i)).readReg (.alpha j) =
      if j = i then (v.setWidth 8).setWidth 32 else s.readReg (.alpha j) := by
  simp only [State.writeReg, State.readReg, State.alphaAt, Memory.lookup_write, BitVec.toNat_inj]
  split <;> rfl

/-- A written register reads as before outside its writable bits and as the value inside them. -/
theorem readReg_writeReg_same (s : State) (v : Word) (r : Reg) :
    (s.writeReg v r).readReg r =
      (s.readReg r &&& ~~~writableBits r.offset) ||| (v &&& writableBits r.offset) := by
  cases r
  case ctrl => exact eq_merge_of_mask (Ctrl.toWord_and_not_mask s.regs.ctrl) (Ctrl.toWord_ofWord v)
  case format => exact eq_merge_of_mask (Format.toWord_and_not_mask s.regs.format) (Format.toWord_ofWord v)
  case trnsKey0 => exact setWidth_eq_merge s.regs.trnsKey0 v
  case trnsKey1 => exact setWidth_eq_merge s.regs.trnsKey1 v
  case trnsKey2 => exact setWidth_eq_merge s.regs.trnsKey2 v
  case plteCount => exact setWidth_eq_merge s.regs.plteCount v
  case trnsCount => exact setWidth_eq_merge s.regs.trnsCount v
  case plte i =>
    rw [readReg_writeReg_plte, if_pos rfl, writableBits_plte]
    exact setWidth_eq_merge (s.paletteAt i.toNat) v
  case alpha i =>
    rw [readReg_writeReg_alpha, if_pos rfl, writableBits_alpha]
    exact setWidth_eq_merge (s.alphaAt i.toNat) v
  case width | height | srcAddr | srcLen | dstAddr | inEnd | crcExpect | a7Col | a7Row | pkY =>
    exact eq_merge_all _ v
  all_goals exact eq_merge_none _ v

/-- No other register changes, except those that a format register invalidates (10_state.md R29). -/
theorem readReg_writeReg_of_ne (s : State) (v : Word) {r r' : Reg} (h : r' ≠ r)
    (hf : r.offset ∈ formatOffsets → r'.offset ∉ invalidatedOffsets) :
    (s.writeReg v r).readReg r' = s.readReg r' := by
  cases r
  case plte i =>
    cases r'
    case plte j => rw [readReg_writeReg_plte, if_neg fun e => h (congrArg Reg.plte e)]
    all_goals rfl
  case alpha i =>
    cases r'
    case alpha j => rw [readReg_writeReg_alpha, if_neg fun e => h (congrArg Reg.alpha e)]
    all_goals rfl
  case width | height | format =>
    cases r' <;> first | rfl | exact absurd rfl h | exact absurd (by decide) (hf (by decide))
  all_goals cases r' <;> first | rfl | exact absurd rfl h

/-! ## A host write at a port offset -/

theorem step_regWrite {s : State} {off : Nat} {v : Word} {rest : List HostAction}
    (hs : s.script = .regWrite off v :: rest) (hp : portOffset off = true) (h0 : off ≠ 0) :
    step s = .next (State.regWrite { s with script := rest } off v) := by
  rw [step_cons hs, hostStep_regWrite v _ hp h0]

theorem regWrite_offset (s : State) (v : Word) (r : Reg) : s.regWrite r.offset v = s.writeReg v r := by
  rw [State.regWrite, regAt_offset]

theorem regWrite_unmapped {off : Nat} (s : State) (v : Word) (h : regAt off = none) : s.regWrite off v = s := by
  rw [State.regWrite, h]

/-- What the written word becomes. -/
theorem regRead_regWrite {off : Nat} (s : State) (v : Word) (hp : portOffset off = true) :
    (s.regWrite off v).regRead off =
      (s.regRead off &&& ~~~writableBits off) ||| (v &&& writableBits off) := by
  cases hr : regAt off with
  | none =>
    have hoff := (regAt_eq_none_iff hp).1 hr
    rw [regWrite_unmapped s v hr, writableBits_of_gt (by omega), if_neg (by omega), if_neg (by omega)]
    exact eq_merge_none _ v
  | some r =>
    obtain rfl := offset_of_regAt hp hr
    rw [regWrite_offset, regRead_offset, regRead_offset]
    exact readReg_writeReg_same s v r

/-- What a host write leaves unchanged. -/
theorem regWrite_onlyPort {off : Nat} (s : State) (v : Word) (hp : portOffset off = true) :
    OnlyPort (off :: (if off ∈ formatOffsets then invalidatedOffsets else [])) s (s.regWrite off v) := by
  cases hr : regAt off with
  | none =>
    rw [regWrite_unmapped s v hr]
    exact onlyPort_of_readReg (fun _ _ => rfl) rfl rfl rfl rfl ⟨rfl, rfl, rfl, rfl⟩
  | some r =>
    obtain rfl := offset_of_regAt hp hr
    obtain ⟨hparams, h0, h1, hb, hx, hlaunch, -, hscript, hlog⟩ := writeReg_frame s v r
    rw [regWrite_offset]
    refine onlyPort_of_readReg (fun r' hr' => ?_) hb hx h0 h1 ⟨hparams, hscript, hlog, hlaunch⟩
    rw [List.mem_cons, not_or] at hr'
    refine readReg_writeReg_of_ne s v (fun e => hr'.1 (congrArg Reg.offset e)) fun hf => ?_
    simpa only [if_pos hf] using hr'.2

/-- A host write does not touch a fault (60_exceptions.md R257). -/
theorem regWrite_fault (s : State) (off : Nat) (v : Word) :
    (s.regWrite off v).regs.status.err = s.regs.status.err ∧
      (s.regWrite off v).regs.errcode = s.regs.errcode ∧ (s.regWrite off v).regs.erraddr = s.regs.erraddr := by
  cases hr : regAt off with
  | none => rw [regWrite_unmapped s v hr]; exact ⟨rfl, rfl, rfl⟩
  | some r =>
    obtain ⟨hcode, haddr, -, -⟩ := writeReg_records s v r
    rw [State.regWrite, hr]
    refine ⟨?_, hcode, haddr⟩
    rcases writeReg_status s v r with e | e <;> rw [e]

/-- A write of a format register leaves no pass selected, and no other flag is changed (10_state.md R29). -/
theorem regWrite_format {off : Nat} (s : State) (v : Word) (h : off ∈ formatOffsets) :
    (s.regWrite off v).regs.NoPass ∧
      (s.regWrite off v).regs.status = { s.regs.status with prevValid := false } := by
  simp only [formatOffsets, List.mem_cons, List.not_mem_nil, or_false] at h
  rcases h with rfl | rfl | rfl <;> exact ⟨⟨rfl, rfl, rfl, rfl, rfl⟩, rfl⟩

theorem regWrite_readOnly {off : Nat} (s : State) (v : Word) (h : off ∈ readOnlyOffsets) :
    s.regWrite off v = s := by
  unfold readOnlyOffsets at h
  fin_cases h <;> rfl

/-! ## Commands without a selected pass -/

theorem execFltRow_of_noPass {s : State} (hc : s.regs.cfgLegal = true) (h : s.regs.NoPass) :
    execFltRow s = .next (s.raise .seq 0) := by
  obtain ⟨-, hw, -, -, -⟩ := h
  simp [execFltRow, hc, hw]

theorem execPxuRow_of_noPass {s : State} (hc : s.regs.cfgLegal = true) (h : s.regs.NoPass) :
    execPxuRow s = .next (s.raise .seq 0) := by
  obtain ⟨-, -, -, -, hv⟩ := h
  simp [execPxuRow, hc, hv]

/-! ## The obligations of the register port -/

/-- Settles O7: only the two resets clear a fault, and a halted block executes no other command. -/
theorem firstFaultIsKeptUntilReset : Obligations.FirstFaultIsKeptUntilReset := by
  intro s t hs ht
  have he : s.regs.status.err = true := hs
  rcases step_next_cases ht with ⟨-, rfl⟩ | ⟨act, rest, u, hscript, rfl, hact⟩
  · exact .inl ⟨hs, rfl, rfl⟩
  · rcases hact with ⟨w, rfl, hcmd⟩ | ⟨off, v, -, -, -, rfl⟩ | ⟨off, -, -, rfl⟩ | ⟨a, v, -, -, rfl⟩ |
      ⟨a, -, -, rfl⟩ | ⟨i, v, -, -, rfl⟩ | ⟨i, -, -, rfl⟩ | ⟨rfl, rfl⟩
    · rcases hcmd with ⟨-, rfl, rfl⟩ | ⟨-, -, rfl⟩ | ⟨i, hrun, -⟩ | ⟨e, hrun, -⟩
      · exact .inr ⟨rfl, rfl, rfl, .inl (by rw [hscript, List.head?_cons])⟩
      · exact .inl ⟨hs, rfl, rfl⟩
      · simp [he] at hrun
      · simp [he] at hrun
    · obtain ⟨herr, hcode, haddr⟩ := regWrite_fault { s with script := rest } off v
      exact .inl ⟨herr.trans hs, hcode, haddr⟩
    · exact .inl ⟨hs, rfl, rfl⟩
    · exact .inl ⟨hs, rfl, rfl⟩
    · exact .inl ⟨hs, rfl, rfl⟩
    · exact .inl ⟨hs, rfl, rfl⟩
    · exact .inl ⟨hs, rfl, rfl⟩
    · exact .inr ⟨rfl, rfl, rfl, .inr (by rw [hscript, List.head?_cons])⟩

/-- Settles O11: by the register at the offset, or by its absence. -/
theorem registerWriteStoresTheWritableBits : Obligations.RegisterWriteStoresTheWritableBits := by
  refine ⟨fun s => ⟨regRead_portFields s, fun i hi => ?_, fun off hp h => ?_⟩, fun s off v rest hs hp h0 => ?_⟩
  · rw [regRead_plte s hi, regRead_alpha s hi]
    exact ⟨BitVec.toNat_setWidth_of_le (by decide), BitVec.toNat_setWidth_of_le (by decide)⟩
  · rw [State.regRead, (regAt_eq_none_iff hp).2 h]
  · exact ⟨_, step_regWrite hs hp h0, regRead_regWrite _ v hp, regWrite_onlyPort { s with script := rest } v hp⟩

/-- Settles O12: the write leaves no pass selected, and both commands need one. -/
theorem formatWriteInvalidatesThePass : Obligations.FormatWriteInvalidatesThePass := by
  intro s off v rest hs hoff
  have hport : ∀ o ∈ formatOffsets, portOffset o = true ∧ o ≠ 0 := by decide
  obtain ⟨hp, h0⟩ := hport off hoff
  obtain ⟨hnone, hstatus⟩ := regWrite_format { s with script := rest } v hoff
  have ⟨hpass, hpassW, hpassH, hrow, _⟩ := hnone
  refine ⟨_, step_regWrite hs hp h0, ?_, hpassW, hpassH, hrow, hstatus, fun hc => ⟨?_, ?_⟩⟩
  · rw [regRead_pass, hpass]
    rfl
  · exact ⟨_, execFltRow_of_noPass hc hnone, faultTaken_raise _ .seq 0⟩
  · exact ⟨_, execPxuRow_of_noPass hc hnone, faultTaken_raise _ .seq 0⟩

/-- Settles O17: a hardware reset and the reset state both hold the reset registers. -/
theorem hardwareResetClearsEveryRegister : Obligations.HardwareResetClearsEveryRegister :=
  ⟨fun _ _ hs => ⟨_, step_cons hs, fun _ => regRead_of_reset rfl⟩, fun _ => regRead_of_reset rfl⟩

/-- Settles O14: the view is computed on each read, and a read-only register has no arm that stores. -/
theorem crcResultIsAViewOfTheAccumulator : Obligations.CrcResultIsAViewOfTheAccumulator := by
  refine ⟨fun _ => rfl, fun s off v rest hs hoff => ?_⟩
  have hport : ∀ o ∈ readOnlyOffsets, portOffset o = true ∧ o ≠ 0 := by decide
  obtain ⟨hp, h0⟩ := hport off hoff
  rw [step_regWrite hs hp h0, regWrite_readOnly _ v hoff]

end Sys2Proof.Machine
end

section
/-! The memories: what the host reads and writes, and which memories a command can change. -/

namespace Sys2Proof.Machine

/-! ## A host read or write of one cell (20_memory.md R71, R73) -/

theorem hostStep_regRead {off : Nat} (s : State) (hp : portOffset off = true) :
    hostStep (.regRead off) s = .next (s.logRead (s.regRead off)) := by
  simp [hostStep, hp]

theorem hostStep_byteRead {a : Nat} (s : State) (ha : a < s.params.byteSize) :
    hostStep (.byteRead a) s = .next (s.logRead ((s.byteAt a).setWidth 32)) := if_pos ha

theorem hostStep_pixRead {i : Nat} (s : State) (hi : i < s.params.pixSize) :
    hostStep (.pixRead i) s = .next (s.logRead ((s.cellAt i).setWidth 32)) := if_pos hi

theorem hostStep_byteWrite {a : Nat} (s : State) (v : Byte) (ha : a < s.params.byteSize) :
    hostStep (.byteWrite a v) s = .next (s.storeBytes a [v]) := if_pos ha

theorem hostStep_pixWrite {i : Nat} (s : State) (v : Channel) (hi : i < s.params.pixSize) :
    hostStep (.pixWrite i v) s = .next (s.storeCells i [v]) := if_pos hi

theorem byteAt_storeBytes_singleton (s : State) (a : Nat) (v : Byte) (b : Nat) :
    (s.storeBytes a [v]).byteAt b = if b = a then v else s.byteAt b := by
  by_cases h : b = a
  · simp [State.byteAt_storeBytes, h]
  · rw [State.byteAt_storeBytes, dif_neg (by rw [List.length_singleton]; omega), if_neg h]

theorem cellAt_storeCells_singleton (s : State) (i : Nat) (v : Channel) (j : Nat) :
    (s.storeCells i [v]).cellAt j = if j = i then v else s.cellAt j := by
  by_cases h : j = i
  · simp [State.cellAt_storeCells, h]
  · rw [State.cellAt_storeCells, dif_neg (by rw [List.length_singleton]; omega), if_neg h]

/-! ## What a command can change -/

/-- What every outcome `t` of the command `i` keeps of `s`: all but the registers, the draw counter and the
memories that `i` writes (20_memory.md R60, R61; 10_state.md R41, R42, R58). -/
structure CommandFrame (i : Instr) (s t : State) : Prop where
  byteMem : i ≠ .pxpRow → i ≠ .pxpImg → t.byteMem = s.byteMem
  pixMem : i ≠ .pxuRow → i ≠ .decImg → t.pixMem = s.pixMem
  line : i ≠ .fltRow → i ≠ .decImg → ∀ sel, t.line sel = s.line sel
  plte : t.plte = s.plte
  alpha : t.alpha = s.alpha
  run : SameRun s t

section
variable {i : Instr} {s : State} (R : Regs)

theorem CommandFrame.of_regs : CommandFrame i s { s with regs := R } :=
  ⟨fun _ _ => rfl, fun _ _ => rfl, fun _ _ _ => rfl, rfl, rfl, rfl, rfl, rfl, rfl⟩

theorem CommandFrame.of_raised {t : State} (ht : s.Raised t) : CommandFrame i s t := by
  obtain ⟨e, info, rfl⟩ := ht
  exact .of_regs _

theorem CommandFrame.of_byteMem (hi : i = .pxpRow ∨ i = .pxpImg) (m : Memory 8) (d : Nat) :
    CommandFrame i s { s with regs := R, byteMem := m, draws := d } :=
  ⟨fun h1 h2 => absurd hi (not_or_intro h1 h2), fun _ _ => rfl, fun _ _ _ => rfl, rfl, rfl, rfl, rfl, rfl, rfl⟩

theorem CommandFrame.pxuRow (m : Memory 16) (d : Nat) :
    CommandFrame .pxuRow s { s with regs := R, pixMem := m, draws := d } :=
  ⟨fun _ _ => rfl, fun h _ => absurd rfl h, fun _ _ _ => rfl, rfl, rfl, rfl, rfl, rfl, rfl⟩

theorem CommandFrame.fltRow (l0 l1 : Memory 8) :
    CommandFrame .fltRow s { s with regs := R, lb0 := l0, lb1 := l1 } :=
  ⟨fun _ _ => rfl, fun _ _ => rfl, fun h _ => absurd rfl h, rfl, rfl, rfl, rfl, rfl, rfl⟩

/-- `DEC.IMG` writes both the line buffers and PIX. -/
theorem CommandFrame.decImg (l0 l1 : Memory 8) (m : Memory 16) (d : Nat) :
    CommandFrame .decImg s { s with regs := R, lb0 := l0, lb1 := l1, pixMem := m, draws := d } :=
  ⟨fun _ _ => rfl, fun _ h => absurd rfl h, fun _ h => absurd rfl h, rfl, rfl, rfl, rfl, rfl, rfl⟩

/-- A CRC check writes registers only, also when others were written before it. -/
theorem CommandFrame.of_crcCheck (off : Nat) : CommandFrame i s (State.crcCheck { s with regs := R } off) := by
  rcases crcCheck_cases { s with regs := R } off with e | e | e <;> rw [e] <;> exact .of_regs _

end

/-- Drawing the cells of a row changes PIX and takes a draw. -/
theorem drawRow_eq (s : State) :
    s.drawRow = { s with pixMem := s.drawRow.pixMem, draws := s.draws + 1 } := by
  unfold State.drawRow
  rw [drawRowFrom_eq]

theorem execPxuRow_frame {s t : State} (h : execPxuRow s = .next t) : CommandFrame .pxuRow s t := by
  rcases execPxuRow_cases h with ht | ⟨-, -, -, ⟨pxs, rfl, -⟩ | ⟨e, info, rfl⟩⟩
  · exact .of_raised ht
  · rw [storePixels_eq]
    exact .pxuRow s.regs _ s.draws
  · rw [drawRow_eq]
    exact .pxuRow _ _ _

theorem execPxpRow_frame {s t : State} (h : execPxpRow s = .next t) : CommandFrame .pxpRow s t := by
  rcases execPxpRow_cases h with ht | ⟨-, -, ht | ⟨e, info, rfl⟩⟩
  · exact .of_raised ht
  · obtain ⟨d, k, m, rfl⟩ := packRow_frame ht
    exact .of_byteMem _ (.inl rfl) m s.draws
  · exact .of_byteMem _ (.inl rfl) _ _

theorem execPxpImg_commandFrame {s t : State} (h : execPxpImg s = .next t) : CommandFrame .pxpImg s t := by
  rcases execPxpImg_frame h with ht | ⟨d, k, m, u, rfl, rfl | ⟨a, n, e, info, rfl⟩⟩
  · exact .of_raised ht
  · exact .of_byteMem _ (.inr rfl) m s.draws
  · exact .of_byteMem _ (.inr rfl) _ _

theorem execDecImg_frame {s t : State} (h : execDecImg s = .next t) : CommandFrame .decImg s t := by
  rcases execDecImg_next_cases h with ht | ⟨e, info, rfl⟩ | ⟨-, ⟨init, p, -, hend⟩ | ⟨u, hu, rfl⟩⟩
  · exact .of_raised ht
  · exact .of_regs _
  · rw [hend.frame]
    exact .decImg _ _ _ _ s.draws
  · obtain ⟨done, rest, p, rows, v, e, info, -, -, hv, rfl⟩ := hu.rowAt
    rw [hv.frame]
    exact .decImg _ _ _ _ _

/-- Every command keeps all but the registers, the draw counter and the memories it writes. -/
theorem exec_frame {i : Instr} {s t : State} (h : exec i s = .next t) : CommandFrame i s t := by
  cases i
  case nop => cases h; exact .of_regs s.regs
  case ctlRst | ctlWclr | crcInit | crcByte => cases h; exact .of_regs _
  case crcChk => cases h; exact .of_crcCheck s.regs _
  case crcBuf =>
    rcases execCrcBuf_cases h with ht | ⟨acc, rfl⟩
    · exact .of_raised ht
    · exact .of_regs _
  case crcChkm =>
    rcases execCrcChkm_cases h with ht | ⟨v, off, rfl⟩
    · exact .of_raised ht
    · exact .of_crcCheck _ off
  case crcChunk =>
    rcases execCrcChunk_cases h with ht | ⟨len, type, acc, v, a, off, rfl⟩
    · exact .of_raised ht
    · exact .of_crcCheck _ off
  case fltRow =>
    rcases execFltRow_cases h with ht | ⟨rfl, -⟩
    · exact .of_raised ht
    · rw [afterFilter_eq]
      exact .fltRow _ _ _
  case a7Pass p =>
    rcases execA7Pass_cases h with ht | ⟨rfl, -⟩
    · exact .of_raised ht
    · exact .of_regs _
  case a7Map =>
    rcases execA7Map_cases h with ht | ⟨x, y, idx, rfl⟩
    · exact .of_raised ht
    · exact .of_regs _
  case a7Len =>
    rcases execA7Len_cases h with ht | ⟨len, rfl⟩
    · exact .of_raised ht
    · exact .of_regs _
  case pxuRow => exact execPxuRow_frame h
  case pxpRow => exact execPxpRow_frame h
  case pxpImg => exact execPxpImg_commandFrame h
  case decImg => exact execDecImg_frame h

/-! ## The obligations of the memories -/

/-- Settles O10: equal stored data and an equal launch draw read alike. -/
theorem commandsWriteOnlyTheirMemories : Obligations.CommandsWriteOnlyTheirMemories := by
  intro i s t h
  obtain ⟨hbyte, hpix, hline, hplte, halpha, hrun⟩ := exec_frame h
  have ⟨_, _, _, hlaunch⟩ := hrun
  refine ⟨fun h1 h2 a => ?_, fun h1 h2 c => ?_, fun h1 h2 sel k => ?_, fun k => ⟨?_, ?_⟩, hrun⟩
  · rw [State.byteAt, hbyte h1 h2, hlaunch]; rfl
  · rw [State.cellAt, hpix h1 h2, hlaunch]; rfl
  · rw [State.lineAt, hline h1 h2, hlaunch]; rfl
  · rw [State.paletteAt, hplte, hlaunch]; rfl
  · rw [State.alphaAt, halpha, hlaunch]; rfl

/-- Settles O15: the write is a store of one value, whatever the other fields are. -/
theorem hostMemoryWriteChangesOneCell : Obligations.HostMemoryWriteChangesOneCell := by
  refine fun s rest => ⟨fun a v hs ha => ?_, fun i v hs hi => ?_⟩
  · have read := byteAt_storeBytes_singleton { s with script := rest } a v
    exact ⟨_, (step_cons hs).trans (hostStep_byteWrite _ v ha), (read a).trans (if_pos rfl),
      fun b hb => (read b).trans (if_neg hb), samePort_of_regs [] rfl (fun _ => rfl) (fun _ => rfl),
      fun _ => rfl, fun _ _ => rfl, rfl, rfl, rfl, rfl⟩
  · have read := cellAt_storeCells_singleton { s with script := rest } i v
    exact ⟨_, (step_cons hs).trans (hostStep_pixWrite _ v hi), (read i).trans (if_pos rfl),
      fun j hj => (read j).trans (if_neg hj), samePort_of_regs [] rfl (fun _ => rfl) (fun _ => rfl),
      fun _ => rfl, fun _ _ => rfl, rfl, rfl, rfl, rfl⟩

/-- Settles O13: each read only adds to the log of the state with the action taken off the script. -/
theorem readsHaveNoSideEffect : Obligations.ReadsHaveNoSideEffect := by
  refine fun s rest => ⟨fun off hs hp => ?_, fun a hs ha => ?_, fun i hs hi => ?_⟩ <;> rw [step_cons hs]
  · exact hostStep_regRead { s with script := rest } hp
  · exact hostStep_byteRead { s with script := rest } ha
  · exact hostStep_pixRead { s with script := rest } hi

end Sys2Proof.Machine
end

section
/-! The encoding of commands (30_encoding.md R90 to R94): the decoder and the encoder are inverse to each other
on the words of the opcode map, and no other word decodes. -/

namespace Sys2Proof

/-! ## The two fields of a word (30_encoding.md R90) -/

theorem toNat_eq_fields (w : Word) : w.toNat = opcField w * 2 ^ 24 + argField w := by
  unfold opcField argField
  omega

theorem fields_of_toNat {w : Word} {opc arg : Nat} (h : w.toNat = opc * 2 ^ 24 + arg) (ha : arg < 2 ^ 24) :
    opcField w = opc ∧ argField w = arg := by
  unfold opcField argField
  omega

/-! ## Encodings with an operand (R91): the operand is added to the opcode's word -/

theorem toNat_encode_crcByte (b : Byte) : (encode (.crcByte b)).toNat = 0x11 * 2 ^ 24 + b.toNat := by
  have hb : (b.setWidth 32).toNat = b.toNat := BitVec.toNat_setWidth_of_le (by decide)
  rw [encode, BitVec.toNat_or, hb]
  exact (Nat.two_pow_add_eq_or_of_lt b.isLt 0x110000).symm

theorem toNat_encode_a7Pass {p : Nat} (hp : p ≤ 7) : (encode (.a7Pass p)).toNat = 0x30 * 2 ^ 24 + p := by
  have hw : (BitVec.ofNat 32 p).toNat = p := Nat.mod_eq_of_lt (by omega)
  rw [encode, BitVec.toNat_or, hw]
  exact (Nat.two_pow_add_eq_or_of_lt (i := 3) (by omega) 0x6000000).symm

/-! ## The decoder's forms (R91) -/

theorem formZ_eq_ok_iff {i j : Instr} {arg : Nat} : formZ i arg = .ok j ↔ i = j ∧ arg = 0 := by
  unfold formZ
  split <;> simp_all

theorem formI8_eq_ok_iff {j : Instr} {arg : Nat} :
    formI8 arg = .ok j ↔ .crcByte (BitVec.ofNat 8 arg) = j ∧ arg < 2 ^ 8 := by
  have hlt : arg / 2 ^ 8 = 0 ↔ arg < 2 ^ 8 := by omega
  unfold formI8
  split <;> simp_all

theorem formP3_eq_ok_iff {j : Instr} {arg : Nat} : formP3 arg = .ok j ↔ .a7Pass arg = j ∧ arg < 2 ^ 3 := by
  have hlt : arg / 2 ^ 3 = 0 ↔ arg < 2 ^ 3 := by omega
  unfold formP3
  split <;> simp_all

/-- Opcode 0x11 is the one of form I8 (R93). -/
theorem decodeWord_of_opc_crcByte {w : Word} (h : opcField w = 0x11) : decodeWord w = formI8 (argField w) := by
  simp only [decodeWord, h]

/-- Opcode 0x30 is the one of form P3 (R93). -/
theorem decodeWord_of_opc_a7Pass {w : Word} (h : opcField w = 0x30) : decodeWord w = formP3 (argField w) := by
  simp only [decodeWord, h]

/-! ## Decoding and encoding are inverse -/

theorem decodeWord_encode {i : Instr} (hi : i.wellFormed = true) : decodeWord (encode i) = .ok i := by
  cases i
  case crcByte b =>
    obtain ⟨hopc, harg⟩ := fields_of_toNat (toNat_encode_crcByte b) (by omega)
    rw [decodeWord_of_opc_crcByte hopc, harg, formI8_eq_ok_iff]
    exact ⟨by rw [BitVec.ofNat_toNat, BitVec.setWidth_eq], b.isLt⟩
  case a7Pass p =>
    have hp : p ≤ 7 := of_decide_eq_true hi
    obtain ⟨hopc, harg⟩ := fields_of_toNat (toNat_encode_a7Pass hp) (by omega)
    rw [decodeWord_of_opc_a7Pass hopc, harg, formP3_eq_ok_iff]
    exact ⟨rfl, by omega⟩
  all_goals rfl

/-- An accepted word is the encoding of what it decodes to: each form accounts for all 24 bits of `arg`. -/
theorem encode_of_decodeWord {w : Word} {i : Instr} (h : decodeWord w = .ok i) : encode i = w := by
  apply BitVec.eq_of_toNat_eq
  rw [toNat_eq_fields w]
  unfold decodeWord at h
  split at h
  case h_5 hopc =>
    obtain ⟨rfl, harg⟩ := formI8_eq_ok_iff.1 h
    rw [toNat_encode_crcByte, hopc, BitVec.toNat_ofNat, Nat.mod_eq_of_lt harg]
  case h_11 hopc =>
    obtain ⟨rfl, harg⟩ := formP3_eq_ok_iff.1 h
    rw [toNat_encode_a7Pass (by omega), hopc]
  case h_18 => cases h
  all_goals
    rename_i hopc
    obtain ⟨rfl, harg⟩ := formZ_eq_ok_iff.1 h
    rw [hopc, harg]
    rfl

/-! ## The opcode map (R92, R93) -/

theorem encode_matches_row (i : Instr) : Laws.MatchesItsRow.Statement i := by
  cases i
  case crcByte b => exact Laws.MatchesItsRow.crcByte b
  case a7Pass p => exact Laws.MatchesItsRow.a7Pass p
  exacts [Laws.MatchesItsRow.nop, Laws.MatchesItsRow.ctlRst, Laws.MatchesItsRow.ctlWclr,
    Laws.MatchesItsRow.crcInit, Laws.MatchesItsRow.crcBuf, Laws.MatchesItsRow.crcChk,
    Laws.MatchesItsRow.crcChkm, Laws.MatchesItsRow.crcChunk, Laws.MatchesItsRow.fltRow,
    Laws.MatchesItsRow.a7Map, Laws.MatchesItsRow.a7Len, Laws.MatchesItsRow.pxuRow,
    Laws.MatchesItsRow.pxpRow, Laws.MatchesItsRow.pxpImg, Laws.MatchesItsRow.decImg]

/-- A mask that leaves out the low `k` bits fixes the bits above them. -/
theorem toNat_div_of_masked {n : Nat} {w r : BitVec n} (k : Nat) (h : w &&& BitVec.allOnes n <<< k = r) :
    w.toNat / 2 ^ k = r.toNat / 2 ^ k := by
  have hshift : (w &&& BitVec.allOnes n <<< k) >>> k = w >>> k := by
    ext i hi
    simpa [hi] using BitVec.lt_of_getLsbD
  rw [← Nat.shiftRight_eq_div_pow, ← Nat.shiftRight_eq_div_pow, ← BitVec.toNat_ushiftRight, ← hshift, h,
    BitVec.toNat_ushiftRight]

/-- A row of form Z gives the whole word. -/
theorem decodeWord_of_formZ_row {w c : Word} {i : Instr} (hc : decodeWord c = .ok i)
    (h : w &&& BitVec.allOnes 32 = c) : ∃ i, decodeWord w = .ok i := by
  rw [BitVec.and_allOnes] at h
  exact ⟨i, h ▸ hc⟩

theorem decodeWord_of_crcByte_row {w : Word} (h : w &&& BitVec.allOnes 32 <<< 8 = 0x11000000) :
    ∃ i, decodeWord w = .ok i := by
  have hw : w.toNat / 2 ^ 8 = 0x110000 := toNat_div_of_masked 8 h
  rw [decodeWord_of_opc_crcByte (by unfold opcField; omega)]
  exact ⟨_, formI8_eq_ok_iff.2 ⟨rfl, by unfold argField; omega⟩⟩

theorem decodeWord_of_a7Pass_row {w : Word} (h : w &&& BitVec.allOnes 32 <<< 3 = 0x30000000) :
    ∃ i, decodeWord w = .ok i := by
  have hw : w.toNat / 2 ^ 3 = 0x6000000 := toNat_div_of_masked 3 h
  rw [decodeWord_of_opc_a7Pass (by unfold opcField; omega)]
  exact ⟨_, formP3_eq_ok_iff.2 ⟨rfl, by unfold argField; omega⟩⟩

theorem decodeWord_of_matches_row {w : Word} {r : Word × Word} (hr : r ∈ commandTable) (h : w &&& r.1 = r.2) :
    ∃ i, decodeWord w = .ok i := by
  unfold commandTable at hr
  fin_cases hr
  exacts [decodeWord_of_formZ_row (i := .nop) rfl h, decodeWord_of_formZ_row (i := .ctlRst) rfl h,
    decodeWord_of_formZ_row (i := .ctlWclr) rfl h, decodeWord_of_formZ_row (i := .crcInit) rfl h,
    decodeWord_of_crcByte_row h, decodeWord_of_formZ_row (i := .crcBuf) rfl h,
    decodeWord_of_formZ_row (i := .crcChk) rfl h, decodeWord_of_formZ_row (i := .crcChkm) rfl h,
    decodeWord_of_formZ_row (i := .crcChunk) rfl h, decodeWord_of_formZ_row (i := .fltRow) rfl h,
    decodeWord_of_a7Pass_row h, decodeWord_of_formZ_row (i := .a7Map) rfl h,
    decodeWord_of_formZ_row (i := .a7Len) rfl h, decodeWord_of_formZ_row (i := .pxuRow) rfl h,
    decodeWord_of_formZ_row (i := .pxpRow) rfl h, decodeWord_of_formZ_row (i := .pxpImg) rfl h,
    decodeWord_of_formZ_row (i := .decImg) rfl h]

/-- The decoder accepts exactly the rows of the opcode map (R94). -/
theorem decodeWord_ok_iff (w : Word) : (∃ i, decodeWord w = .ok i) ↔ ∃ r ∈ commandTable, w &&& r.1 = r.2 := by
  refine ⟨fun ⟨i, hi⟩ => ?_, fun ⟨r, hr, h⟩ => decodeWord_of_matches_row hr h⟩
  rw [← encode_of_decodeWord hi]
  exact encode_matches_row i (Machine.wellFormed_of_decodeWord hi)

/-- Settles O1: the operand stands alone below the opcode, so the decoder reads back both. -/
theorem decodeOfEncodeIsTheCommand : Obligations.DecodeOfEncodeIsTheCommand :=
  fun _ => decodeWord_encode

/-- Settles O2: the rows match the encodings, and a word that decodes is the encoding of its command. -/
theorem decodeAcceptsExactlyTheOpcodeMap : Obligations.DecodeAcceptsExactlyTheOpcodeMap :=
  fun w => ⟨decodeWord_ok_iff w, fun _ h => ⟨Machine.wellFormed_of_decodeWord h, encode_of_decodeWord h⟩⟩

/-- Settles O3: each word is evaluated. -/
theorem writtenOutWordsDecode : Obligations.WrittenOutWordsDecode := by
  unfold Obligations.WrittenOutWordsDecode
  decide

end Sys2Proof
end

section
/-! The commands as the host issues them, the legality of the format and the layout of a row
(30_encoding.md R94 to R107). -/

namespace Sys2Proof.Machine

/-! ## A write to `CMD` -/

/-- A step whose action writes to `CMD` is the command write. -/
theorem step_cmd {s : State} {w : Word} {rest : List HostAction} (hs : s.script = .regWrite 0x000 w :: rest) :
    step s = commandWrite w { s with script := rest } := step_cons hs

theorem tableWord_toNat (w : Word) : tableWord 32 w.toNat = w := by
  rw [tableWord, Nat.mod_eq_of_lt w.isLt, BitVec.ofNat_toNat, BitVec.setWidth_eq]

/-- A running block executes the command that is written. -/
theorem step_cmd_of_decodeWord {s : State} {w : Word} {i : Instr} {rest : List HostAction}
    (hs : s.script = .regWrite 0x000 w :: rest) (hrun : s.halted = false) (hd : decodeWord w = .ok i) :
    step s = exec i { s with script := rest } :=
  (step_cmd hs).trans (commandWrite_ok hrun hd)

/-- Settles O4: `withFetchWord` puts the write of the word itself first. -/
theorem stepRunsTheDecodedCommand : Obligations.StepRunsTheDecodedCommand := by
  refine ⟨fun s w i rest => step_cmd_of_decodeWord, fun s w i hrun hd => ?_⟩
  rw [State.withFetchWord, tableWord_toNat]
  exact step_cmd_of_decodeWord (s := s.withCommand w) rfl hrun hd

/-- Settles O5: a word that matches no row does not decode, and the fault is all that its write does. -/
theorem illegalWordTakesIllegalCmd : Obligations.IllegalWordTakesIllegalCmd := by
  intro s w rest hs hrun hno
  cases hd : decodeWord w with
  | ok i =>
    obtain ⟨r, hr, hmatch⟩ := (decodeWord_ok_iff w).1 ⟨i, hd⟩
    exact absurd hmatch (hno r hr)
  | error e => exact ⟨_, (step_cmd hs).trans (commandWrite_error hrun hd), faultTaken_raise _ .illegalCmd _⟩

/-! ## Host accesses without a step -/

theorem hostStep_byteWrite_refused {a : Nat} (s : State) (v : Byte) (h : s.params.byteSize ≤ a) :
    hostStep (.byteWrite a v) s = .refused (.noSuchByteAddress a) := if_neg (Nat.not_lt.2 h)

theorem hostStep_byteRead_refused {a : Nat} (s : State) (h : s.params.byteSize ≤ a) :
    hostStep (.byteRead a) s = .refused (.noSuchByteAddress a) := if_neg (Nat.not_lt.2 h)

theorem hostStep_pixWrite_refused {i : Nat} (s : State) (v : Channel) (h : s.params.pixSize ≤ i) :
    hostStep (.pixWrite i v) s = .refused (.noSuchPixIndex i) := if_neg (Nat.not_lt.2 h)

theorem hostStep_pixRead_refused {i : Nat} (s : State) (h : s.params.pixSize ≤ i) :
    hostStep (.pixRead i) s = .refused (.noSuchPixIndex i) := if_neg (Nat.not_lt.2 h)

theorem portOffset_eq_false_iff (off : Nat) : portOffset off = false ↔ off % 4 ≠ 0 ∨ 0xFFC < off := by
  rw [← Bool.not_eq_true, portOffset_iff]
  omega

theorem hostStep_regWrite_refused {off : Nat} (s : State) (v : Word) (h : portOffset off = false) :
    hostStep (.regWrite off v) s = .refused (.noSuchRegOffset off) := by
  simp [hostStep, h]

theorem hostStep_regRead_refused {off : Nat} (s : State) (h : portOffset off = false) :
    hostStep (.regRead off) s = .refused (.noSuchRegOffset off) := by
  simp [hostStep, h]

/-- Settles O16: each host action checks its own address first. -/
theorem outOfRangeHostAccessIsRefused : Obligations.OutOfRangeHostAccessIsRefused := by
  refine fun s rest => ⟨fun a v hs h => ?_, fun a hs h => ?_, fun i v hs h => ?_, fun i hs h => ?_,
    fun off v hs h => ?_, fun off hs h => ?_⟩ <;> rw [step_cons hs]
  · exact hostStep_byteWrite_refused _ v h
  · exact hostStep_byteRead_refused _ h
  · exact hostStep_pixWrite_refused _ v h
  · exact hostStep_pixRead_refused _ h
  · exact hostStep_regWrite_refused _ v ((portOffset_eq_false_iff off).2 h)
  · exact hostStep_regRead_refused _ ((portOffset_eq_false_iff off).2 h)

/-! ## Legal formats (30_encoding.md R100 to R104) -/

/-- The pairs of R100. -/
theorem legalPair_iff (f : Format) : f.legalPair = true ↔
    (f.colorType.toNat, f.bitDepth.toNat) ∈
      [(0, 1), (0, 2), (0, 4), (0, 8), (0, 16), (2, 8), (2, 16), (3, 1), (3, 2), (3, 4), (3, 8),
       (4, 8), (4, 16), (6, 8), (6, 16)] := by
  unfold Format.legalPair
  split <;> simp_all

theorem cfgLegal_iff (r : Regs) : r.cfgLegal = true ↔
    1 ≤ r.width.toNat ∧ 1 ≤ r.height.toNat ∧ r.format.legalPair = true ∧
      r.plteCount.toNat ≤ 256 ∧ r.trnsCount.toNat ≤ 256 := by
  simp only [Regs.cfgLegal, Bool.and_eq_true, decide_eq_true_eq, and_assoc]
  rfl

theorem packLegal_of_not_cfgLegal {r : Regs} (h : r.cfgLegal = false) : r.packLegal = false := by
  rw [Regs.packLegal, h, Bool.false_and]

/-- Each command that uses the format checks it before anything else (R102). -/
theorem exec_of_not_cfgLegal {s : State} {i : Instr} (hc : s.regs.cfgLegal = false)
    (hi : i ∈ [Instr.fltRow, .a7Map, .a7Len, .pxuRow, .pxpRow, .pxpImg, .decImg] ∨ ∃ p, i = .a7Pass p) :
    exec i s = .next (s.raise .cfg 0) := by
  have hp := packLegal_of_not_cfgLegal hc
  cases i
  case fltRow => simp [exec, execFltRow, hc]
  case a7Pass => simp [exec, execA7Pass, hc]
  case a7Map => simp [exec, execA7Map, hc]
  case a7Len => simp [exec, execA7Len, hc]
  case pxuRow => simp [exec, execPxuRow, hc]
  case pxpRow => simp [exec, execPxpRow, hp]
  case pxpImg => simp [exec, execPxpImg, hp]
  case decImg => simp [exec, execDecImg, hc]
  all_goals simp at hi

/-! ## The code that the other commands leave -/

theorem code_eq_cfg_iff (e : HwFault) : e.code = 0x02 ↔ e = .cfg := by
  cases e <;> decide

/-- A fault other than `ERR_CFG` does not leave its code. -/
theorem raise_errcode_ne_cfg {e : HwFault} (he : e ≠ .cfg) (s : State) (info : Nat) :
    (s.raise e info).regs.errcode ≠ 0x02 :=
  fun h => he ((code_eq_cfg_iff e).1 h)

/-- A check faults with `ERR_CRC` only. -/
theorem errcode_eq_cfg_of_crcCheck {s : State} {off : Nat} (h : (s.crcCheck off).regs.errcode = 0x02) :
    s.regs.errcode = 0x02 := by
  rcases crcCheck_cases s off with e | e | e <;> rw [e] at h
  · exact h
  · exact absurd h (raise_errcode_ne_cfg (by decide) _ _)
  · exact h

theorem errcode_eq_cfg_of_execCrcBuf {s t : State} (h : execCrcBuf s = .next t) (ht : t.regs.errcode = 0x02) :
    s.regs.errcode = 0x02 := by
  unfold execCrcBuf at h
  dsimp only at h
  split at h <;> cases h
  · exact absurd ht (raise_errcode_ne_cfg (by decide) _ _)
  · exact ht

theorem errcode_eq_cfg_of_execCrcChkm {s t : State} (h : execCrcChkm s = .next t) (ht : t.regs.errcode = 0x02) :
    s.regs.errcode = 0x02 := by
  unfold execCrcChkm at h
  dsimp only at h
  split at h <;> cases h
  · exact absurd ht (raise_errcode_ne_cfg (by decide) _ _)
  · exact (errcode_eq_cfg_of_crcCheck ht :)

theorem errcode_eq_cfg_of_execCrcChunk {s t : State} (h : execCrcChunk s = .next t) (ht : t.regs.errcode = 0x02) :
    s.regs.errcode = 0x02 := by
  unfold execCrcChunk at h
  dsimp only at h
  split at h
  · cases h
    exact absurd ht (raise_errcode_ne_cfg (by decide) _ _)
  split at h
  · cases h
    exact absurd ht (raise_errcode_ne_cfg (by decide) _ _)
  split at h <;> cases h
  · exact absurd ht (raise_errcode_ne_cfg (by decide) _ _)
  · exact (errcode_eq_cfg_of_crcCheck ht :)

/-- The CRC and control commands never take `ERR_CFG`. -/
theorem errcode_eq_cfg_of_exec {s t : State} {i : Instr} (h : exec i s = .next t)
    (hi : i ∈ [Instr.nop, .ctlRst, .ctlWclr, .crcInit, .crcBuf, .crcChk, .crcChkm, .crcChunk] ∨
      ∃ b, i = .crcByte b) (ht : t.regs.errcode = 0x02) : s.regs.errcode = 0x02 := by
  cases i
  case nop | ctlWclr | crcInit | crcByte => cases h; exact ht
  case ctlRst =>
    cases h
    exact absurd (show Regs.reset.errcode = 0x02 from ht) (by decide)
  case crcBuf => exact errcode_eq_cfg_of_execCrcBuf h ht
  case crcChk => cases h; exact errcode_eq_cfg_of_crcCheck ht
  case crcChkm => exact errcode_eq_cfg_of_execCrcChkm h ht
  case crcChunk => exact errcode_eq_cfg_of_execCrcChunk h ht
  all_goals simp at hi

/-- Settles O31: the check comes first in every command that uses the format, and no other fault has its
code. -/
theorem formatCommandsCheckLegality : Obligations.FormatCommandsCheckLegality := by
  refine ⟨fun r => ?_, fun s i hc hi => ?_, fun s t i h hi ht => errcode_eq_cfg_of_exec h hi ht⟩
  · rw [cfgLegal_iff, legalPair_iff]
  · exact ⟨_, exec_of_not_cfgLegal hc hi, faultTaken_raise s .cfg 0⟩

/-! ## Samples (R106, R107) -/

theorem toNat_append_byte (hi lo : Byte) : (hi ++ lo).toNat = hi.toNat * 256 + lo.toNat := by
  rw [BitVec.toNat_append, ← Nat.shiftLeft_add_eq_or_of_lt lo.isLt, Nat.shiftLeft_eq]

/-- A sample below 8 bits is the `d` bits of its byte from `8 - d - (k*d mod 8)` on (R107). -/
theorem sample_subbyte {f : Format} (row : List Byte) (k j : Nat) (h : f.bitDepth.toNat < 8) :
    f.sample row k j = BitVec.ofNat 16 (((rowByte row (k * f.bitDepth.toNat / 8)).toNat /
      2 ^ (8 - f.bitDepth.toNat - k * f.bitDepth.toNat % 8)) % 2 ^ f.bitDepth.toNat) := by
  simp only [Format.sample]
  rw [if_neg (by omega), if_neg (by omega)]

theorem sample_byte {f : Format} (row : List Byte) (k j : Nat) (h : f.bitDepth.toNat = 8) :
    f.sample row k j = (rowByte row (k * f.channels + j)).setWidth 16 := by
  simp [Format.sample, h]

theorem sample_word {f : Format} (row : List Byte) (k j : Nat) (h : f.bitDepth.toNat = 16) :
    f.sample row k j =
      rowByte row (2 * (k * f.channels + j)) ++ rowByte row (2 * (k * f.channels + j) + 1) := by
  simp [Format.sample, h]

/-- Settles O32: by the depth; below 8 bits, dividing by a power of 2 moves the byte's bits down and the
remainder keeps the low ones. -/
theorem samplesAreReadMsbFirst : Obligations.SamplesAreReadMsbFirst := by
  refine fun f row k j => ⟨fun hd b hb => ?_, fun hd => ?_, fun hd => ?_⟩
  · have hlt : f.bitDepth.toNat < 8 := by
      simp only [List.mem_cons, List.not_mem_nil, or_false] at hd
      omega
    rw [sample_subbyte row k 0 hlt, BitVec.getLsbD_ofNat, Nat.testBit_mod_two_pow, Nat.testBit_div_two_pow,
      BitVec.testBit_toNat, decide_eq_true hb, Bool.true_and, Nat.add_comm b]
  · rw [sample_byte row k j hd]
    exact BitVec.toNat_setWidth_of_le (by decide)
  · rw [sample_word row k j hd, toNat_append_byte]

/-! ## Bits per pixel and row bytes (R103, R104) -/

theorem le_ceilDiv_eight (n : Nat) : n ≤ 8 * ceilDiv n 8 ∧ 8 * ceilDiv n 8 < n + 8 := by
  unfold ceilDiv
  omega

/-- Settles O33: the legal pairs one by one, and rounding up to whole bytes. -/
theorem rowBytesHoldTheRow : Obligations.RowBytesHoldTheRow := by
  refine ⟨fun f h => ?_, fun f w => le_ceilDiv_eight (w * f.bpp)⟩
  rw [legalPair_iff] at h
  simp only [Format.filterUnit, Format.bpp, Format.channels]
  generalize f.colorType.toNat = ct, f.bitDepth.toNat = d at h ⊢
  simp only [List.mem_cons, List.not_mem_nil, or_false, Prod.mk.injEq] at h
  rcases h with ⟨rfl, rfl⟩ | ⟨rfl, rfl⟩ | ⟨rfl, rfl⟩ | ⟨rfl, rfl⟩ | ⟨rfl, rfl⟩ | ⟨rfl, rfl⟩ | ⟨rfl, rfl⟩ |
    ⟨rfl, rfl⟩ | ⟨rfl, rfl⟩ | ⟨rfl, rfl⟩ | ⟨rfl, rfl⟩ | ⟨rfl, rfl⟩ | ⟨rfl, rfl⟩ | ⟨rfl, rfl⟩ |
    ⟨rfl, rfl⟩ <;> decide

end Sys2Proof.Machine
end

section
/-! The control commands `NOP`, `CTL.RST` and `CTL.WCLR` (40_control.md), issued to a running or a halted
block. -/

namespace Sys2Proof.Machine

/-! ## The command write of a halted block (60_exceptions.md R255) -/

/-- A halted block discards every word but that of `CTL.RST`. -/
theorem step_cmd_discarded {s : State} {w : Word} {rest : List HostAction}
    (hs : s.script = .regWrite 0x000 w :: rest) (hhalt : s.halted = true) (hw : w ≠ 0x01000000) :
    step s = .next { s with script := rest } :=
  ((step_cmd hs).trans (commandWrite_halted hhalt)).trans (if_neg hw)

/-- The word of `CTL.RST` is executed by a halted block as by a running one. -/
theorem step_cmd_ctlRst {s : State} {rest : List HostAction}
    (hs : s.script = .regWrite 0x000 0x01000000 :: rest) :
    step s = exec .ctlRst { s with script := rest } := by
  cases hhalt : s.halted with
  | true => exact (step_cmd hs).trans (commandWrite_halted hhalt)
  | false => exact step_cmd_of_decodeWord hs hhalt rfl

/-! ## Commands that write registers only -/

/-- The RAMs, and the unmapped words above them, do not depend on the registers. -/
theorem regRead_withRegs_of_ge (s : State) (R : Regs) {off : Nat} (h : 0x400 ≤ off) :
    State.regRead { s with regs := R } off = s.regRead off := by
  rw [State.regRead, State.regRead, regAt, if_neg (Nat.not_lt.2 h)]
  split_ifs <;> rfl

/-- No register but `STATUS`, `WARN_ADDR` and `WARN_CNT` reads the fields that `CTL.WCLR` writes (R122). -/
theorem execCtlWclr_onlyPort {s t : State} (h : execCtlWclr s = .next t) :
    OnlyPort [0x004, 0x03C, 0x040] s t := by
  cases h
  refine onlyPort_of_readReg (fun r hr => ?_) rfl rfl rfl rfl ⟨rfl, rfl, rfl, rfl⟩
  cases r
  case status | warnAddr | warnCnt => exact absurd (by decide) hr
  all_goals rfl

/-! ## The obligations of the control commands -/

/-- Settles O19: the registers become the reset registers, and a halted block executes this word and no other. -/
theorem softResetClearsRegistersOnly : Obligations.SoftResetClearsRegistersOnly :=
  ⟨rfl,
    fun s => ⟨s.softReset, rfl, fun _ => regRead_of_reset rfl, fun _ _ h => regRead_withRegs_of_ge s _ h,
      fun _ => rfl, fun _ => rfl, fun _ _ => rfl, rfl, rfl, rfl, rfl⟩,
    fun _ _ => step_cmd_ctlRst, fun _ _ _ => step_cmd_discarded⟩

/-- Settles O18: a running block executes `NOP`, a halted one discards its word. -/
theorem nopChangesNothing : Obligations.NopChangesNothing := by
  refine ⟨rfl, fun _ => rfl, fun s rest hs => ?_⟩
  cases hhalt : s.halted with
  | true => exact step_cmd_discarded hs hhalt (by decide)
  | false => exact step_cmd_of_decodeWord hs hhalt rfl

/-- Settles O20: the three writes and the frame; its word is not that of `CTL.RST`. -/
theorem warningClearClearsOnlyTheWarning : Obligations.WarningClearClearsOnlyTheWarning :=
  ⟨rfl, fun _ => ⟨_, rfl, rfl, rfl, rfl, execCtlWclr_onlyPort rfl⟩,
    fun _ _ hs hhalt => step_cmd_discarded hs hhalt (by decide)⟩

end Sys2Proof.Machine
end

section
/-! The CRC unit (41_crc.md): the table form of `crc_step`, the commands that feed the accumulator, and the
three checks. -/

namespace Sys2Proof.Machine

/-! ## The table form (R130, R132) -/

/-- The low byte of the accumulator meets the byte fed; the upper 24 bits are left alone. -/
theorem xor_setWidth_split (acc : Word) (b : Byte) :
    acc ^^^ b.setWidth 32 = (acc.setWidth 8 ^^^ b).setWidth 32 ^^^ (acc >>> 8) <<< 8 := by
  ext i hi
  simp only [BitVec.getElem_xor, BitVec.getElem_setWidth, BitVec.getLsbD_xor, BitVec.getLsbD_setWidth,
    BitVec.getElem_shiftLeft, BitVec.getElem_ushiftRight]
  by_cases h : i < 8
  · simp [h, BitVec.getLsbD_eq_getElem hi]
  · simp [h, Nat.add_sub_cancel' (Nat.le_of_not_lt h), BitVec.getLsbD_eq_getElem hi, Bool.xor_comm]

/-- Entry `b` of the table (R132). -/
theorem crcStep_zero (b : Byte) : crcStep 0 b = crcShifts 8 (b.setWidth 32) :=
  congrArg (crcShifts 8) BitVec.zero_xor

theorem crcShifts_eight_upper (v : Word) : crcShifts 8 ((v >>> 8) <<< 8) = v >>> 8 := by
  rw [crcShifts_of_low_zero 8 _ fun i hi => by simp [hi]]
  ext i hi
  simpa using BitVec.lt_of_getLsbD

/-- Settles O22: the shift steps are linear, take the low byte to its table entry, and only move the upper
24 bits down. -/
theorem crcStepIsTheTableForm : Obligations.CrcStepIsTheTableForm := by
  intro acc b
  rw [crcStep_zero, crcStep, xor_setWidth_split, crcShifts_xor, crcShifts_eight_upper]

/-! ## What a command leaves unchanged -/

/-- Two changes of port words, one after the other. -/
theorem OnlyPort.trans {offs offs₁ offs₂ : List Nat} {s t u : State} (h₁ : OnlyPort offs₁ s t)
    (h₂ : OnlyPort offs₂ t u) (hsub : offs₁ ++ offs₂ ⊆ offs) : OnlyPort offs s u := by
  obtain ⟨hp₁, hb₁, hc₁, hl₁, hpar₁, hscr₁, hlog₁, hlau₁⟩ := h₁
  obtain ⟨hp₂, hb₂, hc₂, hl₂, hpar₂, hscr₂, hlog₂, hlau₂⟩ := h₂
  refine ⟨fun off hp hn => ?_, fun a => (hb₂ a).trans (hb₁ a), fun i => (hc₂ i).trans (hc₁ i),
    fun sel i => (hl₂ sel i).trans (hl₁ sel i), hpar₂.trans hpar₁, hscr₂.trans hscr₁, hlog₂.trans hlog₁,
    hlau₂.trans hlau₁⟩
  have hn₁ : off ∉ offs₁ := fun hm => hn (hsub (List.mem_append_left _ hm))
  have hn₂ : off ∉ offs₂ := fun hm => hn (hsub (List.mem_append_right _ hm))
  exact (hp₂ off hp hn₂).trans (hp₁ off hp hn₁)

theorem OnlyPort.sameAt {offs l : List Nat} {s t : State} (h : OnlyPort offs s t)
    (hl : ∀ off ∈ l, portOffset off = true ∧ off ∉ offs) : SameAt l s t :=
  fun off ho => h.1 off (hl off ho).1 (hl off ho).2

/-- A write of registers only: it is enough to look at each register. -/
theorem onlyPort_withRegs {offs : List Nat} (s : State) (R : Regs)
    (h : ∀ r : Reg, r.offset ∉ offs → State.readReg { s with regs := R } r = s.readReg r) :
    OnlyPort offs s { s with regs := R } :=
  onlyPort_of_readReg h rfl rfl rfl rfl ⟨rfl, rfl, rfl, rfl⟩

/-- The accumulator is read at its own offset and, inverted, at that of `CRC_RESULT` (10_state.md R36). -/
theorem onlyPort_crcAcc (s : State) (acc : Word) :
    OnlyPort [0x030, 0x034] s { s with regs := { s.regs with crcAcc := acc } } := by
  refine onlyPort_withRegs s _ fun r hr => ?_
  cases r
  case crcAcc | crcResult => exact absurd (by decide) hr
  all_goals rfl

theorem onlyPort_setCrcOk (s : State) (ok : Bool) :
    OnlyPort [0x004] s { s with regs := s.regs.setCrcOk ok } := by
  refine onlyPort_withRegs s _ fun r hr => ?_
  cases r
  case status => exact absurd (by decide) hr
  all_goals rfl

/-! ## The commands that feed the accumulator (R131, R133 to R135) -/

/-- Settles O23: by the recursion of `crcFeed`. -/
theorem crcFeedCanBeSplit : Obligations.CrcFeedCanBeSplit :=
  ⟨fun _ => rfl, fun _ _ _ => rfl, rfl, crcFeed_append⟩

/-- Settles O24: the two writes, one after the other. -/
theorem crcInitStartsAComputation : Obligations.CrcInitStartsAComputation :=
  ⟨rfl, fun s => ⟨_, rfl, rfl, BitVec.xor_self, rfl,
    (onlyPort_setCrcOk s false).trans (onlyPort_crcAcc _ crcInitial) (by decide)⟩⟩

/-- Settles O25: the accumulator is the only register written; the examples are evaluated. -/
theorem crcByteFeedsTheImmediate : Obligations.CrcByteFeedsTheImmediate :=
  ⟨fun _ => rfl, fun _ s => ⟨_, rfl, rfl, onlyPort_crcAcc s _⟩, by decide, by decide, by decide, by decide⟩

theorem execCrcBuf_of_fits {s : State}
    (h : s.regs.srcLen = 0 ∨ s.regs.srcAddr.toNat + s.regs.srcLen.toNat ≤ s.rlim) :
    execCrcBuf s = .next { s with regs := { s.regs with
      crcAcc := crcFeed s.regs.crcAcc (s.bytesAt s.regs.srcAddr.toNat s.regs.srcLen.toNat) } } := by
  refine if_neg fun ⟨hlen, hpast⟩ => ?_
  rcases h with h | h
  · exact absurd hlen (by simp [h])
  · exact absurd hpast (Nat.not_lt.2 h)

theorem execCrcBuf_of_past {s : State} (hlen : 1 ≤ s.regs.srcLen.toNat)
    (h : s.rlim < s.regs.srcAddr.toNat + s.regs.srcLen.toNat) :
    execCrcBuf s = .next (s.raise .bounds s.regs.srcAddr.toNat) :=
  if_pos ⟨hlen, h⟩

/-- Settles O26: `RLIM` is the minimum, and a range within it or empty is fed whole. -/
theorem crcBufFeedsTheRange : Obligations.CrcBufFeedsTheRange :=
  ⟨rfl, fun s => ⟨fun h => ⟨_, execCrcBuf_of_fits h, rfl, onlyPort_crcAcc s _⟩,
    fun hlen h => ⟨_, execCrcBuf_of_past hlen h, faultTaken_raise s .bounds _⟩⟩⟩

/-! ## The check of the result (R136) -/

/-- The check writes no register but `STATUS`, the fault and the warning registers. -/
theorem regRead_crcCheck {off : Nat} (s : State) (a : Nat) (hp : portOffset off = true)
    (hn : off ∉ [0x004, 0x008, 0x00C, 0x03C, 0x040]) : (s.crcCheck a).regRead off = s.regRead off :=
  (onlyPort_crcCheck s a).1 off hp hn

/-- Settles O27: the command is the check itself. -/
theorem crcChkComparesTheResult : Obligations.CrcChkComparesTheResult :=
  ⟨rfl, fun s => ⟨_, rfl, checkVerdict_crcCheck s _, onlyPort_crcCheck s _⟩⟩

/-- The verdict of a check that comes after writes to other registers, seen from before them. -/
theorem checkVerdict_crcCheck_of_onlyPort {offs : List Nat} {s t : State} (off : Nat) (h : OnlyPort offs s t)
    (hoffs : ∀ o ∈ [0x008, 0x00C, 0x03C, 0x040], portOffset o = true ∧ o ∉ offs)
    (hstatus : t.regs.status = s.regs.status) (hctrl : t.regs.ctrl = s.regs.ctrl) :
    CheckVerdict s (t.crcCheck off) (t.regRead 0x030 ^^^ 0xFFFFFFFF) (t.regRead 0x038) off :=
  checkVerdict_of_same hstatus hctrl (h.sameAt hoffs) (checkVerdict_crcCheck t off)

/-! ## The check against memory (R137) -/

theorem word_be32Value (s : State) (a : Nat) : word (s.be32Value a) = s.be32 a := by
  rw [← State.be32_toNat, word, BitVec.ofNat_toNat, BitVec.setWidth_eq]

/-- The state in which `CRC.CHKM` checks: `CRC_EXPECT` holds the stored word. -/
def State.loadExpect (s : State) : State :=
  { s with regs := { s.regs with crcExpect := s.be32 s.regs.srcAddr.toNat } }

theorem execCrcChkm_of_fits {s : State} (h : s.regs.srcAddr.toNat + 4 ≤ s.rlim) :
    execCrcChkm s = .next (s.loadExpect.crcCheck s.regs.srcAddr.toNat) :=
  if_neg (Nat.not_lt.2 h)

theorem execCrcChkm_of_past {s : State} (h : s.rlim < s.regs.srcAddr.toNat + 4) :
    execCrcChkm s = .next (s.raise .bounds s.regs.srcAddr.toNat) :=
  if_pos h

theorem onlyPort_loadExpect (s : State) : OnlyPort [0x038] s s.loadExpect := by
  refine onlyPort_withRegs s _ fun r hr => ?_
  cases r
  case crcExpect => exact absurd (by decide) hr
  all_goals rfl

/-- Settles O28: the load, then the check, which keeps the loaded word. -/
theorem crcChkmComparesWithMemory : Obligations.CrcChkmComparesWithMemory := by
  refine ⟨rfl, fun s => ⟨fun h => ⟨_, execCrcChkm_of_fits h, ?_⟩,
    fun h => ⟨_, execCrcChkm_of_past h, faultTaken_raise s .bounds _⟩⟩⟩
  rw [word_be32Value]
  exact ⟨regRead_crcCheck _ _ rfl (by decide),
    checkVerdict_crcCheck_of_onlyPort _ (onlyPort_loadExpect s) (by decide) rfl rfl,
    (onlyPort_loadExpect s).trans (onlyPort_crcCheck _ _) (by decide)⟩

/-! ## One chunk (R138; 30_encoding.md R110) -/

/-- The state in which `CRC.CHUNK` checks: the chunk's fields are in their registers, type and data are fed,
and `SRC_ADDR` is past the chunk. -/
def State.loadChunk (s : State) (o len : Nat) : State :=
  { s with regs := { s.regs with
    chunkLen := s.be32 o
    chunkType := s.be32 (o + 4)
    crcAcc := crcFeed crcInitial (s.bytesAt (o + 4) (4 + len))
    crcExpect := s.be32 (o + 8 + len)
    srcAddr := word (o + 12 + len) } }

theorem onlyPort_loadChunk (s : State) (o len : Nat) :
    OnlyPort [0x020, 0x030, 0x034, 0x038, 0x044, 0x048] s (s.loadChunk o len) := by
  refine onlyPort_withRegs s _ fun r hr => ?_
  cases r
  case srcAddr | crcAcc | crcResult | crcExpect | chunkLen | chunkType => exact absurd (by decide) hr
  all_goals rfl

/-- `CRC.CHUNK` as the four outcomes of R138, the chunk's length as a number. -/
theorem execCrcChunk_eq (s : State) :
    execCrcChunk s =
      if s.rlim < s.regs.srcAddr.toNat + 8 then .next (s.raise .truncated s.regs.srcAddr.toNat)
      else if 0x7FFFFFFF < s.be32Value s.regs.srcAddr.toNat then
        .next (s.raise .chunkLen s.regs.srcAddr.toNat)
      else if s.rlim < s.regs.srcAddr.toNat + 12 + s.be32Value s.regs.srcAddr.toNat then
        .next (s.raise .truncated s.regs.srcAddr.toNat)
      else .next ((s.loadChunk s.regs.srcAddr.toNat (s.be32Value s.regs.srcAddr.toNat)).crcCheck
        s.regs.srcAddr.toNat) := by
  rw [← State.be32_toNat]
  rfl

theorem execCrcChunk_of_fits {s : State} (hlen : s.be32Value s.regs.srcAddr.toNat ≤ 0x7FFFFFFF)
    (h : s.regs.srcAddr.toNat + 12 + s.be32Value s.regs.srcAddr.toNat ≤ s.rlim) :
    execCrcChunk s = .next
      ((s.loadChunk s.regs.srcAddr.toNat (s.be32Value s.regs.srcAddr.toNat)).crcCheck s.regs.srcAddr.toNat) := by
  rw [execCrcChunk_eq, if_neg (by omega), if_neg (by omega), if_neg (by omega)]

/-- No range within `RLIM` ends past the 32-bit addresses, so `SRC_ADDR` does not wrap. -/
theorem toNat_word_of_le_rlim {s : State} {n : Nat} (h : n ≤ s.rlim) : (word n).toNat = n := by
  have hend : s.rlim ≤ s.regs.inEnd.toNat := Nat.min_le_left _ _
  exact Nat.mod_eq_of_lt (Nat.lt_of_le_of_lt (h.trans hend) s.regs.inEnd.isLt)

/-- The check keeps what `loadChunk` wrote, and its verdict is on that. -/
theorem crcCheck_loadChunk {s t : State} {o len : Nat} (hfits : o + 12 + len ≤ s.rlim)
    (ht : t = (s.loadChunk o len).crcCheck o) :
    t.regRead 0x044 = s.be32 o ∧ t.regRead 0x048 = s.be32 (o + 4) ∧
    t.regRead 0x030 = crcFeed crcInitial (s.bytesAt (o + 4) (4 + len)) ∧
    t.regRead 0x038 = s.be32 (o + 8 + len) ∧ (t.regRead 0x020).toNat = o + 12 + len ∧
    CheckVerdict s t (t.regRead 0x030 ^^^ 0xFFFFFFFF) (s.be32 (o + 8 + len)) o := by
  subst ht
  have hkeep {off : Nat} := regRead_crcCheck (off := off) (s.loadChunk o len) o
  rw [hkeep (off := 0x030) rfl (by decide), hkeep (off := 0x020) rfl (by decide)]
  exact ⟨hkeep rfl (by decide), hkeep rfl (by decide), rfl, hkeep rfl (by decide), toNat_word_of_le_rlim hfits,
    checkVerdict_crcCheck_of_onlyPort o (onlyPort_loadChunk s o len) (by decide) rfl rfl⟩

/-- Settles O29: the writes of `loadChunk`, then the check, which keeps them. -/
theorem crcChunkValidatesOneChunk : Obligations.CrcChunkValidatesOneChunk := by
  rintro s o len rfl rfl hlen hfits
  obtain ⟨hchunkLen, htype, hacc, hexpect, hsrc, hverdict⟩ := crcCheck_loadChunk hfits rfl
  refine ⟨_, execCrcChunk_of_fits hlen hfits, ?_⟩
  simp only [word_be32Value]
  exact ⟨hchunkLen, htype, hacc, hexpect, hsrc, hverdict,
    (onlyPort_loadChunk s _ _).trans (onlyPort_crcCheck _ _) (by decide)⟩

/-- Settles O30: the three tests of `execCrcChunk_eq`, in their order. -/
theorem crcChunkFaultsInOrder : Obligations.CrcChunkFaultsInOrder := by
  rintro s o rfl
  have hexec : exec .crcChunk s = _ := execCrcChunk_eq s
  rw [State.rlim] at hexec
  refine ⟨fun hhead => ⟨_, ?_, faultTaken_raise s .truncated _⟩,
    fun hhead hlen => ⟨_, ?_, faultTaken_raise s .chunkLen _⟩,
    fun hhead hlen hend => ⟨_, ?_, faultTaken_raise s .truncated _⟩⟩
  · exact hexec.trans (if_pos hhead)
  · rw [hexec, if_neg (Nat.not_lt.2 hhead), if_pos hlen]
  · rw [hexec, if_neg (Nat.not_lt.2 hhead), if_neg (Nat.not_lt.2 hlen), if_pos hend]

end Sys2Proof.Machine
end

section
/-! The filter unit (42_filter.md): the Paeth predictor, the one row that `FLT.ROW` reconstructs, its faults,
and what the first row of a pass does not read. -/

namespace Sys2Proof.Machine

/-! ## The Paeth predictor (R154) -/

/-- The predictor's two tests, on distances over the integers. -/
theorem paeth_eq (a b c : Byte) {p : Int} (hp : p = (a.toNat : Int) + b.toNat - c.toNat) :
    paeth a b c =
      if |p - a.toNat| ≤ |p - b.toNat| ∧ |p - a.toNat| ≤ |p - c.toNat| then a
      else if |p - b.toNat| ≤ |p - c.toNat| then b else c := by
  subst hp
  simp only [Int.abs_eq_natAbs, Int.ofNat_le]
  rfl

/-- Settles O34: the predictor's tests are those of the statement, and each branch of them names a nearest
of the three. -/
theorem paethPicksTheFirstNearest : Obligations.PaethPicksTheFirstNearest := by
  intro a b c p hp
  rw [paeth_eq a b c hp]
  refine ⟨fun ha => if_pos ha, fun ha hb => by rw [if_neg ha, if_pos hb],
    fun ha hc => by rw [if_neg ha, if_neg (not_le.2 hc)], ?_⟩
  simp only [List.forall_mem_cons, List.not_mem_nil, false_imp_iff, implies_true, and_true]
  split_ifs with ha hb
  · exact ⟨le_rfl, ha⟩
  · have hba : |p - b.toNat| ≤ |p - a.toNat| := le_of_not_ge fun h => ha ⟨h, h.trans hb⟩
    exact ⟨hba, le_rfl, hb⟩
  · have hcb : |p - c.toNat| ≤ |p - b.toNat| := le_of_not_ge hb
    have hca : |p - c.toNat| ≤ |p - a.toNat| := le_of_not_ge fun h => ha ⟨h.trans hcb, h⟩
    exact ⟨hca, hcb, le_rfl⟩

/-! ## The checks of `FLT.ROW` (R156) -/

/-- The first check of `FLT.ROW` that fails, as its fault and the fault's information. -/
def State.fltRowFault (s : State) : Option (HwFault × Nat) :=
  if s.regs.cfgLegal = false then some (.cfg, 0)
  else if s.regs.passW.toNat = 0 ∨ s.regs.passH.toNat ≤ s.regs.row.toNat then some (.seq, 0)
  else if s.params.maxRowBytes < s.regs.format.rowBytes s.regs.passW.toNat then some (.range, 0)
  else if s.rlim < s.regs.srcAddr.toNat + 1 + s.regs.format.rowBytes s.regs.passW.toNat then
    some (.bounds, s.regs.srcAddr.toNat)
  else if 4 < (s.byteAt s.regs.srcAddr.toNat).toNat then some (.invalidFilter, s.regs.srcAddr.toNat)
  else none

/-- `FLT.ROW` takes the fault of its first failing check, or reconstructs the row. -/
theorem exec_fltRow_eq (s : State) :
    exec .fltRow s =
      .next (match s.fltRowFault with | some (e, info) => s.raise e info | none => s.afterFilter) := by
  have hpassW : s.regs.passW = 0 ↔ s.regs.passW.toNat = 0 := BitVec.toNat_eq
  rw [exec, execFltRow, State.fltRowFault, filterRow_eq]
  simp only [hpassW, Bool.not_eq_true']
  split_ifs <;> rfl

theorem exec_fltRow_of_fault {s : State} {e : HwFault} {info : Nat} (h : s.fltRowFault = some (e, info)) :
    exec .fltRow s = .next (s.raise e info) := by
  rw [exec_fltRow_eq, h]

theorem exec_fltRow_of_noFault {s : State} (h : s.fltRowFault = none) :
    exec .fltRow s = .next s.afterFilter := by
  rw [exec_fltRow_eq, h]

/-- Settles O36: the failing check comes after checks that pass. -/
theorem fltRowFaultsInOrder : Obligations.FltRowFaultsInOrder := by
  rintro s a n rfl rfl hc
  have taken {e : HwFault} {info : Nat} (h : s.fltRowFault = some (e, info)) :
      ∃ t, exec .fltRow s = .next t ∧ FaultTaken s t e.code.toNat info :=
    ⟨_, exec_fltRow_of_fault h, faultTaken_raise s e info⟩
  have hlegal : ¬s.regs.cfgLegal = false := ne_false_of_eq_true hc
  refine ⟨fun hseq => taken (e := .seq) ?_, fun hw hr => ?_⟩
  · rw [State.fltRowFault, if_neg hlegal, if_pos hseq]
  · have hseq : ¬(s.regs.passW.toNat = 0 ∨ s.regs.passH.toNat ≤ s.regs.row.toNat) := by omega
    refine ⟨fun hrange => taken (e := .range) ?_, fun hrange => ⟨fun hend => taken (e := .bounds) ?_,
      fun hend hft => taken (e := .invalidFilter) ?_⟩⟩
    · rw [State.fltRowFault, if_neg hlegal, if_neg hseq, if_pos hrange]
    · rw [State.fltRowFault, if_neg hlegal, if_neg hseq, if_neg (Nat.not_lt.2 hrange), State.rlim, if_pos hend]
    · rw [State.fltRowFault, if_neg hlegal, if_neg hseq, if_neg (Nat.not_lt.2 hrange), State.rlim,
        if_neg (Nat.not_lt.2 hend), if_pos hft]

/-! ## The new row (R152, R153) -/

/-- Byte `i` of the previous row, where there is one. -/
theorem prevRow_getD (s : State) (n i : Nat) (h : i < n) :
    ((if s.regs.status.prevValid then some (s.lineBytes s.regs.status.lsel n) else none).getD []).getD i 0 =
      if s.regs.status.prevValid = true then s.lineAt s.regs.status.lsel i else 0 := by
  split
  · rw [Option.getD_some, List.getD_eq_getElem _ _ (by rwa [State.length_lineBytes]), State.getElem_lineBytes]
  · rfl

/-- Byte `i` of the new row is the reconstruction from its filtered byte and its three neighbours. -/
theorem newRow_getD (s : State) (i : Nat) (h : i < s.regs.format.rowBytes s.regs.passW.toNat) :
    (s.newRow.getD i 0).toNat =
      reconstructed (s.byteAt s.regs.srcAddr.toNat).toNat (s.byteAt (s.regs.srcAddr.toNat + 1 + i))
        (if s.regs.format.filterUnit ≤ i then s.newRow.getD (i - s.regs.format.filterUnit) 0 else 0)
        (if s.regs.status.prevValid = true then s.lineAt s.regs.status.lsel i else 0)
        (if s.regs.format.filterUnit ≤ i ∧ s.regs.status.prevValid = true then
          s.lineAt s.regs.status.lsel (i - s.regs.format.filterUnit) else 0) := by
  have hx : i < (s.bytesAt (s.regs.srcAddr.toNat + 1)
      (s.regs.format.rowBytes s.regs.passW.toNat)).length := by rwa [State.length_bytesAt]
  rw [State.newRow, unfilter_getD _ _ (one_le_filterUnit _) _ _ i hx, reconstructed_eq,
    List.getD_eq_getElem _ _ hx, State.getElem_bytesAt, prevRow_getD s _ i h, prevRow_getD s _ _ (by omega),
    ite_and]

/-! ## What `FLT.ROW` leaves unchanged -/

theorem samePort_afterFilter (s : State) : SamePort [0x004, 0x020, 0x06C, 0x070] s s.afterFilter := by
  refine samePort_of_readReg fun r hr => ?_
  rw [afterFilter_eq]
  cases r
  case status | srcAddr | row | rowAddr => exact absurd (by decide) hr
  all_goals rfl

/-- `FLT.ROW`, faulting or not, writes neither BYTE nor PIX. -/
theorem exec_fltRow_memories {s t : State} (h : exec .fltRow s = .next t) :
    SameBytes s t ∧ SameCells s t ∧ SameRun s t := by
  obtain ⟨hbytes, hcells, -, -, hrun⟩ := commandsWriteOnlyTheirMemories _ s t h
  exact ⟨hbytes (by decide) (by decide), hcells (by decide) (by decide), hrun⟩

/-- Settles O35: the checks pass, the new row is `newRow`, and the counters do not wrap. -/
theorem fltRowReconstructsTheScanline : Obligations.FltRowReconstructsTheScanline := by
  rintro s a n fu rfl rfl rfl hc hw hr hn hend hft
  have hnone : s.fltRowFault = none := by
    rw [State.fltRowFault, if_neg (ne_false_of_eq_true hc), if_neg (by omega), if_neg (by omega), State.rlim,
      if_neg (by omega), if_neg (by omega)]
  have hexec := exec_fltRow_of_noFault hnone
  have hrow : (word (s.regs.row.toNat + 1)).toNat = s.regs.row.toNat + 1 :=
    Nat.mod_eq_of_lt (Nat.lt_of_le_of_lt hr s.regs.passH.isLt)
  refine ⟨s.afterFilter, hexec, fun i hi => ?_, fun i hi => lineAt_afterFilter_old s _ i (.inr hi),
    fun i => lineAt_afterFilter_old s _ i (.inl rfl), rfl, rfl, hrow, toNat_word_of_le_rlim hend,
    samePort_afterFilter s, exec_fltRow_memories hexec⟩
  rw [lineAt_afterFilter_new s i hi, lineAt_afterFilter_new s _ (by omega)]
  exact newRow_getD s i hi

/-! ## The first row of a pass -/

/-- With no previous row the new row does not depend on the line buffers (R152). -/
theorem newRow_withLines {s : State} (m0 m1 : Memory 8) (h : s.regs.status.prevValid = false) :
    State.newRow { s with lb0 := m0, lb1 := m1 } = s.newRow := by
  simp only [State.newRow, h]
  rfl

/-- Settles O37: no check reads the line buffers, and without a previous row neither does the
reconstruction. -/
theorem firstRowIgnoresTheLineBuffers : Obligations.FirstRowIgnoresTheLineBuffers := by
  intro s t u m0 m1 hfirst ht hu
  obtain ⟨htBytes, htCells, htParams, htScript, htLog, htLaunch⟩ := exec_fltRow_memories ht
  obtain ⟨huBytes, huCells, huParams, huScript, huLog, huLaunch⟩ := exec_fltRow_memories hu
  suffices hrow : u.regs = t.regs ∧ (t.regs.status.prevValid = true →
      ∀ i < s.regs.format.rowBytes s.regs.passW.toNat,
        u.lineAt t.regs.status.lsel i = t.lineAt t.regs.status.lsel i) from
    ⟨hrow.1, fun a => (huBytes a).trans (htBytes a).symm, fun i => (huCells i).trans (htCells i).symm,
      ⟨huParams.trans htParams.symm, huScript.trans htScript.symm, huLog.trans htLog.symm,
        huLaunch.trans htLaunch.symm⟩, hrow.2⟩
  have hchecks : State.fltRowFault { s with lb0 := m0, lb1 := m1 } = s.fltRowFault := rfl
  cases hf : s.fltRowFault with
  | some f =>
    obtain ⟨e, info⟩ := f
    cases ht.symm.trans (exec_fltRow_of_fault hf)
    cases hu.symm.trans (exec_fltRow_of_fault (hchecks.trans hf))
    exact ⟨rfl, fun hvalid => absurd (hfirst.symm.trans hvalid) Bool.false_ne_true⟩
  | none =>
    cases ht.symm.trans (exec_fltRow_of_noFault hf)
    cases hu.symm.trans (exec_fltRow_of_noFault (hchecks.trans hf))
    refine ⟨rfl, fun _ i hi => ?_⟩
    calc State.lineAt (State.afterFilter { s with lb0 := m0, lb1 := m1 }) (!s.regs.status.lsel) i
      _ = (State.newRow { s with lb0 := m0, lb1 := m1 }).getD i 0 := lineAt_afterFilter_new _ i hi
      _ = s.newRow.getD i 0 := by rw [newRow_withLines m0 m1 hfirst]
      _ = s.afterFilter.lineAt (!s.regs.status.lsel) i := (lineAt_afterFilter_new s i hi).symm

end Sys2Proof.Machine
end

section
/-! The Adam7 unit (43_adam7.md): the pass dimensions, the partition of the grid into the seven passes, and
the commands `A7.PASS`, `A7.MAP` and `A7.LEN`. -/

namespace Sys2Proof.Machine

/-! ## The pass dimensions (R170, R171) -/

theorem xStart_lt_xStride : ∀ p < 8, xStart p < xStride p := by decide

theorem yStart_lt_yStride : ∀ p < 8, yStart p < yStride p := by decide

/-- A count of the positions `start`, `start + d`, … below `n` is the rounded-up quotient, also when there is
none, because `start` is less than `d`. -/
theorem count_eq_ceil {n start d count : Nat} (hstart : start < d)
    (h : ∀ k, k < count ↔ start + k * d < n) : (count : Int) = ⌈((n : ℚ) - start) / d⌉ := by
  have hd : (0 : ℚ) < d := by exact_mod_cast Nat.zero_lt_of_lt hstart
  have hupper : n ≤ start + count * d := Nat.not_lt.1 fun hlt => Nat.lt_irrefl _ ((h count).2 hlt)
  have hlower : start + count * d < n + d := by
    cases count with
    | zero => omega
    | succ k =>
      have hk := (h k).1 k.lt_succ_self
      rw [Nat.succ_mul]
      omega
  symm
  rw [Int.ceil_eq_iff, lt_div_iff₀ hd, div_le_iff₀ hd]
  have hupper' : (n : ℚ) ≤ start + count * d := by exact_mod_cast hupper
  have hlower' : (start : ℚ) + count * d < n + d := by exact_mod_cast hlower
  push_cast
  constructor <;> linarith

/-- Settles O38: a pass dimension counts the grid columns, or rows, of the pass that are in the image. -/
theorem passDimensionsAreTheCeilings : Obligations.PassDimensionsAreTheCeilings := by
  have hstart : ∀ p < 2, xStart p = 0 ∧ yStart p = 0 := by decide
  refine ⟨by decide, fun p hp n => ⟨?_, ?_⟩, fun n => ⟨passWidth_zero n, passHeight_zero n⟩,
    fun p hp n hn => ⟨?_, ?_⟩⟩
  · exact count_eq_ceil (xStart_lt_xStride p hp) (lt_passWidth_iff p n)
  · exact count_eq_ceil (yStart_lt_yStride p hp) (lt_passHeight_iff p n)
  · rwa [Nat.succ_le_iff, lt_passWidth_iff, gridX, (hstart p hp).1, Nat.zero_mul]
  · rwa [Nat.succ_le_iff, lt_passHeight_iff, gridY, (hstart p hp).2, Nat.zero_mul]

/-! ## The partition of the grid (R175, R178) -/

/-- The pass that the 8 by 8 pattern shows at a grid position. -/
def ownerPass (x y : Nat) : Nat := (ownerPattern.getD (y % 8) []).getD (x % 8) 0

/-- Each place of the pattern is on the grid of the pass it shows. -/
theorem ownerPattern_on_grid : ∀ y < 8, ∀ x < 8,
    (1 ≤ ownerPass x y ∧ ownerPass x y ≤ 7) ∧
    (xStart (ownerPass x y) ≤ x ∧ xStride (ownerPass x y) ∣ x - xStart (ownerPass x y)) ∧
    (yStart (ownerPass x y) ≤ y ∧ yStride (ownerPass x y) ∣ y - yStart (ownerPass x y)) := by decide

/-- The strides divide the size of the pattern. -/
theorem strides_dvd_eight : ∀ p ≤ 7, xStride p ∣ 8 ∧ yStride p ∣ 8 := by decide

theorem ownerPass_mod (x y : Nat) : ownerPass (x % 8) (y % 8) = ownerPass x y := by
  simp only [ownerPass, Nat.mod_mod]

/-- A coordinate is on a grid when its place in the pattern is. -/
theorem exists_index_of_mod {x start d : Nat} (hstart : start ≤ x % 8) (hd : d ∣ x % 8 - start)
    (h8 : d ∣ 8) : ∃ k, x = start + k * d := by
  obtain ⟨k, hk⟩ : d ∣ 8 * (x / 8) + (x % 8 - start) := dvd_add (dvd_mul_of_dvd_left h8 _) hd
  refine ⟨k, ?_⟩
  rw [Nat.mul_comm k, ← hk]
  omega

/-- Every grid position is a pixel of the pass the pattern shows there. -/
theorem exists_pixel_of_ownerPass (x y : Nat) :
    (1 ≤ ownerPass x y ∧ ownerPass x y ≤ 7) ∧
    ∃ col row, x = gridX (ownerPass x y) col ∧ y = gridY (ownerPass x y) row := by
  obtain ⟨hp, ⟨hx, hdx⟩, ⟨hy, hdy⟩⟩ :=
    ownerPattern_on_grid (y % 8) (Nat.mod_lt _ (by decide)) (x % 8) (Nat.mod_lt _ (by decide))
  rw [ownerPass_mod] at hp hx hdx hy hdy
  obtain ⟨h8x, h8y⟩ := strides_dvd_eight _ hp.2
  obtain ⟨col, hcol⟩ := exists_index_of_mod hx hdx h8x
  obtain ⟨row, hrow⟩ := exists_index_of_mod hy hdy h8y
  exact ⟨hp, col, row, hcol, hrow⟩

/-- Settles O39: the position is a pixel of the pass the pattern shows, and of no other pass. -/
theorem passesPartitionTheGrid : Obligations.PassesPartitionTheGrid := by
  refine ⟨fun w h x y hxw hyh => ?_, fun w h p col row _ hcol hrow =>
    ⟨(lt_passWidth_iff p w col).1 hcol, (lt_passHeight_iff p h row).1 hrow⟩⟩
  obtain ⟨⟨h1, h7⟩, col, row, hx, hy⟩ := exists_pixel_of_ownerPass x y
  refine ⟨ownerPass x y, col, row, ⟨h1, h7, ?_, ?_, hx, hy⟩, rfl, fun p' col' row' h1' h7' _ _ hx' hy' => ?_⟩
  · exact (lt_passWidth_iff _ w col).2 (hx ▸ hxw)
  · exact (lt_passHeight_iff _ h row).2 (hy ▸ hyh)
  · have hgx : gridX p' col' = gridX (ownerPass x y) col := hx'.symm.trans hx
    have hgy : gridY p' row' = gridY (ownerPass x y) row := hy'.symm.trans hy
    have hpass : p' = ownerPass x y := grid_pass_eq ⟨h1', h7'⟩ ⟨h1, h7⟩ hgx hgy
    rw [hpass] at hgx hgy
    exact ⟨hpass, gridX_inj hgx, gridY_inj hgy⟩

/-! ## `A7.PASS` (R174) -/

theorem exec_a7Pass_of_legal {s : State} (p : Nat) (hc : s.regs.cfgLegal = true) :
    exec (.a7Pass p) s = .next (s.selectPass p) := by
  rw [exec, execA7Pass, hc]
  rfl

/-- Selecting a pass writes its four registers and `PREV_VALID`. -/
theorem onlyPort_selectPass (s : State) (p : Nat) :
    OnlyPort [0x004, 0x060, 0x064, 0x068, 0x06C] s (s.selectPass p) := by
  refine onlyPort_withRegs s _ fun r hr => ?_
  cases r
  case status | pass | passW | passH | row => exact absurd (by decide) hr
  all_goals rfl

/-- Without a row left in the pass, `FLT.ROW` on a legal format takes `ERR_SEQ` (42_filter.md R156). -/
theorem exec_fltRow_of_noRow {s : State} (hc : s.regs.cfgLegal = true)
    (h : s.regs.passW.toNat = 0 ∨ s.regs.passH.toNat ≤ s.regs.row.toNat) :
    exec .fltRow s = .next (s.raise .seq 0) :=
  exec_fltRow_of_fault (by rw [State.fltRowFault, if_neg (ne_false_of_eq_true hc), if_pos h])

/-- Settles O40: the writes of `selectPass`; an empty pass has no row. -/
theorem a7PassSelectsThePass : Obligations.A7PassSelectsThePass := by
  intro p s hp
  refine ⟨rfl, fun hc => ⟨_, exec_of_not_cfgLegal hc (.inr ⟨p, rfl⟩), faultTaken_raise s .cfg 0⟩,
    fun hc => ⟨s.selectPass p, exec_a7Pass_of_legal p hc, ?_, word_passWidth p _, word_passHeight p _, rfl, rfl,
      onlyPort_selectPass s p, fun hempty => ⟨_, exec_fltRow_of_noRow hc ?_, faultTaken_raise _ .seq 0⟩⟩⟩
  · rw [regRead_pass, State.selectPass_regs, BitVec.toNat_setWidth, BitVec.toNat_ofNat]
    omega
  · rw [State.selectPass_regs, word_passWidth, word_passHeight]
    exact hempty.imp_right Nat.le_zero.2

/-! ## `A7.MAP` (R175, R177) -/

theorem exec_a7Map_of_outside {s : State} (hc : s.regs.cfgLegal = true)
    (h : s.regs.passW.toNat ≤ s.regs.a7Col.toNat ∨ s.regs.passH.toNat ≤ s.regs.a7Row.toNat) :
    exec .a7Map s = .next (s.raise .operand 0) := by
  rw [exec, execA7Map, hc, if_pos h]
  rfl

theorem exec_a7Map_of_inside {s : State} {x y : Nat} (hc : s.regs.cfgLegal = true)
    (hcol : s.regs.a7Col.toNat < s.regs.passW.toNat) (hrow : s.regs.a7Row.toNat < s.regs.passH.toNat)
    (hx : x = gridX s.regs.pass.toNat s.regs.a7Col.toNat)
    (hy : y = gridY s.regs.pass.toNat s.regs.a7Row.toNat) :
    exec .a7Map s =
      if 2 ^ 32 ≤ s.regs.pixIndex x y + 3 then .next (s.raise .range 0)
      else .next { s with regs :=
        { s.regs with mapX := word x, mapY := word y, mapIdx := word (s.regs.pixIndex x y) } } := by
  have hin : ¬(s.regs.passW.toNat ≤ s.regs.a7Col.toNat ∨ s.regs.passH.toNat ≤ s.regs.a7Row.toNat) := by omega
  rw [exec, execA7Map, hc, if_neg hin, hx, hy]
  rfl

theorem onlyPort_map (s : State) (x y i : Word) :
    OnlyPort [0x07C, 0x080, 0x084] s { s with regs := { s.regs with mapX := x, mapY := y, mapIdx := i } } := by
  refine onlyPort_withRegs s _ fun r hr => ?_
  cases r
  case mapX | mapY | mapIdx => exact absurd (by decide) hr
  all_goals rfl

/-- The coordinates of a position are at most its PIX index, in an image with a column. -/
theorem le_pixIndex {r : Regs} (hw : 1 ≤ r.width.toNat) (x y : Nat) :
    x ≤ r.pixIndex x y ∧ y ≤ r.pixIndex x y := by
  have hy : y ≤ y * r.width.toNat := Nat.le_mul_of_pos_right y hw
  unfold Regs.pixIndex
  omega

/-- Settles O41: the three checks in order; a PIX index that fits 32 bits bounds both coordinates. -/
theorem a7MapGivesTheGridPosition : Obligations.A7MapGivesTheGridPosition := by
  refine ⟨rfl, fun s x y hx hy =>
    ⟨fun hc => ⟨_, exec_of_not_cfgLegal hc (.inl (by simp)), faultTaken_raise s .cfg 0⟩,
      fun hc => ⟨fun hout => ⟨_, exec_a7Map_of_outside hc hout, faultTaken_raise s .operand 0⟩,
        fun hcol hrow => ?_⟩⟩⟩
  rw [exec_a7Map_of_inside hc hcol hrow hx hy]
  refine ⟨fun hrange => ⟨_, if_pos hrange, faultTaken_raise s .range 0⟩, fun hfits =>
    ⟨_, if_neg (Nat.not_le.2 hfits), ?_⟩⟩
  obtain ⟨hwidth, -⟩ := (cfgLegal_iff s.regs).1 hc
  obtain ⟨hxi, hyi⟩ := le_pixIndex hwidth x y
  have hidx : s.regs.pixIndex x y < 2 ^ 32 := Nat.lt_of_le_of_lt (Nat.le_add_right _ 3) hfits
  exact ⟨word_toNat (hxi.trans_lt hidx), word_toNat (hyi.trans_lt hidx), word_toNat hidx, onlyPort_map s _ _ _⟩

/-! ## `A7.LEN` (R173, R179) -/

theorem exec_a7Len_of_legal {s : State} (hc : s.regs.cfgLegal = true) :
    exec .a7Len s =
      if 2 ^ 32 ≤ s.regs.expectedLen then .next (s.raise .range 0) else .next s.withExpLen := by
  rw [exec, execA7Len, hc]
  rfl

theorem onlyPort_withExpLen (s : State) : OnlyPort [0x088] s s.withExpLen := by
  refine onlyPort_withRegs s _ fun r hr => ?_
  cases r
  case expLen => exact absurd (by decide) hr
  all_goals rfl

/-- The bytes of a pass as R173 writes them: none when it is empty. -/
theorem passBytes_eq_ite (r : Regs) (p : Nat) :
    r.passBytes p =
      if passWidth p r.width.toNat = 0 ∨ passHeight p r.height.toNat = 0 then 0
      else passHeight p r.height.toNat * (1 + (passWidth p r.width.toNat * r.format.bpp + 7) / 8) := by
  by_cases hempty : passWidth p r.width.toNat = 0 ∨ passHeight p r.height.toNat = 0
  · rw [if_pos hempty, Regs.passBytes, if_neg (by omega)]
  · rw [if_neg hempty, Regs.passBytes, if_pos (by omega)]
    rfl

/-- Settles O42: the two checks, and the sum over the pass list of R173's terms. -/
theorem a7LenGivesTheStreamLength : Obligations.A7LenGivesTheStreamLength := by
  refine ⟨rfl, fun s len hlen =>
    ⟨fun hc => ⟨_, exec_of_not_cfgLegal hc (.inl (by simp)), faultTaken_raise s .cfg 0⟩, fun hc => ?_⟩⟩
  simp only [← passBytes_eq_ite] at hlen
  have hsum : len = s.regs.expectedLen := hlen
  rw [exec_a7Len_of_legal hc, hsum]
  exact ⟨fun hfits => ⟨_, if_neg (Nat.not_le.2 hfits), word_toNat hfits, onlyPort_withExpLen s⟩,
    fun hrange => ⟨_, if_pos hrange, faultTaken_raise s .range 0⟩⟩

end Sys2Proof.Machine
end

section
/-! The pixel unpacker (44_unpack.md): the expansion of grey samples, the pixel of each colour type, and the
row that `PXU.ROW` writes or faults in. -/

namespace Sys2Proof.Machine

/-! ## The expansion of grey samples (R193) -/

/-- Where 255 is a multiple of the greatest sample, the expansion is that multiple of the sample. -/
theorem toNat_expandGrey {v : Channel} {d m : Nat} (hm : (2 ^ d - 1) * m = 255) (hd : 0 < 2 ^ d - 1)
    (hv : v.toNat * m < 2 ^ 16) : (expandGrey v d).toNat = v.toNat * m := by
  rw [expandGrey, ← hm, Nat.mul_left_comm, Nat.mul_div_cancel_left _ hd, BitVec.toNat_ofNat, Nat.mod_eq_of_lt hv]

theorem expandGrey_two_eq_replicated : ∀ n < 4, expandGrey (BitVec.ofNat 16 n) 2 =
    (BitVec.ofNat 16 n <<< 6) ||| (BitVec.ofNat 16 n <<< 4) ||| (BitVec.ofNat 16 n <<< 2) ||| BitVec.ofNat 16 n := by
  decide

theorem expandGrey_four_eq_replicated : ∀ n < 16,
    expandGrey (BitVec.ofNat 16 n) 4 = (BitVec.ofNat 16 n <<< 4) ||| BitVec.ofNat 16 n := by
  decide

/-- Settles O43: 255 is a multiple of 1, 3 and 15, and a sample of depth 2 or 4 has few values. -/
theorem greyExpansionReplicatesBits : Obligations.GreyExpansionReplicatesBits := by
  refine fun v => ⟨fun hv => toNat_expandGrey rfl (by decide) (by omega),
    fun hv => ⟨toNat_expandGrey rfl (by decide) (by omega), ?_⟩,
    fun hv => ⟨toNat_expandGrey rfl (by decide) (by omega), ?_⟩⟩
  · simpa using expandGrey_two_eq_replicated v.toNat hv
  · simpa using expandGrey_four_eq_replicated v.toNat hv

/-! ## The reduction of 16-bit images (R203) -/

/-- One channel as the unpacker writes it, reduced to 8 bits for a 16-bit image under `FORCE32`. -/
def Regs.outChannel (r : Regs) (x : Channel) : Channel :=
  if r.format.bitDepth.toNat = 16 ∧ r.ctrl.force32 = true then x >>> 8 else x

theorem reduce_eq_map (r : Regs) (p : Pixel) : r.reduce p = p.map r.outChannel := by
  simp only [Regs.reduce, Pixel.map, Regs.outChannel]
  split <;> rfl

theorem outChannel_of_depth_ne {r : Regs} (h : r.format.bitDepth.toNat ≠ 16) (x : Channel) :
    r.outChannel x = x :=
  if_neg fun hr => h hr.1

/-- A transparent pixel stays transparent. -/
theorem outChannel_transparent (r : Regs) (c : Prop) [Decidable c] (x : Channel) :
    r.outChannel (if c then 0 else x) = if c then 0 else r.outChannel x := by
  have hzero : r.outChannel 0 = 0 := by simp [Regs.outChannel]
  rw [apply_ite r.outChannel, hzero]

/-! ## The pixel of each colour type (R196 to R200, R204) -/

theorem unpackPixel_eq_map (s : State) (row : List Byte) (k : Nat) :
    unpackPixel s row k = (unpackByType s row k).map (Pixel.map s.regs.outChannel) := by
  rw [unpackPixel, funext (reduce_eq_map s.regs)]

section
variable {s : State} (row : List Byte) (k : Nat)

theorem unpackByType_grey (h : s.regs.format.colorType.toNat = 0) :
    unpackByType s row k = some (unpackGrey s.regs row k) := by
  simp only [unpackByType, h]

theorem unpackByType_rgb (h : s.regs.format.colorType.toNat = 2) :
    unpackByType s row k = some (unpackRgb s.regs row k) := by
  simp only [unpackByType, h]

theorem unpackByType_indexed (h : s.regs.format.colorType.toNat = 3) :
    unpackByType s row k = unpackIndexed s row k := by
  simp only [unpackByType, h]

theorem unpackByType_greyAlpha (h : s.regs.format.colorType.toNat = 4) :
    unpackByType s row k = some (unpackGreyAlpha s.regs row k) := by
  simp only [unpackByType, h]

theorem unpackByType_rgba (h : s.regs.format.colorType.toNat = 6) :
    unpackByType s row k = some (unpackRgba s.regs row k) := by
  simp only [unpackByType, h]

end

/-- An indexed image has no 16-bit samples (R100). -/
theorem depth_ne_of_indexed {f : Format} (hl : f.legalPair = true) (h : f.colorType.toNat = 3) :
    f.bitDepth.toNat ≠ 16 := by
  intro hd
  rw [legalPair_iff, h, hd] at hl
  exact absurd hl (by decide)

/-- The pixel of palette entry `i`: its three bytes and its alpha (R198). -/
def State.palettePixel (s : State) (i : Nat) : Pixel where
  r := ((s.paletteAt i).extractLsb' 16 8).setWidth 16
  g := ((s.paletteAt i).extractLsb' 8 8).setWidth 16
  b := ((s.paletteAt i).extractLsb' 0 8).setWidth 16
  a := (s.alphaOf i).setWidth 16

/-- An index in the palette gives the pixel of its entry: there is no reduction at the depths of type 3. -/
theorem unpackPixel_indexed {s : State} {row : List Byte} {k : Nat} (hl : s.regs.format.legalPair = true)
    (hct : s.regs.format.colorType.toNat = 3)
    (h : (s.regs.format.sample row k 0).toNat < s.regs.plteCount.toNat) :
    unpackPixel s row k = some (s.palettePixel (s.regs.format.sample row k 0).toNat) := by
  have hid : s.regs.outChannel = id := funext (outChannel_of_depth_ne (depth_ne_of_indexed hl hct))
  rw [unpackPixel_eq_map, unpackByType_indexed row k hct, unpackIndexed, if_neg (Nat.not_le.2 h), hid]
  rfl

/-- The three bytes of a palette entry make it up, `R` on top. -/
theorem palettePixel_colour (s : State) (i : Nat) :
    (s.paletteAt i).toNat = (s.palettePixel i).r.toNat * 65536 + (s.palettePixel i).g.toNat * 256 +
      (s.palettePixel i).b.toNat ∧
    (s.palettePixel i).r.toNat < 256 ∧ (s.palettePixel i).g.toNat < 256 ∧ (s.palettePixel i).b.toNat < 256 := by
  have hentry := (s.paletteAt i).isLt
  simp only [State.palettePixel, BitVec.toNat_setWidth, BitVec.extractLsb'_toNat, Nat.shiftRight_eq_div_pow]
  omega

theorem palettePixel_alpha (s : State) (i : Nat) :
    (s.palettePixel i).a.toNat = if i < s.regs.trnsCount.toNat then (s.alphaAt i).toNat else 255 := by
  rw [State.palettePixel, BitVec.toNat_setWidth_of_le (by decide), State.alphaOf, apply_ite BitVec.toNat]
  rfl

/-- Settles O44: the arm of the colour type, each channel reduced alike; an indexed image is not reduced. -/
theorem unpackPixelByColourType : Obligations.UnpackPixelByColourType := by
  intro s row k v amax out hc hv hamax hout
  obtain rfl : v = s.regs.format.sample row k := funext hv
  obtain rfl : amax = s.regs.format.opaqueAlpha := hamax
  obtain rfl : out = s.regs.outChannel := funext hout
  obtain ⟨-, -, hl, -, -⟩ := (cfgLegal_iff s.regs).1 hc
  refine ⟨fun hct g hg => ?_, fun hct => ?_, fun hct => ⟨fun hmiss => ?_, fun hin => ?_⟩, fun hct => ?_,
    fun hct => ?_⟩
  · rw [unpackPixel_eq_map, unpackByType_grey row k hct, hg, ← outChannel_transparent]
    rfl
  · rw [unpackPixel_eq_map, unpackByType_rgb row k hct, ← outChannel_transparent]
    rfl
  · exact (unpackPixel_eq_none_iff s row k).2 ⟨hct, hmiss⟩
  · obtain ⟨hcolour, hr, hg, hb⟩ := palettePixel_colour s (s.regs.format.sample row k 0).toNat
    exact ⟨_, unpackPixel_indexed hl hct hin, hcolour, hr, hg, hb, palettePixel_alpha s _⟩
  · rw [unpackPixel_eq_map, unpackByType_greyAlpha row k hct]
    rfl
  · rw [unpackPixel_eq_map, unpackByType_rgba row k hct]
    rfl

/-! ## The checks of `PXU.ROW` (R205) -/

theorem exec_pxuRow_of_noRow {s : State} (hc : s.regs.cfgLegal = true) (hv : s.regs.status.prevValid = false) :
    exec .pxuRow s = .next (s.raise .seq 0) := by
  rw [exec, execPxuRow, hc, hv]
  rfl

theorem exec_pxuRow_of_tooLarge {s : State} (hc : s.regs.cfgLegal = true)
    (hv : s.regs.status.prevValid = true)
    (hi : s.params.pixSize < 4 * s.regs.width.toNat * s.regs.height.toNat) :
    exec .pxuRow s = .next (s.raise .bounds 0) := by
  rw [exec, execPxuRow, hc, hv, (imageFits_eq_false_iff s).2 hi]
  rfl

section
variable {s : State} (hc : s.regs.cfgLegal = true) (hv : s.regs.status.prevValid = true)
  (hi : 4 * s.regs.width.toNat * s.regs.height.toNat ≤ s.params.pixSize)
include hc hv hi

theorem exec_pxuRow_of_ok {t : State} (h : unpackRow s = .ok t) : exec .pxuRow s = .next t := by
  rw [exec, execPxuRow, hc, hv, (imageFits_iff s).2 hi, h]
  rfl

theorem exec_pxuRow_of_error {k : Nat} (h : unpackRow s = .error k) :
    exec .pxuRow s = .next (s.drawRow.raise .paletteIndexOor (s.regs.indexByteAddr k)) := by
  rw [exec, execPxuRow, hc, hv, (imageFits_iff s).2 hi, h]
  rfl

end

/-! ## The cells and the frame of `PXU.ROW` -/

/-- The four cells of a written pixel, `R` first (20_memory.md R61). -/
theorem rowCell_storePixels (s : State) (pxs : List Pixel) (k : Nat) (hk : k < pxs.length) :
    (s.storePixels 0 pxs).cellAt (s.regs.rowCell k 0) = pxs[k].r ∧
    (s.storePixels 0 pxs).cellAt (s.regs.rowCell k 1) = pxs[k].g ∧
    (s.storePixels 0 pxs).cellAt (s.regs.rowCell k 2) = pxs[k].b ∧
    (s.storePixels 0 pxs).cellAt (s.regs.rowCell k 3) = pxs[k].a := by
  have hcell (c : Nat) (hc : c < 4) :
      pxs[k].cells[c]? = some ((s.storePixels 0 pxs).cellAt (s.regs.rowCell k c)) := by
    rw [cellAt_storePixels s pxs 0 k c hk hc, Nat.zero_add, rowPixIndex_add]
  exact ⟨(Option.some.inj (hcell 0 (by decide))).symm, (Option.some.inj (hcell 1 (by decide))).symm,
    (Option.some.inj (hcell 2 (by decide))).symm, (Option.some.inj (hcell 3 (by decide))).symm⟩

theorem samePort_storePixels (s : State) (k : Nat) (pxs : List Pixel) : SamePort [] s (s.storePixels k pxs) := by
  rw [storePixels_eq]
  exact samePort_of_regs [] rfl (fun _ => rfl) (fun _ => rfl)

theorem samePort_drawRow (s : State) : SamePort [] s s.drawRow := by
  rw [drawRow_eq]
  exact samePort_of_regs [] rfl (fun _ => rfl) (fun _ => rfl)

theorem drawRow_regs (s : State) : s.drawRow.regs = s.regs := by rw [drawRow_eq]

/-- A cell of no pixel of the row stays when the row is drawn. -/
theorem cellAt_drawRow_of_ne {s : State} {i : Nat}
    (h : ∀ j < s.regs.passW.toNat, ∀ c < 4, i ≠ s.regs.rowCell j c) : s.drawRow.cellAt i = s.cellAt i := by
  refine cellAt_drawRowFrom_of_ne s s.draws 0 s.regs.passW.toNat i fun j hj c hcell => ?_
  rw [Nat.zero_add, rowPixIndex_add]
  exact h j hj c hcell

/-- `PXU.ROW`, faulting or not, writes neither BYTE nor a line buffer. -/
theorem exec_pxuRow_memories {s t : State} (h : exec .pxuRow s = .next t) :
    SameBytes s t ∧ SameLines s t ∧ SameRun s t := by
  obtain ⟨hbytes, -, hlines, -, hrun⟩ := commandsWriteOnlyTheirMemories _ s t h
  exact ⟨hbytes (by decide) (by decide), hlines (by decide) (by decide), hrun⟩

/-- A pixel with its index in the palette, if it has one, is unpacked. -/
theorem unpackPixel_ne_none {s : State} {row : List Byte} {k : Nat}
    (h : s.regs.format.colorType.toNat = 3 →
      (s.regs.format.sample row k 0).toNat < s.regs.plteCount.toNat) : unpackPixel s row k ≠ none :=
  Option.ne_none_iff_exists'.2 ((exists_unpackPixel_iff s row k).2 h)

/-- Settles O45: every pixel of the row is unpacked, and only their cells are written. -/
theorem pxuRowWritesTheRowsPixels : Obligations.PxuRowWritesTheRowsPixels := by
  intro s hc hv hi hidx
  obtain ⟨t, ht⟩ := unpackRow_of_forall (s := s) fun k hk => unpackPixel_ne_none fun hct => hidx hct k hk
  have hexec := exec_pxuRow_of_ok hc hv hi ht
  obtain ⟨pxs, rfl, hlen, hpx⟩ := unpackRow_ok ht
  refine ⟨_, hexec, fun k hk => ?_, fun i hout => ?_, samePort_storePixels s 0 pxs, exec_pxuRow_memories hexec⟩
  · have hk' : k < pxs.length := hlen ▸ hk
    exact ⟨pxs[k], hpx k hk', rowCell_storePixels s pxs k hk'⟩
  · refine cellAt_storePixels_of_ne s pxs 0 i fun j hj c hcell => ?_
    rw [Nat.zero_add, rowPixIndex_add]
    exact hout j (hlen ▸ hj) c hcell

/-- Settles O46: the checks in order; the row's cells are drawn before the fault of the first bad index is
taken. -/
theorem pxuRowFaultsInOrder : Obligations.PxuRowFaultsInOrder := by
  refine fun s hc => ⟨fun hv => ⟨_, exec_pxuRow_of_noRow hc hv, faultTaken_raise s .seq 0⟩, fun hv =>
    ⟨fun hi => ⟨_, exec_pxuRow_of_tooLarge hc hv hi, faultTaken_raise s .bounds 0⟩,
      fun hi hct k hk hbad hbefore => ?_⟩⟩
  have hfirst : unpackRow s = .error k :=
    unpackRow_of_first hk ((unpackPixel_eq_none_iff s _ k).2 ⟨hct, hbad⟩)
      fun j hj => unpackPixel_ne_none fun _ => hbefore j hj
  have hexec := exec_pxuRow_of_error hc hv hi hfirst
  obtain ⟨hstatus, hcode, haddr, hport, -, hcells, -⟩ :=
    faultTaken_raise s.drawRow .paletteIndexOor (s.regs.indexByteAddr k)
  refine ⟨_, hexec, ?_, hcode, haddr, fun i hout => ?_, fun off hp hn => ?_, exec_pxuRow_memories hexec⟩
  · rw [hstatus, drawRow_regs]
  · rw [hcells i, cellAt_drawRow_of_ne hout]
  · rw [hport off hp hn, samePort_drawRow s off hp List.not_mem_nil]

end Sys2Proof.Machine
end

section
/-! The pixel packer (45_pack.md): the bytes of each colour type, and the rows that `PXP.ROW` and `PXP.IMG`
write or miss in. -/

namespace Sys2Proof.Machine

/-! ## The pixel of each colour type (R222) -/

/-- One sample by division: the high byte of a 16-bit sample first. -/
theorem sampleBytes_eq (f : Format) (v : Channel) :
    f.sampleBytes v = if f.bitDepth.toNat = 16
      then [BitVec.ofNat 8 (v.toNat / 256), BitVec.ofNat 8 v.toNat] else [BitVec.ofNat 8 v.toNat] := by
  rw [Format.sampleBytes, BitVec.extractLsb', BitVec.extractLsb', Nat.shiftRight_eq_div_pow,
    Nat.shiftRight_zero]

section
variable {s : State} (x y : Nat)

theorem packPixel_grey (h : s.regs.format.colorType.toNat = 0) :
    packPixel s x y = some (s.regs.format.sampleBytes (s.cellAt (s.regs.pixIndex x y))) := by
  simp only [packPixel, h]

theorem packPixel_rgb (h : s.regs.format.colorType.toNat = 2) :
    packPixel s x y = some (s.regs.format.sampleBytes (s.cellAt (s.regs.pixIndex x y)) ++
      s.regs.format.sampleBytes (s.cellAt (s.regs.pixIndex x y + 1)) ++
      s.regs.format.sampleBytes (s.cellAt (s.regs.pixIndex x y + 2))) := by
  simp only [packPixel, h]

theorem packPixel_indexed (h : s.regs.format.colorType.toNat = 3) :
    packPixel s x y = (s.findEntry ((s.cellAt (s.regs.pixIndex x y)).extractLsb' 0 8 ++
      (s.cellAt (s.regs.pixIndex x y + 1)).extractLsb' 0 8 ++
      (s.cellAt (s.regs.pixIndex x y + 2)).extractLsb' 0 8)
      ((s.cellAt (s.regs.pixIndex x y + 3)).extractLsb' 0 8) 0 s.regs.plteCount.toNat).map
        (fun e => [BitVec.ofNat 8 e]) := by
  simp only [packPixel, h]

theorem packPixel_greyAlpha (h : s.regs.format.colorType.toNat = 4) :
    packPixel s x y = some (s.regs.format.sampleBytes (s.cellAt (s.regs.pixIndex x y)) ++
      s.regs.format.sampleBytes (s.cellAt (s.regs.pixIndex x y + 3))) := by
  simp only [packPixel, h]

theorem packPixel_rgba (h : s.regs.format.colorType.toNat = 6) :
    packPixel s x y = some (s.regs.format.sampleBytes (s.cellAt (s.regs.pixIndex x y)) ++
      s.regs.format.sampleBytes (s.cellAt (s.regs.pixIndex x y + 1)) ++
      s.regs.format.sampleBytes (s.cellAt (s.regs.pixIndex x y + 2)) ++
      s.regs.format.sampleBytes (s.cellAt (s.regs.pixIndex x y + 3))) := by
  simp only [packPixel, h]

end

/-! ## The palette entry of a pixel (R222) -/

/-- Palette entry `e` has the colour `rgb` and the alpha `a`. -/
def State.EntryIs (s : State) (rgb : BitVec 24) (a : Byte) (e : Nat) : Prop :=
  s.paletteAt e = rgb ∧ s.alphaOf e = a

/-- The search finds the first entry that matches. -/
theorem findEntry_of_first {s : State} {rgb : BitVec 24} {a : Byte} {n e : Nat} (he : e < n)
    (hit : s.EntryIs rgb a e) (hfirst : ∀ k < e, ¬s.EntryIs rgb a k) : s.findEntry rgb a 0 n = some e := by
  cases hr : s.findEntry rgb a 0 n with
  | none => exact absurd hit (findEntry_none hr e (Nat.zero_le e) (by omega))
  | some e' =>
    obtain ⟨-, -, hcolour, halpha, hbefore⟩ := findEntry_some hr
    rcases Nat.lt_trichotomy e e' with h | h | h
    · exact absurd hit (hbefore e (Nat.zero_le e) h)
    · rw [h]
    · exact absurd ⟨hcolour, halpha⟩ (hfirst e' h)

/-- The search fails when no entry matches. -/
theorem findEntry_of_noMatch {s : State} {rgb : BitVec 24} {a : Byte} {n : Nat}
    (h : ∀ e < n, ¬s.EntryIs rgb a e) : s.findEntry rgb a 0 n = none := by
  cases hr : s.findEntry rgb a 0 n with
  | none => rfl
  | some e =>
    obtain ⟨-, hlt, hcolour, halpha, -⟩ := findEntry_some hr
    exact absurd ⟨hcolour, halpha⟩ (h e (by omega))

/-- Three bytes of a palette entry as a number, `R` on top. -/
theorem toNat_append_three (r g b : Byte) :
    (r ++ g ++ b).toNat = r.toNat * 65536 + g.toNat * 256 + b.toNat := by
  rw [BitVec.toNat_append, ← Nat.shiftLeft_add_eq_or_of_lt b.isLt, Nat.shiftLeft_eq, toNat_append_byte]
  omega

/-- A match in numbers: the low byte of each cell. -/
theorem entryIs_iff (s : State) (r g b a : Channel) (e : Nat) :
    s.EntryIs (r.extractLsb' 0 8 ++ g.extractLsb' 0 8 ++ b.extractLsb' 0 8) (a.extractLsb' 0 8) e ↔
      (s.paletteAt e).toNat = r.toNat % 256 * 65536 + g.toNat % 256 * 256 + b.toNat % 256 ∧
      (if e < s.regs.trnsCount.toNat then s.alphaAt e else 255) = BitVec.ofNat 8 a.toNat := by
  rw [State.EntryIs, ← BitVec.toNat_inj, toNat_append_three]
  rfl

/-- Settles O47: the arm of the colour type; for type 3 the search for the entry. -/
theorem packPixelByColourType : Obligations.PackPixelByColourType := by
  intro s x y c bytes _ hc hbytes
  obtain rfl : c = fun k => s.cellAt (s.regs.pixIndex x y + k) := funext hc
  obtain rfl : bytes = s.regs.format.sampleBytes :=
    funext fun v => (hbytes v).trans (sampleBytes_eq _ v).symm
  refine ⟨packPixel_grey x y, packPixel_rgb x y, packPixel_greyAlpha x y, packPixel_rgba x y,
    fun hct hit hhit => ?_⟩
  obtain rfl : hit = s.EntryIs _ _ := funext fun e => propext ((hhit e).trans (entryIs_iff s _ _ _ _ e).symm)
  rw [packPixel_indexed x y hct]
  refine ⟨fun e he hmatch hfirst => ?_, fun hnone => ?_⟩
  · exact congrArg (Option.map _) (findEntry_of_first he hmatch hfirst)
  · exact congrArg (Option.map _) (findEntry_of_noMatch hnone)

/-! ## The checks of `PXP.ROW` (R223) -/

theorem exec_pxpRow_of_not_packLegal {s : State} (hp : s.regs.packLegal = false) :
    exec .pxpRow s = .next (s.raise .cfg 0) := by
  rw [exec, execPxpRow, hp]
  rfl

theorem exec_pxpRow_of_noRow {s : State} (hp : s.regs.packLegal = true)
    (hy : s.regs.height.toNat ≤ s.regs.pkY.toNat) : exec .pxpRow s = .next (s.raise .operand 0) := by
  rw [exec, execPxpRow, hp, if_pos hy]
  rfl

section
variable {s : State} (hp : s.regs.packLegal = true) (hy : s.regs.pkY.toNat < s.regs.height.toNat)
include hp hy

theorem exec_pxpRow_of_tooLarge (hi : s.params.pixSize < 4 * s.regs.width.toNat * s.regs.height.toNat) :
    exec .pxpRow s = .next (s.raise .bounds 0) := by
  rw [exec, execPxpRow, hp, if_neg (Nat.not_le.2 hy), (imageFits_eq_false_iff s).2 hi]
  rfl

variable (hi : 4 * s.regs.width.toNat * s.regs.height.toNat ≤ s.params.pixSize)
include hi

theorem exec_pxpRow_of_past (hb : s.params.byteSize < s.regs.dstAddr.toNat + s.regs.packedRowBytes) :
    exec .pxpRow s = .next (s.raise .bounds s.regs.dstAddr.toNat) := by
  rw [exec, execPxpRow, hp, if_neg (Nat.not_le.2 hy), (imageFits_iff s).2 hi, if_pos hb]
  rfl

variable (hb : s.regs.dstAddr.toNat + s.regs.packedRowBytes ≤ s.params.byteSize)
include hb

theorem exec_pxpRow_of_ok {u : State} (h : packRow s = .ok u) : exec .pxpRow s = .next u := by
  rw [exec, execPxpRow, hp, if_neg (Nat.not_le.2 hy), (imageFits_iff s).2 hi, if_neg (Nat.not_lt.2 hb), h]
  rfl

theorem exec_pxpRow_of_error {i : Nat} (h : packRow s = .error i) : exec .pxpRow s = .next
    ((s.drawBytes s.regs.dstAddr.toNat s.regs.packedRowBytes).raise .paletteMiss i) := by
  rw [exec, execPxpRow, hp, if_neg (Nat.not_le.2 hy), (imageFits_iff s).2 hi, if_neg (Nat.not_lt.2 hb), h]
  rfl

end

/-! ## What the packing commands leave unchanged -/

/-- `PXP.ROW` and `PXP.IMG`, faulting or not, write neither PIX nor a line buffer. -/
theorem exec_pack_memories {i : Instr} {s t : State} (hi : i = .pxpRow ∨ i = .pxpImg)
    (h : exec i s = .next t) : SameCells s t ∧ SameLines s t ∧ SameRun s t := by
  obtain ⟨-, hcells, hlines, -, hrun⟩ := commandsWriteOnlyTheirMemories i s t h
  rcases hi with rfl | rfl <;> exact ⟨hcells (by decide) (by decide), hlines (by decide) (by decide), hrun⟩

/-- The two pointers are read at their own offsets only. -/
theorem samePort_pointers (s : State) (d k : Word) (m : List Host.Cell) :
    SamePort [0x028, 0x08C] s { s with regs := { s.regs with dstAddr := d, pkY := k }, byteMem := m } := by
  refine samePort_of_readReg fun r hr => ?_
  cases r
  case dstAddr | pkY => exact absurd (by decide) hr
  all_goals rfl

theorem SamePort.trans {offs offs₁ offs₂ : List Nat} {s t u : State} (h₁ : SamePort offs₁ s t)
    (h₂ : SamePort offs₂ t u) (hsub : offs₁ ++ offs₂ ⊆ offs) : SamePort offs s u := by
  intro off hp hn
  have hn₁ : off ∉ offs₁ := fun hm => hn (hsub (List.mem_append_left _ hm))
  have hn₂ : off ∉ offs₂ := fun hm => hn (hsub (List.mem_append_right _ hm))
  exact (h₂ off hp hn₂).trans (h₁ off hp hn₁)

/-- A miss: the fault is taken after free values are drawn for the bytes `a .. a + n - 1` (R223, R226, U3). -/
theorem miss_drawBytes (s : State) (a n i : Nat) {u : State} (hu : u = (s.drawBytes a n).raise .paletteMiss i) :
    u.regs.status = { s.regs.status with err := true } ∧ u.regRead 0x008 = 0x31 ∧ u.regRead 0x00C = word i ∧
      (∀ x, x < a ∨ a + n ≤ x → u.byteAt x = s.byteAt x) ∧ SamePort [0x004, 0x008, 0x00C] s u := by
  subst hu
  obtain ⟨hstatus, hcode, haddr, hport, -⟩ := faultTaken_raise (s.drawBytes a n) .paletteMiss i
  exact ⟨hstatus, hcode, haddr, s.byteAt_drawBytes a n, hport⟩

/-! ## The row of `PXP.ROW` -/

theorem packRow_of_forall {s : State} (h : ∀ x < s.regs.width.toNat, packPixel s x s.regs.pkY.toNat ≠ none) :
    ∃ u, packRow s = .ok u := by
  obtain ⟨out, hout⟩ := packFrom_of_forall h
  exact ⟨_, by rw [packRow, hout]⟩

theorem packRow_of_first {s : State} (hp : s.regs.packLegal = true) {x : Nat} (hx : x < s.regs.width.toNat)
    (hmiss : packPixel s x s.regs.pkY.toNat = none)
    (hbefore : ∀ x' < x, packPixel s x' s.regs.pkY.toNat ≠ none) :
    packRow s = .error (s.regs.pixIndex x s.regs.pkY.toNat) := by
  rw [packRow, packFrom_of_first hp hx hmiss hbefore]

theorem filterBytes_eq_one_iff (r : Regs) : r.filterBytes = 1 ↔ r.ctrl.pkFb = true := by
  simp [Regs.filterBytes]

theorem byteSize_lt_of_legal {p : Params} (h : p.legal = true) : p.byteSize < 2 ^ 32 := by
  simp only [Params.legal, Bool.and_eq_true, decide_eq_true_eq] at h
  exact h.1.1.2

/-- Settles O48: every pixel of the row has its bytes, and the row is stored at the pointer. -/
theorem pxpRowWritesThePackedRow : Obligations.PxpRowWritesThePackedRow := by
  intro s t fb b w hl hp ht hfb hb hw hy hi hfits hpx
  obtain rfl : fb = s.regs.filterBytes := hfb
  obtain rfl : b = s.regs.format.pixelBytes := hb
  subst ht hw
  rw [Nat.add_assoc, ← packedRowBytes_eq hp] at hfits ⊢
  have hsize := byteSize_lt_of_legal hl
  obtain ⟨u, hu⟩ := packRow_of_forall hpx
  have hexec := exec_pxpRow_of_ok hp hy hi hfits hu
  obtain ⟨hframe, ⟨hfilter, hrow⟩, hout, -, -⟩ := packRow_ok hp hu
  refine ⟨u, hexec, fun h1 => hfilter ((filterBytes_eq_one_iff _).1 h1), fun x hx => ?_, hout, ?_, ?_, ?_,
    exec_pack_memories (.inl rfl) hexec⟩
  · obtain ⟨bs, hbs, hbytes⟩ := hrow x hx
    exact ⟨bs, hbs, length_packPixel hp hbs, hbytes⟩
  · rw [hframe]
    exact word_toNat (by omega)
  · rw [hframe]
    exact word_toNat (by omega)
  · rw [hframe]
    exact samePort_pointers s _ _ _

/-- Settles O49: the checks in order; the row's bytes are drawn before the fault of the first miss is taken. -/
theorem pxpRowFaultsInOrder : Obligations.PxpRowFaultsInOrder := by
  intro s t n ht hn
  obtain rfl : n = s.regs.packedRowBytes := hn
  subst ht
  refine ⟨fun hp => ⟨_, exec_pxpRow_of_not_packLegal hp, faultTaken_raise s .cfg 0⟩, fun hp =>
    ⟨fun hy => ⟨_, exec_pxpRow_of_noRow hp hy, faultTaken_raise s .operand 0⟩, fun hy =>
      ⟨fun hi => ⟨_, exec_pxpRow_of_tooLarge hp hy hi, faultTaken_raise s .bounds 0⟩, fun hi =>
        ⟨fun hb => ⟨_, exec_pxpRow_of_past hp hy hi hb, faultTaken_raise s .bounds _⟩,
          fun hb x hx hmiss hbefore => ?_⟩⟩⟩⟩
  have hexec := exec_pxpRow_of_error hp hy hi hb (packRow_of_first hp hx hmiss hbefore)
  obtain ⟨hstatus, hcode, haddr, hout, hport⟩ := miss_drawBytes s _ _ _ rfl
  exact ⟨_, hexec, hstatus, hcode, haddr, hout, hport, exec_pack_memories (.inl rfl) hexec⟩

/-! ## The checks of `PXP.IMG` (R226) -/

/-- `s` as the loop of `PXP.IMG` starts in it. -/
def State.atFirstRow (s : State) : State := { s with regs := { s.regs with pkY := 0 } }

theorem exec_pxpImg_of_not_packLegal {s : State} (hp : s.regs.packLegal = false) :
    exec .pxpImg s = .next (s.raise .cfg 0) := by
  rw [exec, execPxpImg, hp]
  rfl

section
variable {s : State} (hp : s.regs.packLegal = true)
include hp

theorem exec_pxpImg_of_tooLarge (hi : s.params.pixSize < 4 * s.regs.width.toNat * s.regs.height.toNat) :
    exec .pxpImg s = .next (s.raise .bounds 0) := by
  rw [exec, execPxpImg, hp, (imageFits_eq_false_iff s).2 hi]
  rfl

variable (hi : 4 * s.regs.width.toNat * s.regs.height.toNat ≤ s.params.pixSize)
include hi

theorem exec_pxpImg_of_past
    (hb : s.params.byteSize < s.regs.dstAddr.toNat + s.regs.height.toNat * s.regs.packedRowBytes) :
    exec .pxpImg s = .next (s.raise .bounds s.regs.dstAddr.toNat) := by
  rw [exec, execPxpImg, hp, (imageFits_iff s).2 hi, if_pos hb]
  rfl

variable (hb : s.regs.dstAddr.toNat + s.regs.height.toNat * s.regs.packedRowBytes ≤ s.params.byteSize)
include hb

theorem exec_pxpImg_of_ok {u : State} (h : packRows s.atFirstRow s.regs.height.toNat = .ok u) :
    exec .pxpImg s = .next u := by
  unfold State.atFirstRow at h
  rw [exec, execPxpImg, hp, (imageFits_iff s).2 hi, if_neg (Nat.not_lt.2 hb), h]
  rfl

theorem exec_pxpImg_of_error {u : State} {i : Nat}
    (h : packRows s.atFirstRow s.regs.height.toNat = .error (u, i)) :
    exec .pxpImg s = .next ((u.drawBytes u.regs.dstAddr.toNat (s.regs.dstAddr.toNat +
      s.regs.height.toNat * s.regs.packedRowBytes - u.regs.dstAddr.toNat)).raise .paletteMiss i) := by
  unfold State.atFirstRow at h
  rw [exec, execPxpImg, hp, (imageFits_iff s).2 hi, if_neg (Nat.not_lt.2 hb), h]
  rfl

end

/-! ## The rows of `PXP.IMG` -/

/-- A packed row holds no miss. -/
theorem State.PackedTo.packPixel_ne_none {s u : State} {n x y : Nat} (h : s.PackedTo n u) (hy : y < n)
    (hx : x < s.regs.width.toNat) : packPixel s x y ≠ none := by
  obtain ⟨bs, hbs, -⟩ := (h.rows y hy).2 x hx
  exact Option.ne_none_iff_exists'.2 ⟨bs, hbs⟩

section
variable {s : State} (hl : s.params.legal = true) (hp : s.regs.packLegal = true)
  (hb : s.regs.dstAddr.toNat + s.regs.height.toNat * s.regs.packedRowBytes ≤ s.params.byteSize)
include hl hp hb

/-- All rows are packed, or the loop stops at the first row with a miss, the rows before it packed. -/
theorem packRows_atFirstRow_cases :
    (∃ u, packRows s.atFirstRow s.regs.height.toNat = .ok u ∧ s.PackedTo s.regs.height.toNat u) ∨
    ∃ y x u, y < s.regs.height.toNat ∧ x < s.regs.width.toNat ∧
      packRows s.atFirstRow s.regs.height.toNat = .error (u, s.regs.pixIndex x y) ∧ s.PackedTo y u ∧
      packPixel s x y = none ∧ ∀ x' < x, packPixel s x' y ≠ none := by
  have hsize := byteSize_lt_of_legal hl
  have hh := s.regs.height.isLt
  have hcases := packRows_cases (n := s.regs.height.toNat) hp (by rw [Nat.zero_add]; omega) (by omega)
    (packedTo_start s)
  rw [Nat.zero_add] at hcases
  rcases hcases with hall | ⟨y, x, u, -, hy, hx, hrun, hmiss⟩
  · exact .inl hall
  · exact .inr ⟨y, x, u, hy, hx, hrun, hmiss⟩

theorem packRows_of_forall
    (h : ∀ y < s.regs.height.toNat, ∀ x < s.regs.width.toNat, packPixel s x y ≠ none) :
    ∃ u, packRows s.atFirstRow s.regs.height.toNat = .ok u ∧ s.PackedTo s.regs.height.toNat u := by
  rcases packRows_atFirstRow_cases hl hp hb with hall | ⟨y, x, -, hy, hx, -, -, hmiss, -⟩
  · exact hall
  · exact absurd hmiss (h y hy x hx)

/-- The loop stops at the first miss in row-major order. -/
theorem packRows_of_first {x y : Nat} (hy : y < s.regs.height.toNat) (hx : x < s.regs.width.toNat)
    (hmiss : packPixel s x y = none)
    (hbefore : ∀ y' < s.regs.height.toNat, ∀ x' < s.regs.width.toNat,
      y' < y ∨ (y' = y ∧ x' < x) → packPixel s x' y' ≠ none) :
    ∃ u, packRows s.atFirstRow s.regs.height.toNat = .error (u, s.regs.pixIndex x y) ∧ s.PackedTo y u := by
  rcases packRows_atFirstRow_cases hl hp hb with
    ⟨u, -, hall⟩ | ⟨y', x', u, hy', hx', hrun, hrows, hmiss', hbefore'⟩
  · exact absurd hmiss (hall.packPixel_ne_none hy hx)
  · rcases Nat.lt_trichotomy y' y with h | rfl | h
    · exact absurd hmiss' (hbefore y' hy' x' hx' (.inl h))
    · rcases Nat.lt_trichotomy x' x with h | rfl | h
      · exact absurd hmiss' (hbefore y' hy' x' hx' (.inr ⟨rfl, h⟩))
      · exact ⟨u, hrun, hrows⟩
      · exact absurd hmiss (hbefore' x h)
    · exact absurd hmiss (hrows.packPixel_ne_none h hx)

end

theorem State.PackedTo.dstAddr_toNat {s u : State} {y : Nat} (h : s.PackedTo y u)
    (hend : s.regs.dstAddr.toNat + y * s.regs.packedRowBytes < 2 ^ 32) :
    u.regs.dstAddr.toNat = s.regs.dstAddr.toNat + y * s.regs.packedRowBytes := by
  rw [h.frame]
  exact word_toNat hend

theorem State.PackedTo.pkY_toNat {s u : State} {y : Nat} (h : s.PackedTo y u) (hy : y < 2 ^ 32) :
    u.regs.pkY.toNat = y := by
  rw [h.frame]
  exact word_toNat hy

theorem State.PackedTo.samePort {s u : State} {y : Nat} (h : s.PackedTo y u) : SamePort [0x028, 0x08C] s u := by
  rw [h.frame]
  exact samePort_pointers s _ _ _

/-- A packed row depends on its own bytes only. -/
theorem State.RowPacked.of_bytes {s t u : State} {y a : Nat} (hp : s.regs.packLegal = true)
    (h : s.RowPacked y a t)
    (hbytes : ∀ i, a ≤ i → i < a + s.regs.packedRowBytes → u.byteAt i = t.byteAt i) : s.RowPacked y a u := by
  obtain ⟨hfilter, hrow⟩ := h
  rw [packedRowBytes_eq hp] at hbytes
  refine ⟨fun hfb => ?_, fun x hx => ?_⟩
  · have h1 := (filterBytes_eq_one_iff s.regs).2 hfb
    rw [hbytes a le_rfl (by omega), hfilter hfb]
  · obtain ⟨bs, hbs, hread⟩ := hrow x hx
    refine ⟨bs, hbs, fun j hj => ?_⟩
    have hend : (x + 1) * s.regs.format.pixelBytes ≤ s.regs.width.toNat * s.regs.format.pixelBytes :=
      Nat.mul_le_mul_right _ hx
    rw [Nat.succ_mul] at hend
    rw [hread j hj, hbytes _ (by omega) (by omega)]

/-- Settles O50: the loop packs every row, and its pointers are past them. -/
theorem pxpImgWritesEveryRow : Obligations.PxpImgWritesEveryRow := by
  intro s t fb b w h hl hp ht hfb hb hw hh hi hfits hpx
  obtain rfl : fb = s.regs.filterBytes := hfb
  obtain rfl : b = s.regs.format.pixelBytes := hb
  subst ht hw hh
  rw [← packedRowBytes_eq hp] at hfits ⊢
  have hsize := byteSize_lt_of_legal hl
  obtain ⟨u, hu, hpacked⟩ := packRows_of_forall hl hp hfits hpx
  have hexec := exec_pxpImg_of_ok hp hi hfits hu
  refine ⟨u, hexec, fun y hy => ?_, hpacked.outside, hpacked.dstAddr_toNat (by omega),
    hpacked.pkY_toNat s.regs.height.isLt, hpacked.samePort, exec_pack_memories (.inr rfl) hexec⟩
  obtain ⟨hfilter, hrow⟩ := hpacked.rows y hy
  refine ⟨fun h1 => hfilter ((filterBytes_eq_one_iff _).1 h1), fun x hx => ?_⟩
  obtain ⟨bs, hbs, hbytes⟩ := hrow x hx
  exact ⟨bs, hbs, length_packPixel hp hbs, hbytes⟩

/-- Settles O51: the checks in order; the first miss stops the loop, and only bytes from its row on are
drawn. -/
theorem pxpImgFaultsInOrder : Obligations.PxpImgFaultsInOrder := by
  intro s t fb b w h ht hfb hb hw hh
  obtain rfl : fb = s.regs.filterBytes := hfb
  obtain rfl : b = s.regs.format.pixelBytes := hb
  subst ht hw hh
  refine ⟨fun hp => ⟨_, exec_pxpImg_of_not_packLegal hp, faultTaken_raise s .cfg 0⟩, fun hp => ?_⟩
  rw [← packedRowBytes_eq hp]
  refine ⟨fun hi => ⟨_, exec_pxpImg_of_tooLarge hp hi, faultTaken_raise s .bounds 0⟩, fun hi =>
    ⟨fun hpast => ⟨_, exec_pxpImg_of_past hp hi hpast, faultTaken_raise s .bounds _⟩,
      fun hfits hl y hy x hx hmiss hbefore => ?_⟩⟩
  have hsize := byteSize_lt_of_legal hl
  have hyrows : y * s.regs.packedRowBytes ≤ s.regs.height.toNat * s.regs.packedRowBytes :=
    Nat.mul_le_mul_right _ hy.le
  obtain ⟨u, hu, hpacked⟩ := packRows_of_first hl hp hfits hy hx hmiss hbefore
  have hexec := exec_pxpImg_of_error hp hi hfits hu
  have hdst := hpacked.dstAddr_toNat (by omega)
  rw [hdst] at hexec
  obtain ⟨hstatus, hcode, haddr, hout, hport⟩ := miss_drawBytes u _ _ _ rfl
  refine ⟨_, hexec, ?_, hcode, haddr, hpacked.pkY_toNat (by omega), hdst, fun y' hy' => ?_, fun a ha => ?_,
    hpacked.samePort.trans hport (by decide), exec_pack_memories (.inr rfl) hexec⟩
  · rw [hstatus, hpacked.frame]
  · have hend : (y' + 1) * s.regs.packedRowBytes ≤ y * s.regs.packedRowBytes := Nat.mul_le_mul_right _ hy'
    rw [Nat.succ_mul] at hend
    obtain ⟨hfilter, hread⟩ :=
      (hpacked.rows y' hy').of_bytes hp fun i _ hi => hout i (.inl (by omega))
    exact ⟨fun h1 => hfilter ((filterBytes_eq_one_iff _).1 h1), hread⟩
  · rw [hout a (by omega), hpacked.outside a (by omega)]

end Sys2Proof.Machine
end

section
/-! An image of colour type 6, packed by `PXP.IMG` and decoded again by `DEC.IMG` (45_pack.md R222,
95_test_vectors.md invariant 4): the packed rows are a stream with filter type None. -/

namespace Sys2Proof.Machine

/-! ## The bytes of a packed pixel and the samples read from them -/

/-- Colour type 6 has an arm without a search, so no pixel misses. -/
theorem packPixel_rgba_ne_none {s : State} (hct : s.regs.format.colorType.toNat = 6) (x y : Nat) :
    packPixel s x y ≠ none := by
  rw [packPixel_rgba x y hct]
  exact Option.some_ne_none _

theorem channels_rgba {f : Format} (hct : f.colorType.toNat = 6) : f.channels = 4 := by
  simp only [Format.channels, hct]

/-- At depth 8 byte `c` of a packed pixel is the low byte of its cell `c`. -/
theorem packPixel_rgba_byte {s : State} {x y : Nat} {bs : List Byte}
    (hct : s.regs.format.colorType.toNat = 6) (hd : s.regs.format.bitDepth.toNat = 8)
    (hbs : packPixel s x y = some bs) {c : Nat} (hc : c < 4) :
    bs[c]? = some ((s.cellAt (s.regs.pixIndex x y + c)).extractLsb' 0 8) := by
  rw [packPixel_rgba x y hct] at hbs
  obtain rfl := Option.some.inj hbs
  have hone (v : Channel) : s.regs.format.sampleBytes v = [v.extractLsb' 0 8] := by simp [Format.sampleBytes, hd]
  simp only [hone]
  interval_cases c <;> rfl

/-- At depth 16 bytes `2c` and `2c + 1` of a packed pixel are those of its cell `c`, the high one first. -/
theorem packPixel_rgba_word {s : State} {x y : Nat} {bs : List Byte}
    (hct : s.regs.format.colorType.toNat = 6) (hd : s.regs.format.bitDepth.toNat = 16)
    (hbs : packPixel s x y = some bs) {c : Nat} (hc : c < 4) :
    bs[2 * c]? = some ((s.cellAt (s.regs.pixIndex x y + c)).extractLsb' 8 8) ∧
    bs[2 * c + 1]? = some ((s.cellAt (s.regs.pixIndex x y + c)).extractLsb' 0 8) := by
  rw [packPixel_rgba x y hct] at hbs
  obtain rfl := Option.some.inj hbs
  have htwo (v : Channel) : s.regs.format.sampleBytes v = [v.extractLsb' 8 8, v.extractLsb' 0 8] := by
    simp [Format.sampleBytes, hd]
  simp only [htwo]
  interval_cases c <;> exact ⟨rfl, rfl⟩

theorem setWidth_low_byte {v : Channel} (hv : v.toNat < 256) : (v.extractLsb' 0 8).setWidth 16 = v := by
  apply BitVec.eq_of_toNat_eq
  simp only [BitVec.toNat_setWidth, BitVec.extractLsb'_toNat, Nat.shiftRight_zero]
  omega

theorem append_high_low_byte (v : Channel) : (v.extractLsb' 8 8 ++ v.extractLsb' 0 8 : Channel) = v := by
  apply BitVec.eq_of_toNat_eq
  rw [toNat_append_byte, BitVec.extractLsb'_toNat, BitVec.extractLsb'_toNat, Nat.shiftRight_eq_div_pow]
  omega

theorem depth_of_packLegal {r : Regs} (h : r.packLegal = true) :
    r.format.bitDepth.toNat = 8 ∨ r.format.bitDepth.toNat = 16 := by
  simp only [Regs.packLegal, Bool.and_eq_true, Bool.or_eq_true, decide_eq_true_eq] at h
  exact h.2

/-- Sample `c` of a row that holds the packed bytes of pixel `x` is cell `c` of the pixel. -/
theorem sample_of_packPixel_rgba {s : State} {x y : Nat} {bs row : List Byte} (hp : s.regs.packLegal = true)
    (hct : s.regs.format.colorType.toNat = 6) (hbs : packPixel s x y = some bs)
    (hrow : ∀ j < s.regs.format.pixelBytes, bs[j]? = some (rowByte row (x * s.regs.format.pixelBytes + j)))
    {c : Nat} (hc : c < 4)
    (hv : s.regs.format.bitDepth.toNat = 8 → (s.cellAt (s.regs.pixIndex x y + c)).toNat < 256) :
    s.regs.format.sample row x c = s.cellAt (s.regs.pixIndex x y + c) := by
  have hchan := channels_rgba hct
  have hbytes := bpp_of_packLegal hp
  rw [Format.bpp, hchan] at hbytes
  rcases depth_of_packLegal hp with hd | hd
  · have hb : s.regs.format.pixelBytes = 4 := by omega
    rw [hb] at hrow
    have hbyte := Option.some.inj ((packPixel_rgba_byte hct hd hbs hc).symm.trans (hrow c hc))
    rw [sample_byte row x c hd, hchan, ← hbyte, setWidth_low_byte (hv hd)]
  · have hb : s.regs.format.pixelBytes = 8 := by omega
    rw [hb] at hrow
    obtain ⟨hhigh, hlow⟩ := packPixel_rgba_word hct hd hbs hc
    have hhi := Option.some.inj (hhigh.symm.trans (hrow (2 * c) (by omega)))
    have hlo := Option.some.inj (hlow.symm.trans (hrow (2 * c + 1) (by omega)))
    have hindex : 2 * (x * 4 + c) = x * 8 + 2 * c := by omega
    rw [sample_word row x c hd, hchan, hindex, Nat.add_assoc, ← hhi, ← hlo, append_high_low_byte]

/-! ## The pixel read from four samples -/

/-- A channel is not reduced at depth 8, nor at depth 16 without `FORCE32` (R203). -/
theorem outChannel_of_not_force32 {r : Regs} (h : r.format.bitDepth.toNat = 16 → r.ctrl.force32 = false)
    (x : Channel) : r.outChannel x = x :=
  if_neg fun ⟨hd, hforce⟩ => Bool.false_ne_true ((h hd).symm.trans hforce)

/-- The cells of an unpacked pixel of colour type 6 are its four samples (R200). -/
theorem unpackPixel_rgba_cells {s : State} {row : List Byte} {k c : Nat} {px : Pixel}
    (hct : s.regs.format.colorType.toNat = 6)
    (hforce : s.regs.format.bitDepth.toNat = 16 → s.regs.ctrl.force32 = false)
    (hpx : unpackPixel s row k = some px) (hc : c < 4) :
    px.cells[c]? = some (s.regs.format.sample row k c) := by
  have hid : s.regs.outChannel = id := funext (outChannel_of_not_force32 hforce)
  rw [unpackPixel_eq_map, unpackByType_rgba row k hct, hid] at hpx
  obtain rfl := Option.some.inj hpx
  interval_cases c <;> rfl

/-! ## The stream of an image that is not interlaced: pass 0 is the whole image -/

theorem passRows_zero {r : Regs} (hc : r.cfgLegal = true) : r.passRows 0 = r.height.toNat := by
  obtain ⟨hw, hh, -⟩ := (cfgLegal_iff r).1 hc
  rw [Regs.passRows, passWidth_zero, passHeight_zero, if_pos ⟨hw, hh⟩]

section
variable {r : Regs} (hplain : r.format.interlace = false)
include hplain

theorem passes_of_plain : r.format.passes = [0] := by
  rw [Format.passes, hplain]
  rfl

theorem mem_passes_of_plain {p : Nat} : p ∈ r.format.passes ↔ p = 0 := by
  rw [passes_of_plain hplain, List.mem_singleton]

theorem scanlineAddr_of_plain (y : Nat) :
    r.scanlineAddr 0 y = r.srcAddr.toNat + y * (1 + r.format.rowBytes r.width.toNat) := by
  simp [Regs.scanlineAddr, passes_of_plain hplain]

theorem expectedLen_of_plain (hc : r.cfgLegal = true) :
    r.expectedLen = r.height.toNat * (1 + r.format.rowBytes r.width.toNat) := by
  rw [Regs.expectedLen, passes_of_plain hplain, List.map_singleton, List.sum_singleton, passBytes_eq,
    passRows_zero hc, Regs.scanBytes, passWidth_zero]

end

theorem decodeChecksPass_of_plain {s : State} (hplain : s.regs.format.interlace = false)
    (hc : s.regs.cfgLegal = true)
    (hi : 4 * s.regs.width.toNat * s.regs.height.toNat ≤ s.params.pixSize)
    (hmax : s.regs.format.rowBytes s.regs.width.toNat ≤ s.params.maxRowBytes)
    (hlen : s.regs.srcLen.toNat = s.regs.height.toNat * (1 + s.regs.format.rowBytes s.regs.width.toNat))
    (hview : s.regs.srcAddr.toNat + s.regs.srcLen.toNat ≤ s.rlim) : s.DecodeChecksPass := by
  have hlen' := hlen.trans (expectedLen_of_plain hplain hc).symm
  refine ⟨hc, hlen' ▸ s.regs.srcLen.isLt, fun p hp _ => ?_, hlen', hlen' ▸ hview, hi⟩
  rw [(mem_passes_of_plain hplain).1 hp, passWidth_zero]
  exact hmax

/-! ## A stream that raises nothing -/

theorem pixelDone_withExpLen (s : State) (p row col : Nat) (t : State) :
    s.withExpLen.PixelDone p row col t ↔ s.PixelDone p row col t := by
  unfold State.PixelDone
  rw [streamRow_withExpLen, unpackPixel_congr (s := s) (t := s.withExpLen) _ col rfl rfl rfl rfl rfl rfl rfl
    (fun _ => rfl) (fun _ => rfl)]
  rfl

/-- On a stream in which every scanline is valid `DEC.IMG` ends its loop with every pixel written. -/
theorem exec_decImg_of_valid {s : State} (hs : s.DecodeChecksPass)
    (hvalid : ∀ p ∈ s.regs.format.passes, ∀ row < s.regs.passRows p, s.ScanlineValid p row) :
    ∃ t, exec .decImg s = .next t ∧ t.halted = s.halted ∧
      ∀ p ∈ s.regs.format.passes, ∀ row < s.regs.passRows p, ∀ col < passWidth p s.regs.width.toNat,
        s.PixelDone p row col t := by
  rcases decodePasses_all hs.withExpLen with
    ⟨t, -, -, hrun, hpasses, -, hpixels, -⟩ | ⟨_, -, done, rest, p, row, v, hl, hrow, -, hfault⟩
  · refine ⟨t, (execDecImg_of_checks hs).trans ?_, ?_, fun p hp row hrow col hcol =>
      (pixelDone_withExpLen s p row col t).1 (hpixels p hp row hrow col hcol (.inl hp))⟩
    · rw [show s.regs.format = s.withExpLen.regs.format from rfl, hrun]
    · rw [State.halted, hpasses.frame]
      rfl
  · exact absurd ((scanlineValid_withExpLen s p row).2 (hvalid p (mem_passes hl) row hrow))
      (State.not_scanlineValid_of_fault hl hfault)

/-! ## The packed image as a stream -/

/-- `d` has the format and the options of `s`, and the image of `s` stands packed at its `SRC_ADDR`. -/
structure State.CarriesImage (s d : State) : Prop where
  format : d.regs.format = s.regs.format
  width : d.regs.width = s.regs.width
  height : d.regs.height = s.regs.height
  ctrl : d.regs.ctrl = s.regs.ctrl
  rows : ∀ y < s.regs.height.toNat, s.RowPacked y (d.regs.srcAddr.toNat + y * s.regs.packedRowBytes) d

theorem packedRowBytes_of_pkFb {r : Regs} (h : r.ctrl.pkFb = true) :
    r.packedRowBytes = 1 + r.format.rowBytes r.width.toNat := by
  rw [Regs.packedRowBytes, (filterBytes_eq_one_iff r).2 h]

theorem rowByte_bytesAt (s : State) (a : Nat) {n i : Nat} (h : i < n) :
    rowByte (s.bytesAt a n) i = s.byteAt (a + i) := by
  rw [rowByte, List.getD_eq_getElem _ _ (by rwa [State.length_bytesAt]), State.getElem_bytesAt]

section
variable {s d : State} (hd : s.CarriesImage d) (hplain : s.regs.format.interlace = false)
  (hfb : s.regs.ctrl.pkFb = true) {y : Nat}
include hd hplain hfb

/-- The scanlines lie where the packed rows do. -/
theorem State.CarriesImage.scanlineAddr_eq :
    d.regs.scanlineAddr 0 y = d.regs.srcAddr.toNat + y * s.regs.packedRowBytes := by
  rw [scanlineAddr_of_plain (hd.format ▸ hplain), packedRowBytes_of_pkFb hfb, hd.format, hd.width]

variable (hy : y < s.regs.height.toNat)
include hy

theorem State.CarriesImage.filterByte : d.byteAt (d.regs.scanlineAddr 0 y) = 0 := by
  rw [hd.scanlineAddr_eq hplain hfb]
  exact (hd.rows y hy).1 hfb

/-- The filter type is None, so a row is reconstructed as it was packed. -/
theorem State.CarriesImage.streamRow_eq :
    d.streamRow 0 y =
      d.bytesAt (d.regs.scanlineAddr 0 y + 1) (s.regs.format.rowBytes s.regs.width.toNat) := by
  rw [Machine.streamRow_eq, hd.filterByte hplain hfb hy, passWidth_zero, hd.format, hd.width]
  exact unfilter_none _ _ _

theorem State.CarriesImage.scanlineValid (hct : s.regs.format.colorType.toNat = 6) : d.ScanlineValid 0 y := by
  refine ⟨?_, fun h3 => ?_⟩
  · rw [hd.filterByte hplain hfb hy]
    decide
  · rw [hd.format, hct] at h3
    cases h3

/-- The samples of the stream are the cells of the image. -/
theorem State.CarriesImage.sample_eq (hp : s.regs.packLegal = true)
    (hct : s.regs.format.colorType.toNat = 6) {x c : Nat} (hx : x < s.regs.width.toNat) (hc : c < 4)
    (hv : s.regs.format.bitDepth.toNat = 8 → (s.cellAt (s.regs.pixIndex x y + c)).toNat < 256) :
    s.regs.format.sample (d.streamRow 0 y) x c = s.cellAt (s.regs.pixIndex x y + c) := by
  obtain ⟨bs, hbs, hread⟩ := (hd.rows y hy).2 x hx
  refine sample_of_packPixel_rgba hp hct hbs (fun j hj => ?_) hc hv
  have hend : (x + 1) * s.regs.format.pixelBytes ≤ s.regs.width.toNat * s.regs.format.pixelBytes :=
    Nat.mul_le_mul_right _ hx
  rw [Nat.succ_mul] at hend
  rw [hd.streamRow_eq hplain hfb hy, rowBytes_of_packLegal hp, rowByte_bytesAt d _ (by omega), hread j hj,
    hd.scanlineAddr_eq hplain hfb, (filterBytes_eq_one_iff _).2 hfb, ← Nat.add_assoc]

end

/-- A pixel that is decoded from the stream is the pixel of the image. -/
theorem State.CarriesImage.cellAt_eq {s d t : State} (hd : s.CarriesImage d)
    (hplain : s.regs.format.interlace = false) (hfb : s.regs.ctrl.pkFb = true)
    (hp : s.regs.packLegal = true) (hct : s.regs.format.colorType.toNat = 6)
    (hforce : s.regs.format.bitDepth.toNat = 16 → s.regs.ctrl.force32 = false)
    {x y c : Nat} (hx : x < s.regs.width.toNat) (hy : y < s.regs.height.toNat) (hc : c < 4)
    (hv : s.regs.format.bitDepth.toNat = 8 → (s.cellAt (s.regs.pixIndex x y + c)).toNat < 256)
    (hdone : d.PixelDone 0 y x t) :
    t.cellAt (s.regs.pixIndex x y + c) = s.cellAt (s.regs.pixIndex x y + c) := by
  obtain ⟨px, hpx, hcells⟩ := hdone
  have hindex : d.regs.pixIndex (gridX 0 x) (gridY 0 y) = s.regs.pixIndex x y := by
    simp [Regs.pixIndex, gridX, gridY, xStart, yStart, xStride, yStride, hd.width]
  have hcell := unpackPixel_rgba_cells (hd.format ▸ hct) (by rw [hd.format, hd.ctrl]; exact hforce) hpx hc
  rw [hcells c hc, hindex, hd.format, hd.sample_eq hplain hfb hy hp hct hx hc hv] at hcell
  exact Option.some.inj hcell

/-- `u` once the host has set it to decode `len` bytes from `src`, `pix` being what PIX then holds. -/
def State.readyToDecode (u : State) (src : Word) (len : Nat) (pix : Memory 16) : State :=
  { u with
    pixMem := pix
    regs := { u.regs with srcAddr := src, srcLen := word len, inEnd := word (src.toNat + len) } }

section
variable {s u : State} (h : s.PackedTo s.regs.height.toNat u) (len : Nat) (pix : Memory 16)
include h

/-- The packer leaves its image where the decoder is set to look for it. -/
theorem State.PackedTo.carriesImage : s.CarriesImage (u.readyToDecode s.regs.dstAddr len pix) := by
  refine ⟨?_, ?_, ?_, ?_, h.rows⟩ <;> rw [h.frame] <;> rfl

theorem State.PackedTo.halted_readyToDecode :
    (u.readyToDecode s.regs.dstAddr len pix).halted = s.halted := by
  rw [h.frame]
  rfl

/-- The checks of `DEC.IMG` pass on the packed image. -/
theorem State.PackedTo.decodeChecksPass {len : Nat} (hl : s.params.legal = true)
    (hc : s.regs.cfgLegal = true) (hplain : s.regs.format.interlace = false)
    (hi : 4 * s.regs.width.toNat * s.regs.height.toNat ≤ s.params.pixSize)
    (hmax : s.regs.format.rowBytes s.regs.width.toNat ≤ s.params.maxRowBytes)
    (hlen : len = s.regs.height.toNat * (1 + s.regs.format.rowBytes s.regs.width.toNat))
    (hfits : s.regs.dstAddr.toNat + len ≤ s.params.byteSize) :
    (u.readyToDecode s.regs.dstAddr len pix).DecodeChecksPass := by
  have hsize := byteSize_lt_of_legal hl
  have hsrcLen : (word len).toNat = len := word_toNat (by omega)
  have hinEnd : (word (s.regs.dstAddr.toNat + len)).toNat = s.regs.dstAddr.toNat + len :=
    word_toNat (by omega)
  rw [h.frame]
  refine decodeChecksPass_of_plain hplain hc hi hmax (hsrcLen.trans hlen) ?_
  rw [State.rlim]
  exact (congrArg (s.regs.dstAddr.toNat + ·) hsrcLen).le.trans (le_min hinEnd.ge hfits)

end

/-- Every cell of the image is a channel of one of its pixels. -/
theorem exists_pixIndex {r : Regs} {i : Nat} (hi : i < 4 * r.width.toNat * r.height.toNat) :
    ∃ x < r.width.toNat, ∃ y < r.height.toNat, ∃ c < 4, i = r.pixIndex x y + c := by
  rw [Nat.mul_assoc] at hi
  have hpos : 0 < r.width.toNat := Nat.pos_of_ne_zero fun h0 => by simp [h0] at hi
  refine ⟨i / 4 % r.width.toNat, Nat.mod_lt _ hpos, i / 4 / r.width.toNat,
    Nat.div_lt_of_lt_mul (Nat.div_lt_of_lt_mul hi), i % 4, Nat.mod_lt _ (by decide), ?_⟩
  rw [Regs.pixIndex, Nat.mul_comm (i / 4 / _), Nat.div_add_mod, Nat.div_add_mod]

/-- Settles O58: the packed rows are a stream with filter type None whose samples are the image's cells. -/
theorem rgbaPackThenDecodeIsTheImage : Obligations.RgbaPackThenDecodeIsTheImage := by
  intro s u len between hl hhalt hp hct hplain hfb hforce hi hmax hlen hfits hv hexec
  have hfits' := hfits
  rw [hlen, ← packedRowBytes_of_pkFb hfb] at hfits'
  obtain ⟨u', hrun, hpacked⟩ :=
    packRows_of_forall hl hp hfits' fun y _ x _ => packPixel_rgba_ne_none hct x y
  obtain rfl : u' = u := Host.Outcome.next.inj ((exec_pxpImg_of_ok hp hi hfits' hrun).symm.trans hexec)
  have hd := hpacked.carriesImage len between
  have hchecks := hpacked.decodeChecksPass between hl (cfgLegal_of_packLegal hp) hplain hi hmax hlen hfits
  have hplain' := hd.format ▸ hplain
  have hrows := (passRows_zero hchecks.cfg).trans (congrArg BitVec.toNat hd.height)
  obtain ⟨t, ht, hhalted, hpixels⟩ := exec_decImg_of_valid hchecks fun p hpass row hrow => by
    obtain rfl := (mem_passes_of_plain hplain').1 hpass
    exact hd.scanlineValid hplain hfb (hrows ▸ hrow) hct
  refine ⟨t, ht, hhalted.trans ((hpacked.halted_readyToDecode len between).trans hhalt), fun i hi' => ?_⟩
  obtain ⟨x, hx, y, hy, c, hc, rfl⟩ := exists_pixIndex hi'
  refine hd.cellAt_eq hplain hfb hp hct hforce hx hy hc (fun h8 => hv h8 _ hi')
    (hpixels 0 ((mem_passes_of_plain hplain').2 rfl) y (hrows.symm ▸ hy) x ?_)
  rw [passWidth_zero, hd.width]
  exact hx

end Sys2Proof.Machine
end

section
/-! The composite command `DEC.IMG` (46_decode_image.md R241): its faults before the loop, the two ways its loop
ends, and what each of them leaves. -/

namespace Sys2Proof.Machine

/-! ## The checks before the loop -/

theorem someRowTooLong_iff (s : State) : s.someRowTooLong = true ↔
    ∃ p ∈ s.regs.format.passes, s.regs.passNonempty p ∧
      s.params.maxRowBytes < s.regs.format.rowBytes (passWidth p s.regs.width.toNat) := by
  rw [← Bool.not_eq_false, someRowTooLong_eq_false_iff]
  push Not
  rfl

/-- A length or a row that does not fit, before `EXP_LEN` is written. -/
theorem exec_decImg_of_range {s : State} (hc : s.regs.cfgLegal = true)
    (h : 2 ^ 32 ≤ s.regs.expectedLen ∨ s.someRowTooLong = true) :
    exec .decImg s = .next (s.raise .range 0) := by
  rw [exec, execDecImg, hc]
  rcases h with h | h
  · exact if_pos h
  · rw [h]
    exact ite_self _

/-- Past the range checks `EXP_LEN` is written, and the next checks compare the lengths. -/
theorem exec_decImg_of_sized {s : State} (hc : s.regs.cfgLegal = true) (hlen : s.regs.expectedLen < 2 ^ 32)
    (hrows : s.someRowTooLong = false) :
    exec .decImg s =
      if s.regs.srcLen.toNat < s.regs.expectedLen then
        .next (s.withExpLen.raise .truncatedIdat s.regs.srcAddr.toNat)
      else if s.regs.expectedLen < s.regs.srcLen.toNat then
        .next (s.withExpLen.raise .excessIdat s.regs.srcAddr.toNat)
      else if s.rlim < s.regs.srcAddr.toNat + s.regs.expectedLen then
        .next (s.withExpLen.raise .bounds s.regs.srcAddr.toNat)
      else if s.imageFits = false then .next (s.withExpLen.raise .bounds 0)
      else match decodePasses s.withExpLen s.regs.format.passes with
        | .ok u => .next u
        | .error u => .next (u.drawCells 0 u.regs.imageCells) := by
  rw [exec, execDecImg, hc, hrows]
  simp only [Bool.not_true, Bool.false_eq_true, if_false, if_neg (Nat.not_le.2 hlen), Bool.not_eq_true']
  rfl

/-- Settles O54: the checks in order; a failing check comes after checks that pass. -/
theorem decImgFaultsBeforeTheLoop : Obligations.DecImgFaultsBeforeTheLoop := by
  rintro s len s0 hc rfl rfl
  refine ⟨fun h => ⟨_, exec_decImg_of_range hc (h.imp_right (someRowTooLong_iff s).2), faultTaken_raise s .range 0⟩,
    fun hlen hrows v hv => ?_⟩
  obtain rfl : v = s.withExpLen := hv
  rw [exec_decImg_of_sized hc hlen ((someRowTooLong_eq_false_iff s).2 hrows)]
  refine ⟨fun hshort => ⟨_, if_pos hshort, faultTaken_raise _ .truncatedIdat _⟩, fun hexcess =>
    ⟨_, by rw [if_neg (Nat.lt_asymm hexcess), if_pos hexcess], faultTaken_raise _ .excessIdat _⟩, fun hexact => ?_⟩
  rw [hexact, if_neg (Nat.lt_irrefl _), if_neg (Nat.lt_irrefl _)]
  exact ⟨fun hpast => ⟨_, if_pos hpast, faultTaken_raise _ .bounds _⟩, fun hview hlarge =>
    ⟨_, by rw [State.rlim, if_neg (Nat.not_lt.2 hview), if_pos ((imageFits_eq_false_iff s).2 hlarge)],
      faultTaken_raise _ .bounds 0⟩⟩

end Sys2Proof.Machine
end

section
/-! What a completed `DEC.IMG` leaves (46_decode_image.md R241, R242) and the pixels it has written. -/

namespace Sys2Proof.Machine

/-! ## The two ways the loop ends -/

/-- `t` is `s` after the loop of `DEC.IMG` has done every pass. -/
structure State.Decoded (s t : State) : Prop where
  loop : decodePasses s.withExpLen s.regs.format.passes = .ok t
  passes : s.withExpLen.PassesAt s.regs.format.passes t
  valid : ∀ p ∈ s.regs.format.passes, ∀ row < s.regs.passRows p, s.ScanlineValid p row
  pixels : ∀ p ∈ s.regs.format.passes, ∀ row < s.regs.passRows p, ∀ col < passWidth p s.regs.width.toNat,
    s.PixelDone p row col t
  lastPass : ∃ init p, s.regs.format.passes = init ++ [p] ∧ s.withExpLen.RowAt init p (s.regs.passRows p) t

/-- Once its checks pass, `DEC.IMG` does every pass, or it halts at a scanline that raises. -/
theorem exec_decImg_loop_cases {s : State} (hs : s.DecodeChecksPass) :
    (∃ t, exec .decImg s = .next t ∧ s.Decoded t) ∨
    ∃ u, exec .decImg s = .next (u.drawCells 0 u.regs.imageCells) ∧ s.withExpLen.DecodeFault u := by
  have hexec : exec .decImg s = _ := execDecImg_of_checks hs
  rcases decodePasses_all hs.withExpLen with
    ⟨t, init, p, hloop, hpasses, hvalid, hpixels, hinit, hrow⟩ | ⟨u, hloop, hfault⟩
  · replace hloop : decodePasses s.withExpLen s.regs.format.passes = .ok t := hloop
    rw [hloop] at hexec
    exact .inl ⟨t, hexec, hloop, hpasses,
      fun p hp row hr => (scanlineValid_withExpLen s p row).1 (hvalid p hp row hr),
      fun p hp row hr col hcol => (pixelDone_withExpLen s p row col t).1 (hpixels p hp row hr col hcol (.inl hp)),
      init, p, hinit, hrow⟩
  · replace hloop : decodePasses s.withExpLen s.regs.format.passes = .error u := hloop
    rw [hloop] at hexec
    exact .inr ⟨u, hexec, hfault⟩

/-- Completing does not halt the block. -/
theorem State.Decoded.halted_eq {s t : State} (h : s.Decoded t) : t.halted = s.halted := by
  rw [State.halted, h.passes.frame]
  rfl

/-- A halted loop has taken a fault. -/
theorem State.DecodeFault.halted_drawCells {s u : State} (h : s.DecodeFault u) (i n : Nat) :
    (u.drawCells i n).halted = true := by
  obtain ⟨-, -, -, -, v, e, info, -, -, -, rfl⟩ := h.rowAt
  rfl

/-- A `DEC.IMG` that ends without a fault has passed its checks and done every pass. -/
theorem decoded_of_exec {s t : State} (h : exec .decImg s = .next t) (ht : t.halted = false) :
    s.DecodeChecksPass ∧ s.Decoded t := by
  have notRaised (v : State) (e : HwFault) (info : Nat) (hv : exec .decImg s = .next (v.raise e info)) : False := by
    cases h.symm.trans hv
    cases ht
  rcases execDecImg_cases s with ⟨e, hv, -⟩ | ⟨e, info, hv, -⟩ | hs
  · exact (notRaised _ e 0 hv).elim
  · exact (notRaised _ e info hv).elim
  · rcases exec_decImg_loop_cases hs with ⟨t', h', hd⟩ | ⟨u, h', hf⟩
    · cases h.symm.trans h'
      exact ⟨hs, hd⟩
    · cases h.symm.trans h'
      exact absurd ((hf.halted_drawCells _ _).symm.trans ht) (by decide)

/-! ## The pixels -/

/-- Settles O53: the loop that ended without a fault has done every pass. -/
theorem decImgWritesEveryPixel : Obligations.DecImgWritesEveryPixel := fun _ _ _ h ht =>
  (decoded_of_exec h ht).2.pixels

/-- A pixel depends on its row only through its own samples (R204). -/
theorem unpackPixel_of_samples {s : State} {row row' : List Byte} {k k' : Nat}
    (hl : s.regs.format.legalPair = true)
    (h : ∀ j < s.regs.format.channels, s.regs.format.sample row k j = s.regs.format.sample row' k' j) :
    unpackPixel s row k = unpackPixel s row' k' := by
  suffices htype : unpackByType s row k = unpackByType s row' k' by rw [unpackPixel, htype, ← unpackPixel]
  have hct : s.regs.format.colorType.toNat ∈ [0, 2, 3, 4, 6] := by
    revert hl
    unfold Format.legalPair
    split <;> simp_all
  simp only [List.mem_cons, List.not_mem_nil, or_false] at hct
  unfold Format.channels at h
  rcases hct with hct | hct | hct | hct | hct <;> simp only [hct] at h
  · rw [unpackByType_grey _ _ hct, unpackByType_grey _ _ hct, unpackGrey, h 0 (by decide), ← unpackGrey]
  · rw [unpackByType_rgb _ _ hct, unpackByType_rgb _ _ hct, unpackRgb, h 0 (by decide), h 1 (by decide),
      h 2 (by decide), ← unpackRgb]
  · rw [unpackByType_indexed _ _ hct, unpackByType_indexed _ _ hct, unpackIndexed, h 0 (by decide), ← unpackIndexed]
  · rw [unpackByType_greyAlpha _ _ hct, unpackByType_greyAlpha _ _ hct, unpackGreyAlpha, h 0 (by decide),
      h 1 (by decide), ← unpackGreyAlpha]
  · rw [unpackByType_rgba _ _ hct, unpackByType_rgba _ _ hct, unpackRgba, h 0 (by decide), h 1 (by decide),
      h 2 (by decide), h 3 (by decide), ← unpackRgba]

/-- The same settings, with interlace bit `b`. -/
def State.withInterlace (s : State) (b : Bool) : State :=
  { s with regs := { s.regs with format := { s.regs.format with interlace := b } } }

/-- The interlace bit orders the stream; a pixel does not depend on it. -/
theorem unpackPixel_withInterlace (s : State) (b : Bool) (row : List Byte) (k : Nat) :
    unpackPixel (s.withInterlace b) row k = unpackPixel s row k := rfl

theorem mem_passes_of_interlaced {f : Format} (hf : f.interlace = true) {p : Nat} :
    p ∈ f.passes ↔ 1 ≤ p ∧ p ≤ 7 := by
  rw [Format.passes, hf, if_pos rfl]
  simp only [List.mem_cons, List.not_mem_nil, or_false]
  omega

/-- A pixel whose grid position is in the image belongs to a row of its pass. -/
theorem pixel_of_grid {r : Regs} {p row col : Nat} (hx : gridX p col < r.width.toNat)
    (hy : gridY p row < r.height.toNat) : col < passWidth p r.width.toNat ∧ row < r.passRows p := by
  have hcol := (lt_passWidth_iff p _ col).2 hx
  have hrow := (lt_passHeight_iff p _ row).2 hy
  refine ⟨hcol, ?_⟩
  rwa [Regs.passRows, if_pos ⟨Nat.zero_lt_of_lt hcol, Nat.zero_lt_of_lt hrow⟩]

theorem State.Decoded.pixelDone_of_grid {s t : State} (hd : s.Decoded t) {p row col : Nat}
    (hp : p ∈ s.regs.format.passes) (hx : gridX p col < s.regs.width.toNat)
    (hy : gridY p row < s.regs.height.toNat) : s.PixelDone p row col t :=
  have ⟨hcol, hrow⟩ := pixel_of_grid hx hy
  hd.pixels p hp row hrow col hcol

/-- Pass 0 holds the whole grid. -/
theorem grid_zero (x y : Nat) : gridX 0 x = x ∧ gridY 0 y = y := by
  simp [gridX, gridY, xStart, yStart, xStride, yStride]

/-- Settles O57: each grid position is a pixel of one Adam7 pass and of pass 0, with the same samples. -/
theorem interlacedDecodeEqualsPlainDecode : Obligations.InterlacedDecodeEqualsPlainDecode := by
  intro s0 s1 t0 t1 _ _ ht0 ht1 hplain hformat hwidth hheight hctrl hkey0 hkey1 hkey2 hplte htrns hram h0 h1
    hsamples i hi
  obtain ⟨hs0, hd0⟩ := decoded_of_exec h0 ht0
  obtain ⟨-, hd1⟩ := decoded_of_exec h1 ht1
  obtain ⟨x, hx, y, hy, c, hc, rfl⟩ := exists_pixIndex hi
  obtain ⟨⟨hp1, hp7⟩, col, row, hgx, hgy⟩ := exists_pixel_of_ownerPass x y
  generalize ownerPass x y = p at hp1 hp7 hgx hgy
  have hgx1 : gridX p col < s1.regs.width.toNat := by rwa [hwidth, ← hgx]
  have hgy1 : gridY p row < s1.regs.height.toNat := by rwa [hheight, ← hgy]
  obtain ⟨hx0, hy0⟩ := grid_zero x y
  obtain ⟨px0, hpx0, hcells0⟩ := hd0.pixelDone_of_grid ((mem_passes_of_plain hplain).2 rfl)
    (hx0.symm ▸ hx) (hy0.symm ▸ hy)
  obtain ⟨px1, hpx1, hcells1⟩ := hd1.pixelDone_of_grid
    ((mem_passes_of_interlaced (by rw [hformat])).2 ⟨hp1, hp7⟩) hgx1 hgy1
  have hsame : unpackPixel s1 (s1.streamRow p row) col = unpackPixel s0 (s0.streamRow 0 y) x :=
    calc unpackPixel s1 (s1.streamRow p row) col
      _ = unpackPixel (s0.withInterlace true) (s1.streamRow p row) col :=
        unpackPixel_congr _ col hformat hctrl hkey0 hkey1 hkey2 hplte htrns (fun i => (hram i).1)
          fun i => (hram i).2
      _ = unpackPixel s0 (s1.streamRow p row) col := unpackPixel_withInterlace s0 true _ col
      _ = unpackPixel s0 (s0.streamRow 0 y) x := by
        obtain ⟨-, -, hl, -, -⟩ := (cfgLegal_iff s0.regs).1 hs0.cfg
        obtain ⟨hcol, hrow⟩ := pixel_of_grid hgx1 hgy1
        refine unpackPixel_of_samples hl fun j hj => ?_
        rw [hgx, hgy]
        have hsample := hsamples p hp1 hp7 row hrow col hcol j hj
        rwa [hformat] at hsample
  obtain rfl : px1 = px0 := Option.some.inj (hpx1.symm.trans (hsame.trans hpx0))
  have hcell := (hcells1 c hc).symm.trans (hcells0 c hc)
  rw [hx0, hy0, ← hgx, ← hgy, Regs.pixIndex, hwidth, ← Regs.pixIndex] at hcell
  exact Option.some.inj hcell

end Sys2Proof.Machine
end

section
/-! The state that `DEC.IMG` leaves: after every pass (46_decode_image.md R242), and halted in its loop
(R241, 60_exceptions.md R252 to R254). -/

namespace Sys2Proof.Machine

/-! ## What the loop leaves of the state before it -/

section
variable {s t : State} {done : List Nat} {p row : Nat}

theorem State.RowAt.samePort (h : s.RowAt done p row t) :
    SamePort [0x004, 0x020, 0x060, 0x064, 0x068, 0x06C, 0x070] s t := by
  refine samePort_of_readReg fun r hr => ?_
  rw [h.frame]
  cases r
  case status | srcAddr | pass | passW | passH | row | rowAddr => exact absurd (by decide) hr
  all_goals rfl

theorem State.RowAt.sameBytes (h : s.RowAt done p row t) : SameBytes s t := by
  rw [h.frame]
  exact fun _ => rfl

theorem State.RowAt.sameRun (h : s.RowAt done p row t) : SameRun s t := by
  rw [h.frame]
  exact ⟨rfl, rfl, rfl, rfl⟩

/-- The latest scanline is in the stream, so its address fits a register. -/
theorem scanlineAddr_lt {rest : List Nat} (hs : s.DecodeChecksPass)
    (hl : s.regs.format.passes = done ++ p :: rest) (hr : row ≤ s.regs.passRows p) :
    s.regs.scanlineAddr p row < 2 ^ 32 := by
  rw [scanlineAddr_eq row hl]
  exact (streamAddr_le hl hr).trans_lt hs.end_lt

/-- The registers the loop writes, as the port reads them. -/
theorem State.RowAt.portWords {rest : List Nat} (hs : s.DecodeChecksPass)
    (hl : s.regs.format.passes = done ++ p :: rest) (hr : row ≤ s.regs.passRows p) (h : s.RowAt done p row t) :
    (t.regRead 0x020).toNat = s.regs.scanlineAddr p row ∧ (t.regRead 0x060).toNat = p ∧
      (t.regRead 0x064).toNat = passWidth p s.regs.width.toNat ∧
      (t.regRead 0x068).toNat = passHeight p s.regs.height.toNat ∧ (t.regRead 0x06C).toNat = row := by
  rw [regRead_srcAddr, regRead_pass, regRead_passW, regRead_passH, regRead_row, h.regs_eq,
    BitVec.toNat_setWidth_of_le (by decide), ← scanlineAddr_eq row hl]
  exact ⟨word_toNat (scanlineAddr_lt hs hl hr), pass_toNat (mem_passes hl), word_passWidth p _,
    word_passHeight p _, word_toNat (row_lt hr)⟩

end

/-! ## The end state -/

/-- The last pass of a format (R242). -/
theorem last_of_passes {f : Format} {init : List Nat} {p : Nat} (h : f.passes = init ++ [p]) :
    p = if f.interlace = true then 7 else 0 := by
  have hlast : f.passes.getLast? = some p := by rw [h, List.getLast?_concat]
  rw [Format.passes] at hlast
  split at hlast <;> simp_all

/-- A stream without a bad filter type or index has valid scanlines only. -/
theorem scanlineValid_of_valid {s : State} (hf : s.FilterBytesValid) (hi : s.IndicesValid) :
    ∀ p ∈ s.regs.format.passes, ∀ row < s.regs.passRows p, s.ScanlineValid p row :=
  fun p hp row hr => ⟨hf p hp row hr, fun hct k hk => hi p hp row hr k hk hct⟩

/-- A valid stream is decoded to its end. -/
theorem exec_decImg_of_scanlineValid {s : State} (hs : s.DecodeChecksPass)
    (hvalid : ∀ p ∈ s.regs.format.passes, ∀ row < s.regs.passRows p, s.ScanlineValid p row) :
    ∃ t, exec .decImg s = .next t ∧ s.Decoded t := by
  rcases exec_decImg_loop_cases hs with h | ⟨_, -, done, rest, p, row, v, hl, hrow, -, hfault⟩
  · exact h
  · exact absurd ((scanlineValid_withExpLen s p row).2 (hvalid p (mem_passes hl) row hrow))
      (State.not_scanlineValid_of_fault hl hfault)

/-- Past the last scanline is past the stream. -/
theorem scanlineAddr_end {r : Regs} {init : List Nat} {p : Nat} (h : r.format.passes = init ++ [p]) :
    r.scanlineAddr p (r.passRows p) = r.srcAddr.toNat + r.expectedLen := by
  rw [scanlineAddr_eq _ h, expectedLen_eq h, Regs.streamAddr, List.map_nil, List.sum_nil]
  omega

/-- Settles O52: the state after the last row of the last pass. -/
theorem decImgEndState : Obligations.DecImgEndState := by
  rintro s _ hs hfilter hindex rfl
  obtain ⟨t, hexec, hd⟩ := exec_decImg_of_scanlineValid hs (scanlineValid_of_valid hfilter hindex)
  obtain ⟨init, p, hinit, hrow⟩ := hd.lastPass
  rw [← last_of_passes hinit]
  obtain ⟨hsrc, hpass, hpassW, hpassH, hrows⟩ := hrow.portWords hs.withExpLen hinit le_rfl
  have hsum : (s.regs.format.passes.map s.regs.passRows).sum = (init.map s.regs.passRows).sum + s.regs.passRows p := by
    rw [hinit, List.map_append, List.sum_append, List.map_singleton, List.sum_singleton]
  refine ⟨t, hexec, hsrc.trans (scanlineAddr_end hinit), ?_, hpass, hpassW, hpassH, hrows, ?_,
    fun q hq hne hlater => ?_, fun i hi => hd.passes.outside i hi,
    (onlyPort_withExpLen s).1.trans hrow.samePort (by decide), hrow.sameBytes, hrow.sameRun⟩
  · rw [regRead_expLen, hrow.regs_eq]
    exact word_toNat hs.length
  · rw [hrow.regs_eq, hsum]
    rfl
  · obtain ⟨done, rest, hl⟩ := List.append_of_mem hq
    rw [regRead_rowAddr, hd.passes.carried.last q hq hne hlater]
    exact word_toNat (scanlineAddr_lt hs.withExpLen hl (Nat.sub_le _ 1))

/-! ## The halted state -/

/-- A fault taken in the loop, the image cells drawn after it, leaves every other port word. -/
theorem samePort_fault_drawCells (v : State) (e : HwFault) (info n : Nat) :
    SamePort [0x004, 0x008, 0x00C] v ((v.raise e info).drawCells 0 n) := by
  obtain ⟨-, -, -, hport, -⟩ := faultTaken_raise v e info
  exact hport.trans (samePort_of_regs [] rfl (fun _ => rfl) (fun _ => rfl)) (by decide)

/-- `ROW_ADDR` with no row of pass `p` reconstructed: the last scanline of the nearest earlier pass that has
one. -/
theorem State.LastScanline.rowAddr_earlier {s t : State} {done rest : List Nat} {p q : Nat}
    (h : s.LastScanline done t) (hl : s.regs.format.passes = done ++ p :: rest) (hq : q ∈ s.regs.format.passes)
    (hqp : q < p) (hne : 0 < s.regs.passRows q)
    (hbetween : ∀ q' ∈ s.regs.format.passes, q < q' → q' < p → s.regs.passRows q' = 0) :
    t.regs.rowAddr = word (s.regs.scanlineAddr q (s.regs.passRows q - 1)) := by
  refine h.last q ((mem_done_iff hl hq).2 hqp) hne fun q' hq' hlt => ?_
  have hmem : q' ∈ s.regs.format.passes := hl ▸ List.mem_append_left _ hq'
  exact hbetween q' hmem hlt ((mem_done_iff hl hmem).1 hq')

/-- Without a scanline before it `ROW_ADDR` is kept. -/
theorem State.LastScanline.rowAddr_kept {s t : State} {done rest : List Nat} {p : Nat}
    (h : s.LastScanline done t) (hl : s.regs.format.passes = done ++ p :: rest) (h0 : s.regs.rowsBefore p = 0) :
    t.regs.rowAddr = s.regs.rowAddr := by
  rw [rowsBefore_eq hl] at h0
  exact h.kept fun q hq => List.sum_eq_zero_iff.1 h0 _ (List.mem_map_of_mem hq)

/-- The state in which the loop halts: the rows done, then the fault, then the image cells drawn. -/
theorem State.RowAt.haltedAt {s v : State} {done rest : List Nat} {p rows info : Nat} {e : HwFault}
    (hs : s.DecodeChecksPass) (hl : s.regs.format.passes = done ++ p :: rest) (hr : rows ≤ s.regs.passRows p)
    (h : s.withExpLen.RowAt done p rows v) (hinfo : info < 2 ^ 32) :
    s.HaltedAt ((v.raise e info).drawCells 0 v.regs.imageCells) p rows (s.regs.scanlineAddr p rows)
      e.code.toNat info := by
  have hport := samePort_fault_drawCells v e info v.regs.imageCells
  obtain ⟨hsrc, hpass, hpassW, hpassH, hrow⟩ := h.portWords hs.withExpLen hl hr
  have hrowAddr : ((v.raise e info).drawCells 0 v.regs.imageCells).regRead 0x070 = v.regs.rowAddr := rfl
  have hcells : v.regs.imageCells = s.regs.imageCells := by rw [h.regs_eq]; rfl
  constructor
  case status =>
    rw [State.drawCells_regs, State.raise_regs, h.regs_eq, rowsBefore_eq hl]
    rfl
  case errcode => exact BitVec.toNat_setWidth_of_le (by decide)
  case erraddr => exact word_toNat hinfo
  case srcAddr => rw [hport _ rfl (by decide), hsrc]; rfl
  case pass => rw [hport _ rfl (by decide), hpass]
  case passW => rw [hport _ rfl (by decide), hpassW]; rfl
  case passH => rw [hport _ rfl (by decide), hpassH]; rfl
  case row => rw [hport _ rfl (by decide), hrow]
  case expLen =>
    rw [hport _ rfl (by decide), regRead_expLen, h.regs_eq]
    exact word_toNat hs.length
  case rowAddr =>
    intro h0
    rw [hrowAddr, h.rowAddr h0, ← scanlineAddr_eq (r := s.withExpLen.regs) _ hl]
    exact word_toNat (scanlineAddr_lt hs.withExpLen hl ((Nat.sub_le _ 1).trans hr))
  case rowAddrEarlier =>
    intro h0 q hq hqp hne hbetween
    obtain ⟨done', rest', hq'⟩ := List.append_of_mem hq
    rw [hrowAddr, (h.carried h0).rowAddr_earlier hl hq hqp hne hbetween]
    exact word_toNat (scanlineAddr_lt hs.withExpLen hq' (Nat.sub_le _ 1))
  case rowAddrKept =>
    intro h0
    obtain ⟨hbefore, hrows⟩ := Nat.add_eq_zero_iff.1 h0
    exact hrowAddr.trans ((h.carried hrows).rowAddr_kept hl hbefore)
  case line =>
    intro h0
    have hcurrent : v.currentRow = s.streamRow p (rows - 1) :=
      (h.line h0).trans (streamRow_withExpLen s p (rows - 1))
    have hbytes : v.regs.format.rowBytes v.regs.passW.toNat =
        s.regs.format.rowBytes (passWidth p s.regs.width.toNat) := by
      rw [← regRead_passW, hpassW, h.regs_eq]
      rfl
    rw [← hcurrent, State.currentRow, hbytes]
    rfl
  case outside =>
    intro i hi
    rw [State.cellAt_drawCells _ _ _ _ (.inr (by rw [Nat.zero_add, hcells]; exact hi))]
    exact h.outside i hi
  case otherRegs =>
    exact ((onlyPort_withExpLen s).1.trans h.samePort (List.Subset.refl _)).trans hport (by decide)
  case bytes => exact h.sameBytes
  case run => exact h.sameRun

/-- The first scanline of a stream that raises is one only. -/
theorem first_scanline_unique {s : State} {p row p' row' : Nat} (hp : p ∈ s.regs.format.passes)
    (hr : row < s.regs.passRows p) (hb : s.ValidBefore p row) (hv : ¬s.ScanlineValid p row)
    (hp' : p' ∈ s.regs.format.passes) (hr' : row' < s.regs.passRows p') (hb' : s.ValidBefore p' row')
    (hv' : ¬s.ScanlineValid p' row') : p = p' ∧ row = row' := by
  have h1 : ¬(p' < p ∨ p' = p ∧ row' < row) := fun hlt => hv' (hb p' hp' row' hr' hlt)
  have h2 : ¬(p < p' ∨ p = p' ∧ row < row') := fun hlt => hv (hb' p hp row hr hlt)
  omega

/-- `DEC.IMG` halts at the first scanline that raises. -/
theorem exec_decImg_of_first {s : State} (hs : s.DecodeChecksPass) {p row : Nat}
    (hp : p ∈ s.regs.format.passes) (hr : row < s.regs.passRows p) (hb : s.ValidBefore p row)
    (hv : ¬s.ScanlineValid p row) :
    ∃ done rest v u, s.regs.format.passes = done ++ p :: rest ∧
      exec .decImg s = .next (u.drawCells 0 u.regs.imageCells) ∧
      (s.withExpLen.FilterFault done p row v u ∨ ∃ k, s.withExpLen.IndexFault done p row k v u) := by
  rcases exec_decImg_loop_cases hs with ⟨t, -, hd⟩ | ⟨u, hexec, done, rest, p', row', v, hl, hr', hb', hfault⟩
  · exact absurd (hd.valid p hp row hr) hv
  · have hv' := State.not_scanlineValid_of_fault hl hfault
    rw [scanlineValid_withExpLen] at hv'
    rw [validBefore_withExpLen] at hb'
    obtain ⟨rfl, rfl⟩ := first_scanline_unique hp hr hb hv (mem_passes hl) hr' hb' hv'
    exact ⟨done, rest, v, u, hl, hexec, hfault⟩

theorem depth_pos {r : Regs} (hc : r.cfgLegal = true) : 1 ≤ r.format.bitDepth.toNat := by
  obtain ⟨-, -, hl, -, -⟩ := (cfgLegal_iff r).1 hc
  rw [legalPair_iff] at hl
  simp only [List.mem_cons, List.not_mem_nil, or_false, Prod.mk.injEq] at hl
  omega

theorem channels_indexed {f : Format} (hct : f.colorType.toNat = 3) : f.channels = 1 := by
  simp only [Format.channels, hct]

/-- The byte that holds an index is one of its row. -/
theorem indexByte_lt {f : Format} {k w : Nat} (hct : f.colorType.toNat = 3) (hd : 1 ≤ f.bitDepth.toNat)
    (hk : k < w) : k * f.bitDepth.toNat / 8 < f.rowBytes w := by
  have hend : (k + 1) * f.bitDepth.toNat ≤ w * f.bitDepth.toNat := Nat.mul_le_mul_right _ hk
  rw [Nat.succ_mul] at hend
  rw [Format.rowBytes, Format.bpp, channels_indexed hct, Nat.one_mul, ceilDiv]
  omega

theorem scanlineAddr_succ (r : Regs) (p row : Nat) :
    r.scanlineAddr p (row + 1) = r.scanlineAddr p row + 1 + r.format.rowBytes (passWidth p r.width.toNat) := by
  rw [Regs.scanlineAddr, Nat.succ_mul, Regs.scanlineAddr]
  omega

section
variable {s v u : State} {done rest : List Nat} {p row : Nat} (hl : s.regs.format.passes = done ++ p :: rest)
include hl

/-- A bad filter type: what the loop halted at, by the address of the scanline. -/
theorem filterFault_at (h : s.withExpLen.FilterFault done p row v u) :
    4 < (s.byteAt (s.regs.scanlineAddr p row)).toNat ∧
      u = v.raise .invalidFilter (s.regs.scanlineAddr p row) := by
  rw [scanlineAddr_eq row hl]
  exact ⟨h.filter, h.raised⟩

/-- A bad index: what the loop halted at, by the address of the scanline and the row of the stream. -/
theorem indexFault_at {k : Nat} (h : s.withExpLen.IndexFault done p row k v u) :
    (s.byteAt (s.regs.scanlineAddr p row)).toNat ≤ 4 ∧
      s.regs.plteCount.toNat ≤ (s.regs.format.sample (s.streamRow p row) k 0).toNat ∧
      (∀ j < k, (s.regs.format.sample (s.streamRow p row) j 0).toNat < s.regs.plteCount.toNat) ∧
      u = v.raise .paletteIndexOor (s.regs.scanlineAddr p row + 1 + k * s.regs.format.bitDepth.toNat / 8) := by
  rw [scanlineAddr_eq row hl, ← streamRow_withExpLen]
  exact ⟨h.filter, h.index, h.earlier, h.raised⟩

end

/-- A filter type above 4 halts the loop before its row. -/
theorem haltedAt_of_filter {s : State} (hs : s.DecodeChecksPass) {p row : Nat} (hp : p ∈ s.regs.format.passes)
    (hr : row < s.regs.passRows p) (hb : s.ValidBefore p row)
    (hfilter : 4 < (s.byteAt (s.regs.scanlineAddr p row)).toNat) :
    ∃ t, exec .decImg s = .next t ∧
      s.HaltedAt t p row (s.regs.scanlineAddr p row) 0x22 (s.regs.scanlineAddr p row) := by
  obtain ⟨done, rest, v, u, hl, hexec, hf | ⟨k, hf⟩⟩ :=
    exec_decImg_of_first hs hp hr hb fun hv => Nat.not_lt.2 hv.1 hfilter
  · obtain ⟨-, rfl⟩ := filterFault_at hl hf
    exact ⟨_, hexec, hf.rowAt.haltedAt hs hl hr.le (scanlineAddr_lt hs hl hr.le)⟩
  · exact absurd (indexFault_at hl hf).1 (Nat.not_le.2 hfilter)

/-- The first index that is not in the palette halts the loop after its row is reconstructed. -/
theorem haltedAt_of_index {s : State} (hs : s.DecodeChecksPass) {p row k : Nat} (hp : p ∈ s.regs.format.passes)
    (hr : row < s.regs.passRows p) (hb : s.ValidBefore p row)
    (hfilter : (s.byteAt (s.regs.scanlineAddr p row)).toNat ≤ 4) (hct : s.regs.format.colorType.toNat = 3)
    (hk : k < passWidth p s.regs.width.toNat)
    (hbad : s.regs.plteCount.toNat ≤ (s.regs.format.sample (s.streamRow p row) k 0).toNat)
    (hbefore : ∀ j < k, (s.regs.format.sample (s.streamRow p row) j 0).toNat < s.regs.plteCount.toNat) :
    ∃ t, exec .decImg s = .next t ∧ s.HaltedAt t p (row + 1) (s.regs.scanlineAddr p (row + 1)) 0x30
      (s.regs.scanlineAddr p row + 1 + k * s.regs.format.bitDepth.toNat / 8) := by
  obtain ⟨done, rest, v, u, hl, hexec, hf | ⟨k', hf⟩⟩ :=
    exec_decImg_of_first hs hp hr hb fun hv => Nat.not_lt.2 hbad (hv.2 hct k hk)
  · exact absurd (filterFault_at hl hf).1 (Nat.not_lt.2 hfilter)
  · obtain ⟨-, hbad', hbefore', rfl⟩ := indexFault_at hl hf
    obtain rfl : k' = k := by
      rcases Nat.lt_trichotomy k' k with h | h | h
      · exact absurd (hbefore k' h) (Nat.not_lt.2 hbad')
      · exact h
      · exact absurd (hbefore' k h) (Nat.not_lt.2 hbad)
    have hbyte := indexByte_lt hct (depth_pos hs.cfg) hk
    have hend := scanlineAddr_lt hs hl (row := row + 1) hr
    rw [scanlineAddr_succ] at hend
    exact ⟨_, hexec, hf.rowAt.haltedAt hs hl hr (by omega)⟩

/-- Settles O55: the first scanline that raises is where the loop halts, and the loop halts at no other. -/
theorem decImgFaultInTheLoop : Obligations.DecImgFaultInTheLoop := by
  refine ⟨?_, fun s t hs hrun hexec hhalted => ?_⟩
  · rintro s p row a n hs hp hr hb rfl rfl
    refine ⟨haltedAt_of_filter hs hp hr hb, fun hfilter hct k hk hbad hbefore => ?_⟩
    rw [← scanlineAddr_succ]
    exact haltedAt_of_index hs hp hr hb hfilter hct hk hbad hbefore
  · rcases exec_decImg_loop_cases hs with ⟨t', h', hd⟩ | ⟨u, -, done, rest, p, row, v, hl, hr, hb, hfault⟩
    · cases hexec.symm.trans h'
      exact absurd (hrun.symm.trans (hd.halted_eq.symm.trans hhalted)) (by decide)
    · refine ⟨p, mem_passes hl, row, hr, (validBefore_withExpLen s p row).1 hb, ?_⟩
      rw [← scanlineValid_withExpLen]
      exact State.not_scanlineValid_of_fault hl hfault

end Sys2Proof.Machine
end

section
/-! The unit commands (46_decode_image.md R243): a run of the host script of `A7.PASS`, `FLT.ROW` and `PXU.ROW`
commands goes through the states of the loop of `DEC.IMG`, but for `EXP_LEN` and the script itself. -/

namespace Sys2Proof.Machine

/-! ## Runs of commands -/

/-- The host action that issues a command (30_encoding.md R95). -/
def issue (i : Instr) : HostAction := .regWrite 0x000 (encode i)

/-- `s` with the value `e` in `EXP_LEN` and the host actions `acts` still to come. -/
def State.scripted (s : State) (e : Word) (acts : List HostAction) : State :=
  { s with script := acts, regs := { s.regs with expLen := e } }

/-- Issued one after the other from `s`, the commands `is` lead to `t`, whatever `EXP_LEN` holds and whatever
the host does after them. -/
def State.Performs (s : State) (is : List Instr) (t : State) : Prop :=
  ∀ e rest, runSteps is.length (s.scripted e (is.map issue ++ rest)) = .next (t.scripted e rest)

theorem runSteps_succ_of_step {k : Nat} {s t : State} (h : step s = .next t) :
    runSteps (k + 1) s = runSteps k t := by
  rw [runSteps, h]

/-- A run can be cut after any number of its steps. -/
theorem runSteps_add {k m : Nat} {s t : State} (h : runSteps k s = .next t) : runSteps (k + m) s = runSteps m t := by
  induction k generalizing s with
  | zero =>
    cases h
    rw [Nat.zero_add]
  | succ k ih =>
    cases hstep : step s with
    | next u =>
      rw [runSteps_succ_of_step hstep] at h
      rw [Nat.add_right_comm, runSteps_succ_of_step hstep]
      exact ih h
    | fault f => cases f
    | refused r =>
      rw [runSteps, hstep] at h
      cases h

theorem State.Performs.nil (s : State) : s.Performs [] s := fun _ _ => rfl

theorem State.Performs.append {s t u : State} {is js : List Instr} (h₁ : s.Performs is t) (h₂ : t.Performs js u) :
    s.Performs (is ++ js) u := by
  intro e rest
  rw [List.length_append, List.map_append, List.append_assoc, runSteps_add (h₁ e _)]
  exact h₂ e rest

/-- One command of a running block. -/
theorem performs_of_exec {s t : State} {i : Instr} (hi : i.wellFormed = true) (hrun : s.halted = false)
    (h : ∀ e rest, exec i (s.scripted e rest) = .next (t.scripted e rest)) : s.Performs [i] t := by
  intro e rest
  have hstep : step (s.scripted e (issue i :: rest)) = exec i (s.scripted e rest) :=
    step_cmd_of_decodeWord (s := s.scripted e (issue i :: rest)) rfl hrun (decodeWord_encode hi)
  exact runSteps_succ_of_step (hstep.trans (h e rest))

/-! ## The units on a scripted state -/

section
variable (s : State) (e : Word) (acts : List HostAction)

theorem afterFilter_scripted : (s.scripted e acts).afterFilter = s.afterFilter.scripted e acts := by
  obtain ⟨params, ⟨⟨err, wCrc, crcOk, prevValid, lsel⟩⟩⟩ := s
  cases lsel <;> rfl

theorem unpackFrom_scripted (row : List Byte) (k n : Nat) :
    unpackFrom (s.scripted e acts) row k n = unpackFrom s row k n := by
  induction n generalizing k with
  | zero => rfl
  | succ n ih =>
    have hpx : unpackPixel (s.scripted e acts) row k = unpackPixel s row k := rfl
    rw [unpackFrom, unpackFrom, hpx, ih]

theorem storePixels_scripted (k : Nat) (pxs : List Pixel) :
    (s.scripted e acts).storePixels k pxs = (s.storePixels k pxs).scripted e acts := by
  induction pxs generalizing s k with
  | nil => rfl
  | cons px pxs ih => exact ih (s.storeCells (s.regs.rowPixIndex k) px.cells) (k + 1)

variable {s} in
theorem unpackRow_scripted {t : State} (h : unpackRow s = .ok t) :
    unpackRow (s.scripted e acts) = .ok (t.scripted e acts) := by
  simp only [unpackRow] at h
  split at h
  · cases h
  · rename_i pxs hpxs
    cases h
    have hscripted : unpackFrom (s.scripted e acts) (s.scripted e acts).currentRow 0
        (s.scripted e acts).regs.passW.toNat = .ok pxs := (unpackFrom_scripted s e acts _ 0 _).trans hpxs
    unfold State.currentRow at hscripted
    simp only [unpackRow, hscripted, storePixels_scripted]

end

/-! ## One row -/

/-- A row that the loop decodes is reconstructed, then unpacked. -/
theorem decodeRow_ok {s t : State} (h : decodeRow s = .ok t) :
    ∃ u, filterRow s = .ok u ∧ unpackRow u = .ok t := by
  unfold decodeRow at h
  split at h
  · cases h
  · rename_i u hu
    split at h
    · rename_i v hv
      cases h
      exact ⟨u, hu, hv⟩
    · cases h

/-- Where `FLT.ROW`'s first checks pass and its body succeeds, it takes no fault. -/
theorem fltRowFault_of_filterRow {s u : State} (hc : s.regs.cfgLegal = true) (hw : 0 < s.regs.passW.toNat)
    (hr : s.regs.row.toNat < s.regs.passH.toNat)
    (hmax : s.regs.format.rowBytes s.regs.passW.toNat ≤ s.params.maxRowBytes) (h : filterRow s = .ok u) :
    s.fltRowFault = none ∧ u = s.afterFilter := by
  rw [filterRow_eq] at h
  split at h
  · cases h
  · rename_i hend
    split at h
    · cases h
    · rename_i hft
      cases h
      refine ⟨?_, rfl⟩
      rw [State.fltRowFault, if_neg (ne_false_of_eq_true hc), if_neg (by omega), if_neg (by omega), if_neg hend,
        if_neg hft]

/-- The two commands of a row do what the loop does for it. -/
theorem State.RowAt.performs_row {s t u : State} {done rest : List Nat} {p row : Nat} (hs : s.DecodeChecksPass)
    (hrun : s.halted = false) (hl : s.regs.format.passes = done ++ p :: rest) (hr : row < s.regs.passRows p)
    (h : s.RowAt done p row t) (hrow : decodeRow t = .ok u) : t.Performs [.fltRow, .pxuRow] u := by
  obtain ⟨⟨hw, hh⟩, hlt⟩ := passNonempty_of_lt hr
  obtain ⟨-, -, hpassW, hpassH, hrows⟩ := h.portWords hs hl hr.le
  rw [regRead_passW] at hpassW
  rw [regRead_passH] at hpassH
  rw [regRead_row] at hrows
  have hc : t.regs.cfgLegal = true := by rw [h.regs_eq]; exact hs.cfg
  have hmax : t.regs.format.rowBytes t.regs.passW.toNat ≤ t.params.maxRowBytes := by
    rw [hpassW, h.frame]
    exact hs.rowsFit p (mem_passes hl) ⟨hw, hh⟩
  have himage : 4 * t.afterFilter.regs.width.toNat * t.afterFilter.regs.height.toNat ≤
      t.afterFilter.params.pixSize := by
    rw [afterFilter_eq, h.frame]
    exact hs.imageFits
  have hrunning : t.halted = false := by rw [State.halted, h.regs_eq]; exact hrun
  obtain ⟨v, hfilter, hunpack⟩ := decodeRow_ok hrow
  obtain ⟨hnone, rfl⟩ := fltRowFault_of_filterRow hc (by omega) (by omega) hmax hfilter
  have hflt : t.Performs [.fltRow] t.afterFilter := performs_of_exec rfl hrunning fun e rest => by
    rw [← afterFilter_scripted]
    exact exec_fltRow_of_noFault hnone
  have hpxu : t.afterFilter.Performs [.pxuRow] u := performs_of_exec rfl hrunning fun e rest =>
    exec_pxuRow_of_ok (s := t.afterFilter.scripted e rest) hc rfl himage (unpackRow_scripted e rest hunpack)
  exact hflt.append hpxu

/-! ## Rows and passes -/

/-- The commands of pass `p` in the unit script. -/
def Regs.passScript (r : Regs) (p : Nat) : List Instr :=
  .a7Pass p :: (List.replicate (r.passRows p) [Instr.fltRow, Instr.pxuRow]).flatten

theorem unitScript_eq (r : Regs) : r.unitScript = r.format.passes.flatMap r.passScript := rfl

/-- An empty pass has no rows, so a pass is its selection and its rows. -/
theorem decodePass_eq (t : State) (p : Nat) :
    decodePass t p = decodeRows (t.selectPass p) (t.regs.passRows p) := by
  have hempty : ((t.selectPass p).regs.passW = 0 ∨ (t.selectPass p).regs.passH = 0) ↔
      ¬(0 < passWidth p t.regs.width.toNat ∧ 0 < passHeight p t.regs.height.toNat) := by
    rw [← BitVec.toNat_inj, ← BitVec.toNat_inj, State.selectPass_regs, word_passWidth, word_passHeight,
      show BitVec.toNat (0 : Word) = 0 from rfl]
    omega
  rw [decodePass, Regs.passRows]
  split
  · rename_i h
    rw [if_neg (hempty.1 h)]
    rfl
  · rename_i h
    rw [if_pos (Classical.not_not.1 fun hn => h (hempty.2 hn)), State.selectPass_regs, word_passHeight]

section
variable {s : State} (hs : s.DecodeChecksPass) (hrun : s.halted = false)
include hs hrun

/-- The remaining rows of a pass. -/
theorem performs_rows {t u : State} {done rest : List Nat} {p row n : Nat}
    (hl : s.regs.format.passes = done ++ p :: rest) (hr : row + n ≤ s.regs.passRows p) (h : s.RowAt done p row t)
    (hb : s.ValidBefore p row) (hrows : decodeRows t n = .ok u) :
    t.Performs (List.replicate n [Instr.fltRow, Instr.pxuRow]).flatten u := by
  induction n generalizing row t with
  | zero =>
    cases hrows
    exact .nil _
  | succ n ih =>
    rcases decodeRow_cases hs hl (show row < s.regs.passRows p by omega) h hb with
      ⟨v, hrow, hv, hb', -⟩ | ⟨v, hrow, -⟩
    · simp only [decodeRows, hrow] at hrows
      rw [List.replicate_succ, List.flatten_cons]
      exact (h.performs_row hs hrun hl (by omega) hrow).append (ih (by omega) hv hb' hrows)
    · simp only [decodeRows, hrow, reduceCtorEq] at hrows

/-- One pass: it is selected, then its rows are done. -/
theorem State.PassesAt.performs_pass {t u : State} {done rest : List Nat} {p : Nat}
    (hl : s.regs.format.passes = done ++ p :: rest) (h : s.PassesAt done t) (hv : s.ValidPasses done)
    (hpass : decodePass t p = .ok u) : t.Performs (s.regs.passScript p) u := by
  have hrows : t.regs.passRows p = s.regs.passRows p := by rw [h.frame]; rfl
  have hc : t.regs.cfgLegal = true := by rw [h.frame]; exact hs.cfg
  have hrunning : t.halted = false := by rw [State.halted, h.frame]; exact hrun
  have hp : (Instr.a7Pass p).wellFormed = true :=
    decide_eq_true (Nat.le_of_lt_succ (lt_of_mem_passes (mem_passes hl)))
  have hselect : t.Performs [.a7Pass p] (t.selectPass p) := performs_of_exec hp hrunning fun e rest =>
    exec_a7Pass_of_legal (s := t.scripted e rest) p hc
  rw [decodePass_eq, hrows] at hpass
  exact hselect.append (performs_rows hs hrun hl (Nat.zero_add _).le (h.selectPass p) (hv.start hl) hpass)

/-- The remaining passes of the loop. -/
theorem State.PassesAt.performs_passes {t u : State} {done rest : List Nat}
    (hl : s.regs.format.passes = done ++ rest) (h : s.PassesAt done t) (hv : s.ValidPasses done)
    (hpasses : decodePasses t rest = .ok u) : t.Performs (rest.flatMap s.regs.passScript) u := by
  induction rest generalizing done t with
  | nil =>
    cases hpasses
    exact .nil _
  | cons p rest ih =>
    rcases decodePass_cases hs hl h hv with ⟨v, hpass, hrow, hv', -⟩ | ⟨v, hpass, -⟩
    · simp only [decodePasses, hpass] at hpasses
      rw [List.flatMap_cons]
      exact (h.performs_pass hs hrun hl hv hpass).append
        (ih (by rw [List.append_assoc]; exact hl) (hrow.passesAt hl) hv' hpasses)
    · simp only [decodePasses, hpass, reduceCtorEq] at hpasses

end

/-- Settles O56: the script performs the loop from the state with `EXP_LEN` as it was. -/
theorem decImgEqualsTheUnitCommands : Obligations.DecImgEqualsTheUnitCommands := by
  intro s t rest hrun hexec ht
  obtain ⟨hs, hd⟩ := decoded_of_exec hexec ht
  have hperforms : s.withExpLen.Performs s.regs.unitScript t := by
    rw [unitScript_eq]
    exact (passesAt_start s.withExpLen).performs_passes hs.withExpLen hrun (List.nil_append _).symm
      (fun _ hq => absurd hq List.not_mem_nil) hd.loop
  refine ⟨hs.exactLength, ?_, hperforms s.regs.expLen rest⟩
  rw [hd.passes.frame]
  rfl

end Sys2Proof.Machine
end

section
/-! Faults, warnings and the halted block (60_exceptions.md R250 to R262): every command ends in a state, and
only `CTL.WCLR` and the two resets lower a warning. -/

namespace Sys2Proof.Machine

/-! ## Every command ends in a state (60_exceptions.md R250) -/

/-- The outcome is a next state: no stop and no refusal. -/
def EndsInState (r : Result) : Prop := ∃ t, r = .next t

theorem EndsInState.next (t : State) : EndsInState (.next t) := ⟨t, rfl⟩

/-- A check of a command ends it in the state after its fault, or goes on. -/
theorem EndsInState.check {c : Prop} [Decidable c] {t : State} {r : Result} (h : EndsInState r) :
    EndsInState (if c then .next t else r) := by
  split
  · exact .next t
  · exact h

theorem exec_endsInState (i : Instr) (s : State) : EndsInState (exec i s) := by
  cases i
  case nop | ctlRst | ctlWclr | crcInit | crcByte | crcChk => exact .next _
  case crcBuf | crcChkm | a7Pass => exact .check (.next _)
  case a7Len => exact .check (.check (.next _))
  case crcChunk | a7Map => exact .check (.check (.check (.next _)))
  case fltRow | pxuRow | pxpImg =>
    refine .check (.check (.check ?_))
    split <;> exact .next _
  case pxpRow =>
    refine .check (.check (.check (.check ?_)))
    split <;> exact .next _
  case decImg =>
    refine .check (.check (.check (.check (.check (.check (.check ?_))))))
    split <;> exact .next _

/-! ## The warning is sticky (R262) -/

/-- From `s` to `t` the flag `W_CRC` is not lowered, and `WARN_CNT` stays or grows by one. -/
structure State.KeepsWarning (s t : State) : Prop where
  flag : s.regs.status.wCrc = true → t.regs.status.wCrc = true
  count : t.regs.warnCnt = s.regs.warnCnt ∨ t.regs.warnCnt = s.regs.warnCnt + 1

section
variable {s t : State}

theorem State.KeepsWarning.of_same (hw : t.regs.status.wCrc = s.regs.status.wCrc)
    (hc : t.regs.warnCnt = s.regs.warnCnt) : s.KeepsWarning t :=
  ⟨hw.trans, .inl hc⟩

theorem State.KeepsWarning.of_raised (h : s.Raised t) : s.KeepsWarning t := by
  obtain ⟨e, info, rfl⟩ := h
  exact .of_same rfl rfl

/-- A CRC check is the one operation that warns. -/
theorem crcCheck_keepsWarning (s : State) (off : Nat) : s.KeepsWarning (s.crcCheck off) := by
  rcases crcCheck_cases s off with e | e | e <;> rw [e]
  · exact .of_same rfl rfl
  · exact .of_same rfl rfl
  · exact ⟨fun _ => rfl, .inr rfl⟩

theorem execCrcChkm_keepsWarning (h : execCrcChkm s = .next t) : s.KeepsWarning t := by
  rcases execCrcChkm_cases h with ht | ⟨v, off, rfl⟩
  · exact .of_raised ht
  · obtain ⟨hflag, hcount⟩ := crcCheck_keepsWarning { s with regs := { s.regs with crcExpect := v } } off
    exact ⟨hflag, hcount⟩

theorem execCrcChunk_keepsWarning (h : execCrcChunk s = .next t) : s.KeepsWarning t := by
  rcases execCrcChunk_cases h with ht | ⟨len, type, acc, v, a, off, rfl⟩
  · exact .of_raised ht
  · obtain ⟨hflag, hcount⟩ := crcCheck_keepsWarning { s with regs := { s.regs with
      chunkLen := len, chunkType := type, crcAcc := acc, crcExpect := v, srcAddr := a } } off
    exact ⟨hflag, hcount⟩

theorem execPxuRow_keepsWarning (h : execPxuRow s = .next t) : s.KeepsWarning t := by
  rcases execPxuRow_cases h with ht | ⟨-, -, -, ⟨pxs, rfl, -⟩ | ⟨e, info, rfl⟩⟩
  · exact .of_raised ht
  · rw [storePixels_eq]
    exact .of_same rfl rfl
  · rw [drawRow_eq]
    exact .of_same rfl rfl

theorem execPxpRow_keepsWarning (h : execPxpRow s = .next t) : s.KeepsWarning t := by
  rcases execPxpRow_cases h with ht | ⟨-, -, ht | ⟨e, info, rfl⟩⟩
  · exact .of_raised ht
  · obtain ⟨d, k, m, rfl⟩ := packRow_frame ht
    exact .of_same rfl rfl
  · exact .of_same rfl rfl

theorem execPxpImg_keepsWarning (h : execPxpImg s = .next t) : s.KeepsWarning t := by
  rcases execPxpImg_frame h with ht | ⟨d, k, m, u, rfl, rfl | ⟨a, n, e, info, rfl⟩⟩
  · exact .of_raised ht
  · exact .of_same rfl rfl
  · exact .of_same rfl rfl

theorem execDecImg_keepsWarning (h : execDecImg s = .next t) : s.KeepsWarning t := by
  rcases execDecImg_next_cases h with ht | ⟨e, info, rfl⟩ | ⟨-, ⟨init, p, -, hend⟩ | ⟨u, hu, rfl⟩⟩
  · exact .of_raised ht
  · exact .of_same rfl rfl
  · rw [hend.frame]
    exact .of_same rfl rfl
  · obtain ⟨done, rest, p, rows, v, e, info, -, -, hv, rfl⟩ := hu.rowAt
    rw [hv.frame]
    exact .of_same rfl rfl

/-- Every command but `CTL.RST` and `CTL.WCLR` keeps the warning. -/
theorem exec_keepsWarning {i : Instr} (hr : i ≠ .ctlRst) (hc : i ≠ .ctlWclr) (h : exec i s = .next t) :
    s.KeepsWarning t := by
  cases i
  case ctlRst => exact absurd rfl hr
  case ctlWclr => exact absurd rfl hc
  case nop | crcInit | crcByte => cases h; exact .of_same rfl rfl
  case crcBuf =>
    rcases execCrcBuf_cases h with ht | ⟨acc, rfl⟩
    · exact .of_raised ht
    · exact .of_same rfl rfl
  case crcChk => cases h; exact crcCheck_keepsWarning s _
  case crcChkm => exact execCrcChkm_keepsWarning h
  case crcChunk => exact execCrcChunk_keepsWarning h
  case fltRow =>
    rcases execFltRow_cases h with ht | ⟨rfl, -⟩
    · exact .of_raised ht
    · rw [afterFilter_eq]
      exact .of_same rfl rfl
  case a7Pass p =>
    rcases execA7Pass_cases h with ht | ⟨rfl, -⟩
    · exact .of_raised ht
    · exact .of_same rfl rfl
  case a7Map =>
    rcases execA7Map_cases h with ht | ⟨x, y, idx, rfl⟩
    · exact .of_raised ht
    · exact .of_same rfl rfl
  case a7Len =>
    rcases execA7Len_cases h with ht | ⟨len, rfl⟩
    · exact .of_raised ht
    · exact .of_same rfl rfl
  case pxuRow => exact execPxuRow_keepsWarning h
  case pxpRow => exact execPxpRow_keepsWarning h
  case pxpImg => exact execPxpImg_keepsWarning h
  case decImg => exact execDecImg_keepsWarning h

end

/-- A word that decodes to a command other than `CTL.RST` and `CTL.WCLR` is neither of their words, and so its
command keeps the warning. -/
theorem exec_keepsWarning_of_decodeWord {s t : State} {w : Word} {i : Instr} (hd : decodeWord w = .ok i)
    (h : exec i s = .next t) : s.KeepsWarning t ∨ w = 0x02000000 ∨ w = 0x01000000 := by
  have hw := encode_of_decodeWord hd
  by_cases hc : i = .ctlWclr
  · exact .inr (.inl (by rw [← hw, hc]; rfl))
  by_cases hr : i = .ctlRst
  · exact .inr (.inr (by rw [← hw, hr]; rfl))
  exact .inl (exec_keepsWarning hr hc h)

/-- A host write to a register other than `CMD` does not touch a warning. -/
theorem regWrite_keepsWarning (s : State) (off : Nat) (v : Word) : s.KeepsWarning (s.regWrite off v) := by
  cases hr : regAt off with
  | none => rw [regWrite_unmapped s v hr]; exact .of_same rfl rfl
  | some r =>
    obtain ⟨-, -, -, hcount⟩ := writeReg_records s v r
    rw [State.regWrite, hr]
    refine .of_same ?_ hcount
    rcases writeReg_status s v r with e | e <;> rw [e]

/-- A step keeps the warning unless its action is the word of `CTL.WCLR` or `CTL.RST` or a hardware reset. -/
theorem step_keepsWarning {s t : State} (h : step s = .next t) :
    s.KeepsWarning t ∨ s.script.head? = some (.regWrite 0x000 0x02000000) ∨
      s.script.head? = some (.regWrite 0x000 0x01000000) ∨ s.script.head? = some .hwReset := by
  rcases step_next_cases h with ⟨-, rfl⟩ | ⟨act, rest, u, hscript, rfl, hact⟩
  · exact .inl (.of_same rfl rfl)
  · rw [hscript, List.head?_cons]
    rcases hact with ⟨w, rfl, hcmd⟩ | ⟨off, v, -, -, -, rfl⟩ | ⟨off, -, -, rfl⟩ | ⟨a, v, -, -, rfl⟩ |
      ⟨a, -, -, rfl⟩ | ⟨i, v, -, -, rfl⟩ | ⟨i, -, -, rfl⟩ | ⟨rfl, rfl⟩
    · rcases hcmd with ⟨-, rfl, -⟩ | ⟨-, -, rfl⟩ | ⟨i, -, hd, hexec⟩ | ⟨e, -, -, rfl⟩
      · exact .inr (.inr (.inl rfl))
      · exact .inl (.of_same rfl rfl)
      · rcases exec_keepsWarning_of_decodeWord hd hexec with ⟨hflag, hcount⟩ | rfl | rfl
        · exact .inl ⟨hflag, hcount⟩
        · exact .inr (.inl rfl)
        · exact .inr (.inr (.inl rfl))
      · exact .inl (.of_same rfl rfl)
    · obtain ⟨hflag, hcount⟩ := regWrite_keepsWarning { s with script := rest } off v
      exact .inl ⟨hflag, hcount⟩
    · exact .inl (.of_same rfl rfl)
    · exact .inl (.of_same rfl rfl)
    · exact .inl (.of_same rfl rfl)
    · exact .inl (.of_same rfl rfl)
    · exact .inl (.of_same rfl rfl)
    · exact .inr (.inr (.inr rfl))

/-! ## The obligations of the faults and the warning -/

/-- Settles O21: a CRC check only raises the flag and counts once, and nothing else but the three named actions
touches either. -/
theorem warningFlagIsSticky : Obligations.WarningFlagIsSticky := fun _ _ hw h =>
  (step_keepsWarning h).imp_left fun hk => ⟨hk.flag hw, hk.count⟩

/-- Settles O6: the two branches of R255's pseudocode. -/
theorem haltedBlockDiscardsCommands : Obligations.HaltedBlockDiscardsCommands := by
  refine fun s w rest hs hhalt => ⟨?_, step_cmd_discarded hs hhalt⟩
  rintro rfl
  exact step_cmd_ctlRst hs

/-- Settles O8: `raise` is the taking of a fault with the fault's code, for each fault of R251. -/
theorem raiseDoesExactlyTrapEntry : Obligations.RaiseDoesExactlyTrapEntry := fun s info =>
  have taken (e : HwFault) : FaultTaken s (s.raise e info) e.code.toNat info := faultTaken_raise s e info
  ⟨taken .illegalCmd, taken .cfg, taken .range, taken .bounds, taken .seq, taken .operand, taken .truncated,
    taken .crc, taken .chunkLen, taken .truncatedIdat, taken .excessIdat, taken .invalidFilter,
    taken .paletteIndexOor, taken .paletteMiss⟩

/-- Settles O9: each check of a command, and each end of its body, is a next state. -/
theorem everyCommandHasANextState : Obligations.EveryCommandHasANextState := exec_endsInState

end Sys2Proof.Machine
end
